-- ==== Sys2Proof/Word.lean ====
section
/-! DEFINITION. The words of the hardware: the byte of the register page (20_memory.md R61) and the
16-bit command word (30_encoding.md R90). -/

namespace Sys2Proof

/-- One byte of the register page; bit 0 is the least significant (R11). -/
abbrev Byte := BitVec 8

/-- One command word as delivered at the command port (R90). -/
abbrev Word := BitVec 16

/-- The byte with only bit `j` set (R11); zero for `j ≥ 8`. -/
def oneHot (j : Nat) : Byte := 1#8 <<< j

end Sys2Proof
end

