-- ==== Sys2Proof/Syntax.lean ====
section
/-! DEFINITION. The seventeen commands of the command set `TBGPIO-1` (30_encoding.md R99), one constructor
per row of spec/opcode_table.json, with the operands of R96 as natural numbers and bits. -/

namespace Sys2Proof

/-- A command. `pin` is the 8-bit pin operand, `t` the 4-bit trigger type, `v` the one-bit level or
on/off operand (R91 to R96). The bounds of the fields are `Instr.WellFormed`. -/
inductive Instr
  -- GpioChip (41_gpiochip.md)
  | dirin (pin : Nat)
  | dirout (pin : Nat) (v : Bool)
  | get (pin : Nat)
  | set (pin : Nat) (v : Bool)
  -- IrqController (42_irqcontroller.md)
  | settype (pin : Nat) (t : Nat)
  | irqen (pin : Nat)
  | irqdis (pin : Nat)
  | ack (pin : Nat)
  | setwake (pin : Nat) (v : Bool)
  | disall
  | dispatch
  -- lifecycle (45_lifecycle.md)
  | attach
  | detach
  -- PmContext (44_pmcontext.md)
  | pmsuspend
  | pmsuspendnoirq
  | pmresumenoirq
  | pmresume
  deriving DecidableEq, Repr

/-- The mnemonic of each command (R99, R104). -/
def Instr.mnemonic : Instr → String
  | .dirin _ => "DIRIN"
  | .dirout _ _ => "DIROUT"
  | .get _ => "GET"
  | .set _ _ => "SET"
  | .settype _ _ => "SETTYPE"
  | .irqen _ => "IRQEN"
  | .irqdis _ => "IRQDIS"
  | .ack _ => "ACK"
  | .setwake _ _ => "SETWAKE"
  | .disall => "DISALL"
  | .dispatch => "DISPATCH"
  | .attach => "ATTACH"
  | .detach => "DETACH"
  | .pmsuspend => "PMSUSPEND"
  | .pmsuspendnoirq => "PMSUSPENDNOIRQ"
  | .pmresumenoirq => "PMRESUMENOIRQ"
  | .pmresume => "PMRESUME"

/-- How a listing names a trigger type (R104): the four names of R93, a numeral for the others. -/
def trigName (t : Nat) : String :=
  match t with
  | 0 => "none"
  | 1 => "rising"
  | 2 => "falling"
  | 3 => "both"
  | n => toString n

/-- The assembler form of a command (R104). -/
def Instr.listing : Instr → String
  | .dirin p => "DIRIN " ++ toString p
  | .dirout p v => "DIROUT " ++ toString p ++ ", " ++ toString v.toNat
  | .get p => "GET " ++ toString p
  | .set p v => "SET " ++ toString p ++ ", " ++ toString v.toNat
  | .settype p t => "SETTYPE " ++ toString p ++ ", " ++ trigName t
  | .irqen p => "IRQEN " ++ toString p
  | .irqdis p => "IRQDIS " ++ toString p
  | .ack p => "ACK " ++ toString p
  | .setwake p v => "SETWAKE " ++ toString p ++ ", " ++ toString v.toNat
  | .disall => "DISALL"
  | .dispatch => "DISPATCH"
  | .attach => "ATTACH"
  | .detach => "DETACH"
  | .pmsuspend => "PMSUSPEND"
  | .pmsuspendnoirq => "PMSUSPENDNOIRQ"
  | .pmresumenoirq => "PMRESUMENOIRQ"
  | .pmresume => "PMRESUME"

/-- The pseudo-instruction `WAKEON pin` (R105). -/
def Instr.wakeon (pin : Nat) : Instr := .setwake pin true

/-- The pseudo-instruction `WAKEOFF pin` (R105). -/
def Instr.wakeoff (pin : Nat) : Instr := .setwake pin false

/-- The pseudo-instruction `SETHIGH pin` (R105). -/
def Instr.sethigh (pin : Nat) : Instr := .set pin true

/-- The pseudo-instruction `SETLOW pin` (R105). -/
def Instr.setlow (pin : Nat) : Instr := .set pin false

/-- The pseudo-instruction `TYPENONE pin` (R105). -/
def Instr.typenone (pin : Nat) : Instr := .settype pin 0

end Sys2Proof
end

