-- ==== Sys2Proof/WellFormed.lean ====
section
/-! DEFINITION. Which commands the encoding can express (30_encoding.md R96): a pin operand has 8 bits, a
trigger type 4. A pin at or above `PIN_COUNT` and a type at or above 4 are well formed: the block answers
them with `INVALID_ARGUMENT` (60_exceptions.md R211). -/

namespace Sys2Proof

/-- The pin operand fits `cmd[7:0]`. -/
abbrev PinField (pin : Nat) : Prop := pin < 256

/-- The trigger type fits `cmd[11:8]`. -/
abbrev TypeField (t : Nat) : Prop := t < 16

/-- The command can be written as a command word. -/
def Instr.wellFormed : Instr → Bool
  | .dirin p => decide (PinField p)
  | .dirout p _ => decide (PinField p)
  | .get p => decide (PinField p)
  | .set p _ => decide (PinField p)
  | .settype p t => decide (PinField p) && decide (TypeField t)
  | .irqen p => decide (PinField p)
  | .irqdis p => decide (PinField p)
  | .ack p => decide (PinField p)
  | .setwake p _ => decide (PinField p)
  | .disall => true
  | .dispatch => true
  | .attach => true
  | .detach => true
  | .pmsuspend => true
  | .pmsuspendnoirq => true
  | .pmresumenoirq => true
  | .pmresume => true

/-- `Instr.wellFormed` as a proposition. -/
abbrev Instr.WellFormed (i : Instr) : Prop := i.wellFormed = true

end Sys2Proof
end

