-- ==== Sys2Proof/Decode.lean ====
section
/-! DEFINITION. The decoder of the 16-bit command word, total and rejecting by name (30_encoding.md R90 to
R107), and after it the encoder, written from the command words of R99. -/

namespace Sys2Proof

/-- Why a word is illegal (R100). -/
inductive IllegalWord
  /-- `op` is 0xB, 0xC, 0xD or 0xE. -/
  | reservedOpcode (op : Nat)
  /-- `op = 0xF` and `sub ≥ 6`. -/
  | reservedSubOpcode (sub : Nat)
  /-- A must-be-zero field of the word's format is not zero. -/
  | reservedField
  deriving DecidableEq, Repr

/-- `len` bits of `w` from bit `lo` up, read as an unsigned number (R11). -/
def slice (w : Word) (lo len : Nat) : Nat := w.toNat / 2 ^ lo % 2 ^ len

/-- Formats P, N and S: the answer stands only when the must-be-zero field is zero (R91, R94, R95). -/
def whenZero (reserved : Nat) (i : Instr) : Except IllegalWord Instr :=
  if reserved = 0 then .ok i else .error .reservedField

/-- Format PV: `cmd[11:9]` is zero and `cmd[8]` is `v` (R92). -/
def withValue (arg : Nat) (mk : Bool → Instr) : Except IllegalWord Instr :=
  if arg < 2 then .ok (mk (arg == 1)) else .error .reservedField

/-- The system group: `sub = cmd[11:8]`, `cmd[7:0]` must be zero (R95, R99). -/
def decodeSystem (sub low : Nat) : Except IllegalWord Instr :=
  match sub with
  | 0 => whenZero low .attach
  | 1 => whenZero low .detach
  | 2 => whenZero low .pmsuspend
  | 3 => whenZero low .pmsuspendnoirq
  | 4 => whenZero low .pmresumenoirq
  | 5 => whenZero low .pmresume
  | n => .error (.reservedSubOpcode n)

/-- `decode(cmd)` (R107): the command a word stands for, or why it is illegal. -/
def decode (w : Word) : Except IllegalWord Instr :=
  let arg := slice w 8 4
  let pin := slice w 0 8
  match slice w 12 4 with
  | 0 => whenZero arg (.dirin pin)
  | 1 => withValue arg (.dirout pin)
  | 2 => whenZero arg (.get pin)
  | 3 => withValue arg (.set pin)
  | 4 => .ok (.settype pin arg)
  | 5 => whenZero arg (.irqen pin)
  | 6 => whenZero arg (.irqdis pin)
  | 7 => whenZero arg (.ack pin)
  | 8 => withValue arg (.setwake pin)
  | 9 => whenZero (slice w 0 12) .disall
  | 10 => whenZero (slice w 0 12) .dispatch
  | 15 => decodeSystem arg pin
  | n => .error (.reservedOpcode n)

/-- The instruction the decoder reads from an instruction whose bits are `w`: a command is one 16-bit word,
delivered by value, so there is no byte order to lay out (R90, R103). -/
def decodeTableWord (nbits w : Nat) : Option Instr :=
  match decode (BitVec.ofNat 16 (w % 2 ^ nbits)) with
  | .ok i => some i
  | .error _ => none

/-- The command word as a number (R99). -/
def encodeNat : Instr → Nat
  | .dirin p => 0x0000 + p
  | .dirout p v => 0x1000 + 0x100 * v.toNat + p
  | .get p => 0x2000 + p
  | .set p v => 0x3000 + 0x100 * v.toNat + p
  | .settype p t => 0x4000 + 0x100 * t + p
  | .irqen p => 0x5000 + p
  | .irqdis p => 0x6000 + p
  | .ack p => 0x7000 + p
  | .setwake p v => 0x8000 + 0x100 * v.toNat + p
  | .disall => 0x9000
  | .dispatch => 0xA000
  | .attach => 0xF000
  | .detach => 0xF100
  | .pmsuspend => 0xF200
  | .pmsuspendnoirq => 0xF300
  | .pmresumenoirq => 0xF400
  | .pmresume => 0xF500

/-- The command word of a well-formed command (R99). -/
def encode (i : Instr) : Word := BitVec.ofNat 16 (encodeNat i)

/-- A row of the opcode table as R107 uses it: the words with `cmd & mask = match`. -/
structure TableRow where
  mask : Word
  bits : Word
  deriving DecidableEq, Repr

/-- The row of each command: the masks of R107 and the matches of R99. -/
def tableRow : Instr → TableRow
  | .dirin _ => ⟨0xFF00#16, 0x0000#16⟩
  | .dirout _ _ => ⟨0xFE00#16, 0x1000#16⟩
  | .get _ => ⟨0xFF00#16, 0x2000#16⟩
  | .set _ _ => ⟨0xFE00#16, 0x3000#16⟩
  | .settype _ _ => ⟨0xF000#16, 0x4000#16⟩
  | .irqen _ => ⟨0xFF00#16, 0x5000#16⟩
  | .irqdis _ => ⟨0xFF00#16, 0x6000#16⟩
  | .ack _ => ⟨0xFF00#16, 0x7000#16⟩
  | .setwake _ _ => ⟨0xFE00#16, 0x8000#16⟩
  | .disall => ⟨0xFFFF#16, 0x9000#16⟩
  | .dispatch => ⟨0xFFFF#16, 0xA000#16⟩
  | .attach => ⟨0xFFFF#16, 0xF000#16⟩
  | .detach => ⟨0xFFFF#16, 0xF100#16⟩
  | .pmsuspend => ⟨0xFFFF#16, 0xF200#16⟩
  | .pmsuspendnoirq => ⟨0xFFFF#16, 0xF300#16⟩
  | .pmresumenoirq => ⟨0xFFFF#16, 0xF400#16⟩
  | .pmresume => ⟨0xFFFF#16, 0xF500#16⟩

/-- A word belongs to a row (R107). -/
abbrev inRow (r : TableRow) (w : Word) : Prop := w &&& r.mask = r.bits

/-- The seventeen rows of the opcode table in its order. -/
def opcodeTable : List TableRow :=
  [tableRow (.dirin 0), tableRow (.dirout 0 false), tableRow (.get 0), tableRow (.set 0 false),
    tableRow (.settype 0 0), tableRow (.irqen 0), tableRow (.irqdis 0), tableRow (.ack 0),
    tableRow (.setwake 0 false)] ++
  [tableRow .disall, tableRow .dispatch, tableRow .attach, tableRow .detach, tableRow .pmsuspend,
    tableRow .pmsuspendnoirq, tableRow .pmresumenoirq, tableRow .pmresume]

end Sys2Proof
end

