-- ==== Sys2Proof/Config.lean ====
section
/-! DEFINITION. The configuration record of one Controller (00_scope.md R7), the names of the register
kinds and wells (10_state.md R22), and the one configuration the model's reset state carries. -/

namespace Sys2Proof

/-- The nine register kinds in the document's order, which is also the order of the kind codes (R22). -/
inductive Kind
  | en   -- enable
  | dir  -- direction
  | lvl  -- level
  | rte  -- rising-trigger-enable
  | fte  -- falling-trigger-enable
  | gpe  -- group-enable
  | smi  -- system-management-interrupt mask
  | nmi  -- non-maskable-interrupt enable
  | sts  -- status/pending
  deriving DecidableEq, Repr

/-- The two power domains (R120): the core well comes first in every sweep (R156). -/
inductive Well
  | core
  | resume
  deriving DecidableEq, Repr

/-- The five kinds a snapshot holds, in capture order (R36, R185). -/
inductive Saved
  | en
  | dir
  | lvl
  | smi
  | nmi
  deriving DecidableEq, Repr

/-- Which kind of access reaches the register page (R83); no rule depends on it. -/
inductive IoKind
  | memory
  | port
  deriving DecidableEq, Repr

/-- `BASE[k]` for the nine kinds (R7 item 6). -/
structure Bases where
  en  : Nat
  dir : Nat
  lvl : Nat
  rte : Nat
  fte : Nat
  gpe : Nat
  smi : Nat
  nmi : Nat
  sts : Nat
  deriving DecidableEq, Repr

/-- The configuration of one Controller (R7): the model's argument, never changed by a command. -/
structure Config where
  /-- `IO_BASE`: address of the first byte of the register page. -/
  ioBase : Nat
  /-- `PIN_COUNT`. -/
  pinCount : Nat
  /-- `RESUME_BOUNDARY`: the first pin of the resume well. -/
  resumeBoundary : Nat
  /-- `HAS_LINE`: whether a shared interrupt line was supplied. -/
  hasLine : Bool
  /-- `S`: the bank stride added to every resume-well offset. -/
  stride : Nat
  /-- `BASE[k]`. -/
  base : Bases
  /-- `VIRQ_BASE`: the first virtual interrupt identity. -/
  virqBase : Nat
  /-- `ADDR_W`: width in bits of an address of the register space. -/
  addrW : Nat
  /-- `N_CTX`: number of ordinary calling contexts. -/
  nCtx : Nat
  /-- `IO_KIND`. -/
  ioKind : IoKind
  deriving DecidableEq, Repr

/-- The nine kinds in kind-code order (R22). -/
def Kind.all : List Kind := [.en, .dir, .lvl, .rte, .fte, .gpe, .smi, .nmi, .sts]

/-- The two wells, core first. -/
def Well.all : List Well := [.core, .resume]

/-- The five saved kinds in capture order (R185). -/
def Saved.all : List Saved := [.en, .dir, .lvl, .smi, .nmi]

/-- One byte register `REG[k][w][i]` of the bank (R21). -/
structure Reg where
  kind : Kind
  well : Well
  idx  : Nat
  deriving DecidableEq, Repr

/-- The reference layout of R63: `BASE[k] = 8 * code(k)`. -/
def Bases.reference : Bases :=
  { en := 0x00, dir := 0x08, lvl := 0x10, rte := 0x18, fte := 0x20, gpe := 0x28, smi := 0x30,
    nmi := 0x38, sts := 0x40 }

/-- The document's scenario (R10, section 8 of the source) with the reference layout of R63 and the
`VIRQ_BASE = 32` of 95_test_vectors.md. DESIGN CHOICE (log entry 1): this is only the configuration that
`State.reset` carries; every claim quantifies over the configuration of its state. -/
def Config.scenario : Config :=
  { ioBase := 0x1000, pinCount := 14, resumeBoundary := 10, hasLine := true, stride := 0x80,
    base := Bases.reference, virqBase := 32, addrW := 16, nCtx := 2, ioKind := .memory }

end Sys2Proof
end

