-- ==== Sys2Proof/Machine/State.lean ====
section
/-! DEFINITION. The state of one Controller (10_state.md R20), the agents around it, the reasons a step can
stop, and the state after power-on (R51, R250). -/

namespace Sys2Proof.Machine

/-- Who issues commands (60_exceptions.md R232): the `N_CTX` ordinary contexts, the dispatch context, and
the power-management and lifecycle context; and the `NOTIFY` receivers, whose commands count as ordinary and come
from the dispatch context's execution unit (R229, R233), at a place of their own (log entry 29). -/
inductive Ctx
  | ordinary (n : Nat)
  | dispatch
  | receiver
  | power
  deriving DecidableEq, Repr

/-- The status classes of a response (R98, R210). -/
inductive Status
  | ok
  | invalidArgument
  | resourceBusy
  | fault
  | notSupported
  | deviceBusy
  | logicError
  | illegalCommand
  deriving DecidableEq, Repr

/-- The suspend/resume machine (R37). -/
inductive Pm
  | active
  | suspending
  | suspended
  | resuming
  deriving DecidableEq, Repr

/-- The exclusion primitive (R42). -/
inductive Lock
  | free
  | held (c : Ctx)
  deriving DecidableEq, Repr

/-- The direction of an edge event (R222). -/
inductive Edge
  | rising
  | falling
  deriving DecidableEq, Repr

/-- The handshake inputs of one command (R106): what the environment answers when the command asks. -/
structure Handshake where
  variantOk : Bool
  ioOk : Bool
  virqOk : Bool
  maskOk : Bool
  deriving DecidableEq, Repr

/-- One command delivered at the command port (R90): the issuing context, the word, the handshake inputs. -/
structure Request where
  ctx  : Ctx
  word : Word
  hs   : Handshake
  deriving DecidableEq, Repr

/-- The environment's four kinds of step (R52). A power loss carries the bits it draws (R190): the byte of
kind code `k` and core byte index `i` is bits `8 * (8 * k + i)` up. -/
inductive EnvStep
  | pad (p : Nat) (v : Bool)
  | edge (p : Nat) (e : Edge)
  | regWrite (off : Nat) (v : Byte)
  | powerLoss (draw : BitVec 576)
  deriving DecidableEq, Repr

/-- What an observer of the block sees (R46), and the environment's own steps among it. -/
inductive Event
  | command (c : Ctx) (w : Word)
  | response (c : Ctx) (resp : Byte)
  | notify (virq : Nat)
  | read (c : Ctx) (off : Nat) (v : Byte)
  | write (c : Ctx) (off : Nat) (v : Byte)
  | env (e : EnvStep)
  deriving DecidableEq, Repr

/-- One single-bit read-modify-write of an atomic block (R128). -/
structure BitOp where
  pin  : Nat
  kind : Kind
  v    : Bool
  deriving DecidableEq, Repr

/-- The pieces a command is carried out in (R43): each is one atomic block with the bookkeeping that belongs
to it, or the command's response. Other agents act between two pieces. -/
inductive Action
  /-- `atomic` over `BitRMW`s (`DIRIN`, each half of `DIROUT`, `SET`, `SETTYPE`, `IRQEN`, `IRQDIS`). -/
  | rmw (ops : List BitOp)
  /-- `atomic` over one `BitTest` of `LVL` (`GET`). -/
  | test (pin : Nat)
  /-- `atomic` over the one-hot status write (`ACK`). -/
  | ack (pin : Nat)
  /-- `atomic` over `WakeSet.set` or `WakeSet.clear` (`SETWAKE`). -/
  | wake (pin : Nat) (on : Bool)
  /-- The `disable_all` block (R156). -/
  | disableAll
  /-- The capture block (R182). -/
  | capture
  /-- The write-back block (R183). -/
  | restore
  /-- The dispatcher's test of one pin (R157). -/
  | probe (pin : Nat)
  /-- The dispatcher's acknowledge of one pin, when it was found pending. -/
  | serve (pin : Nat)
  /-- The dispatcher's notification of one pin, when it was found pending, and the cursor's advance. -/
  | notify (pin : Nat)
  /-- The end of `ATTACH`: `ATTACHED <- true`, response. -/
  | attachDone
  /-- The end of `DETACH`. -/
  | detachDone
  /-- The end of `PMSUSPENDNOIRQ`. -/
  | suspendDone
  /-- The end of `PMRESUMENOIRQ`. -/
  | resumeDone
  /-- The response `(OK, 0)`. -/
  | answer
  /-- The response `(OK, l)` of `GET`. -/
  | answerLevel
  /-- The response `(OK, HANDLED)` of `DISPATCH`. -/
  | answerHandled
  deriving DecidableEq, Repr

/-- A command in flight (R20 item j, R43): its context, what is left of it, and the bit it last tested. -/
structure Flight where
  ctx  : Ctx
  todo : List Action
  bit  : Bool
  deriving DecidableEq, Repr

/-- One move of the world around the command a step carries out: an environment step, another context
issuing a command, or another context carrying its command one piece further. -/
inductive Move
  | env (e : EnvStep)
  | start (r : Request)
  | advance (c : Ctx)
  deriving DecidableEq, Repr

/-- Why the machine stops. -/
inductive Fault
  /-- The model-level fault `UNDEFINED_BY_CONTRACT` (R219), raised by the entry checks of the eleven
  GpioChip and IrqController commands, by `DETACH` and by the power-management commands. Safe: nothing is
  claimed of what the block does then. -/
  | undefinedByContract
  /-- `DISPATCH` issued while the line is masked, delivery is off, there is no line, or a `DISPATCH` is in
  flight (R223, R229; 93_implementation_defined.md U15, treatment `stuck`): the command has no step. Raised
  by `DISPATCH`. Safe. -/
  | dispatchHasNoStep
  /-- An `atomic` block begun while `LOCK` is held outside any block (R74): the context would spin for
  ever. Raised by every atomic block; no run from reset reaches it. Safe. -/
  | lockNeverFree
  deriving DecidableEq, Repr

/-- Why the model gives a step no meaning. -/
inductive Refusal
  /-- Raised by `exec` for an instruction that has no meaning yet. Safe. -/
  | notModelled (mnemonic : String)
  /-- Raised by `step` on a configuration that is not well formed (R8, U12, treatment `refuse`). Safe. -/
  | illFormedConfig
  /-- Raised by a register access at an offset outside `USED` (R64, U14, treatment `refuse`); no command
  computes one. Safe. -/
  | outsidePage (off : Nat)
  /-- Raised when the pin mapping is applied to a pin at or above `PIN_COUNT` (R125, U9, treatment
  `refuse`); every command checks first. Safe. -/
  | noSuchPin (pin : Nat)
  deriving DecidableEq, Repr

/-- The state of one Controller and of the world that acts on it. -/
structure State where
  /-- The configuration (R7), constant. -/
  cfg : Config
  /-- (a) The register page: the stored bytes of the register bank, by absolute address. The stored bits of
  `LVL` are the latches `LATCH[p]` (R26) and the reserved bits (R33). -/
  mem : List Host.Cell
  /-- (k) `PADIN` (R44), bit `p` for pin `p`. -/
  padin : BitVec 64
  /-- (b) `WAKE` (R35), bit `p` for pin `p`. -/
  wake : BitVec 64
  /-- (c) `SNAP` (R36): `SNAP[k][i]` is entry `8 * slot k + i`. -/
  snap : Vector Byte 40
  /-- (c) `SNAP_VALID` (R36). -/
  snapValid : Bool
  /-- (d) `PM` (R37). -/
  pm : Pm
  /-- (e) `LINE_MASKED` (R38). -/
  lineMasked : Bool
  /-- (f) `DELIV_OFF` (R39). -/
  delivOff : Bool
  /-- (g) `ATTACHED` (R40). -/
  attached : Bool
  /-- (h) `FATAL` (R41). -/
  fatal : Bool
  /-- (i) `LOCK` (R42). -/
  lock : Lock
  /-- (j) `SCAN` (R43). -/
  scan : Nat
  /-- (j) `HANDLED` (R43). -/
  handled : Bool
  /-- (j) The command a step is carrying out, while it does. -/
  running : Option Flight
  /-- (j) The commands of other contexts in flight. -/
  inflight : List Flight
  /-- The model's own: a power loss happened since the block last left `Active` (the guard of R222). -/
  coreDark : Bool
  /-- The model's own: the commands waiting at the command port, the next first. -/
  port : List Request
  /-- The context of the command being carried out. -/
  ctx : Ctx
  /-- The handshake inputs of the command being carried out (R106). -/
  hs : Handshake
  /-- The last response given (R97) and the context it went to; none before the first. -/
  resp : Option (Ctx × Byte)
  /-- The model's own: the history of events (R46), oldest first. -/
  log : List Event
  /-- The model's own: the moves of the world in the windows to come, the next window's first. -/
  windows : List (List Move)
  deriving DecidableEq, Repr

/-- The machine after power-on (R51, R250): the control state as R51 gives it. Registers, latches, `PADIN`,
`SNAP`, `SCAN` and `HANDLED` have no reset value in the spec and are zero here (log entries 2 to 4). DESIGN CHOICE
(log entries 5 and 6): `port` and `windows` are empty, so that nobody acts in the run from this state alone; R52 leaves
the order of the agents' steps open, and every other list of moves is a state of its own. -/
def State.reset : State :=
  { cfg := Config.scenario
    mem := []
    padin := 0#64
    wake := 0#64
    snap := Vector.replicate 40 0#8
    snapValid := false
    pm := .active
    lineMasked := false
    delivOff := false
    attached := false
    fatal := false
    lock := .free
    scan := 0
    handled := false
    running := none
    inflight := []
    coreDark := false
    port := []
    ctx := .ordinary 0
    hs := { variantOk := true, ioOk := true, virqOk := true, maskOk := true }
    resp := none
    log := []
    windows := [] }

end Sys2Proof.Machine
end

