-- ==== Sys2Proof/Machine/Operands.lean ====
section
/-! DEFINITION. RegisterBank: the mapping from pin and kind to register, offset and bit
(40_registerbank.md R120 to R131), the layout of the register page and the well-formedness of a
configuration (00_scope.md R8, 20_memory.md R62), and the trigger-type operand (R93). -/

namespace Sys2Proof.Machine

/-- The kind code 0 to 8 (R22). -/
def kindCode : Kind → Nat
  | .en => 0
  | .dir => 1
  | .lvl => 2
  | .rte => 3
  | .fte => 4
  | .gpe => 5
  | .smi => 6
  | .nmi => 7
  | .sts => 8

/-- `BASE[k]` (R7). -/
def baseOf (c : Config) : Kind → Nat
  | .en => c.base.en
  | .dir => c.base.dir
  | .lvl => c.base.lvl
  | .rte => c.base.rte
  | .fte => c.base.fte
  | .gpe => c.base.gpe
  | .smi => c.base.smi
  | .nmi => c.base.nmi
  | .sts => c.base.sts

/-- `N(w)`: the pins of a well (R9). -/
def pinsIn (c : Config) : Well → Nat
  | .core => c.resumeBoundary
  | .resume => c.pinCount - c.resumeBoundary

/-- `NB(w)`: the bytes each kind occupies in a well (R9, R131). -/
def bytesIn (c : Config) (w : Well) : Nat := (pinsIn c w + 7) / 8

/-- `stride(w)` (R62). -/
def strideOf (c : Config) : Well → Nat
  | .core => 0
  | .resume => c.stride

/-- The first pin of a well (R23). -/
def firstPin (c : Config) : Well → Nat
  | .core => 0
  | .resume => c.resumeBoundary

/-! ### The pin mapping (R120 to R125)

The functions have a value for `pin < PIN_COUNT` alone. -/

/-- A value for a pin that exists; none for any other (R125). -/
def forPin {α : Type} (c : Config) (pin : Nat) (x : α) : Option α := if pin < c.pinCount then some x else none

/-- `well(pin)` (R120). -/
def well? (c : Config) (pin : Nat) : Option Well :=
  forPin c pin (if pin < c.resumeBoundary then .core else .resume)

/-- `pin_in_well(pin)` (R121). -/
def pinInWell? (c : Config) (pin : Nat) : Option Nat :=
  forPin c pin (if pin < c.resumeBoundary then pin else pin - c.resumeBoundary)

/-- `well_stride(pin)` (R122). -/
def wellStride? (c : Config) (pin : Nat) : Option Nat := (well? c pin).map (strideOf c)

/-- `offset(pin, kind)` (R123). -/
def offset? (c : Config) (pin : Nat) (k : Kind) : Option Nat :=
  match wellStride? c pin, pinInWell? c pin with
  | some st, some q => some (baseOf c k + st + q / 8)
  | _, _ => none

/-- `bit(pin)` (R124). -/
def bit? (c : Config) (pin : Nat) : Option Nat := (pinInWell? c pin).map (· % 8)

/-- The register a pin's bit of kind `k` stands in (R23). -/
def reg? (c : Config) (k : Kind) (pin : Nat) : Option Reg :=
  match well? c pin, pinInWell? c pin with
  | some w, some q => some ⟨k, w, q / 8⟩
  | _, _ => none

/-! The same right-hand sides without the domain, for statements about pins that exist. Nothing the block does
goes through them. -/

/-- The right-hand side of R120. -/
def wellOf (c : Config) (pin : Nat) : Well := if pin < c.resumeBoundary then .core else .resume

/-- The right-hand side of R121. -/
def pinInWell (c : Config) (pin : Nat) : Nat :=
  if pin < c.resumeBoundary then pin else pin - c.resumeBoundary

/-- The right-hand side of R124. -/
def bitOf (c : Config) (pin : Nat) : Nat := pinInWell c pin % 8

/-- The right-hand side of R23. -/
def regOf (c : Config) (k : Kind) (pin : Nat) : Reg := ⟨k, wellOf c pin, pinInWell c pin / 8⟩

/-! ### The layout -/

/-- The byte offset of a register (R21): `BASE[k] + stride(w) + i`. -/
def regOff (c : Config) (r : Reg) : Nat := baseOf c r.kind + strideOf c r.well + r.idx

/-- The registers of one kind, core before resume, ascending byte (R131, R156). -/
def regsOfKind (c : Config) (k : Kind) : List Reg :=
  Well.all.flatMap fun w => (List.range (bytesIn c w)).map fun i => ⟨k, w, i⟩

/-- Every register of the bank (R21). -/
def regs (c : Config) : List Reg := Kind.all.flatMap (regsOfKind c)

/-- `USED` (R62). -/
def usedOffsets (c : Config) : List Nat := (regs c).map (regOff c)

/-- `PAGE_END` (R62): one more than the largest used offset, 0 when there is none. -/
def pageEnd (c : Config) : Nat := (usedOffsets c).foldl (fun m off => max m (off + 1)) 0

/-- The register that stands at an offset; none outside `USED` (R64). -/
def locate (c : Config) (off : Nat) : Option Reg := (regs c).find? fun r => regOff c r == off

/-- A well-formed configuration: R8 (a), (b), (c), and `N_CTX ≥ 1` (R7). -/
abbrev ConfigWF (c : Config) : Prop :=
  (c.resumeBoundary ≤ c.pinCount ∧ c.pinCount ≤ 64) ∧ (usedOffsets c).Nodup ∧
    c.ioBase + pageEnd c ≤ 2 ^ c.addrW ∧ 1 ≤ c.nCtx

/-- The kind a slot of the snapshot holds (R36). -/
def savedKind : Saved → Kind
  | .en => .en
  | .dir => .dir
  | .lvl => .lvl
  | .smi => .smi
  | .nmi => .nmi

/-- The position of a kind in the snapshot, in the order of R185. -/
def savedSlot : Saved → Nat
  | .en => 0
  | .dir => 1
  | .lvl => 2
  | .smi => 3
  | .nmi => 4

/-- The five kinds' core bytes in capture order (R185): kind by kind, ascending byte index. -/
def savedBytes (c : Config) : List (Saved × Nat) :=
  Saved.all.flatMap fun k => (List.range (bytesIn c .core)).map fun i => (k, i)

/-- The core-well register behind a snapshot byte. -/
def savedReg (b : Saved × Nat) : Reg := ⟨savedKind b.1, .core, b.2⟩

/-- The trigger-type operand (R93): `t[0]` is rising enable, `t[1]` falling enable; 4 to 15 are
unrecognised (R151). -/
def trigBits (t : Nat) : Option (Bool × Bool) :=
  if t < 4 then some (t % 2 == 1, t / 2 % 2 == 1) else none

/-- `VIRQ_BASE + pin` (R159). -/
def virqOf (c : Config) (pin : Nat) : Nat := c.virqBase + pin

/-- The pin a host call on virtual identity `v` is for (R108, R159). -/
def pinOfVirq (c : Config) (v : Nat) : Option Nat :=
  if c.virqBase ≤ v ∧ v < c.virqBase + c.pinCount then some (v - c.virqBase) else none

/-- A context the configuration has (R7 item 9, R232). -/
def ctxExists (c : Config) : Ctx → Bool
  | .ordinary n => decide (n < c.nCtx)
  | .dispatch => true
  | .receiver => true
  | .power => true

end Sys2Proof.Machine
end

