-- ==== Sys2Proof/Machine/Page.lean ====
section
/-! DEFINITION. The register page: the stored bytes by absolute address, and what reading and writing one
register does, kind by kind (20_memory.md R60 to R70). -/

namespace Sys2Proof.Machine

/-- The byte at an address; an address the list does not hold reads 0 (log entry 2: the spec leaves power-on
contents unspecified). -/
def readByte : List Host.Cell → Nat → Byte
  | [], _ => 0#8
  | (b, v) :: m, a => if a = b then v else readByte m a

/-- One byte written, keeping the list's canonical form. -/
def writeByte : List Host.Cell → Nat → Byte → List Host.Cell
  | [], a, v => if v = 0#8 then [] else [(a, v)]
  | (b, w) :: m, a, v =>
    if a < b then (if v = 0#8 then (b, w) :: m else (a, v) :: (b, w) :: m)
    else if a = b then (if v = 0#8 then m else (a, v) :: m)
    else (b, w) :: writeByte m a v

/-- The canonical form: addresses strictly rising, no byte equal to what an unlisted address reads as. -/
abbrev MemWF (m : List Host.Cell) : Prop :=
  m.Pairwise (fun x y => x.1 < y.1) ∧ ∀ c ∈ m, c.2 ≠ 0#8

/-- The absolute address of a register (R61): `IO_BASE + offset`. -/
def regAddr (c : Config) (r : Reg) : Nat := c.ioBase + regOff c r

/-- The stored byte of a register. For `LVL` these are the latches and the reserved bits. -/
def stored (s : State) (r : Reg) : Byte := readByte s.mem (regAddr s.cfg r)

/-- The stored byte of a register replaced. -/
def store (s : State) (r : Reg) (v : Byte) : State :=
  { s with mem := writeByte s.mem (regAddr s.cfg r) v }

/-- The bits of byte `i` of well `w` that belong to a pin (R23, R33). -/
def pinMask (c : Config) (w : Well) (i : Nat) : Byte :=
  BitVec.ofNat 8 (2 ^ min 8 (pinsIn c w - 8 * i) - 1)

/-- `PADIN` of the eight pins of byte `i` of well `w` (R44). -/
def padByte (s : State) (w : Well) (i : Nat) : Byte :=
  (s.padin >>> (firstPin s.cfg w + 8 * i)).setWidth 8

/-- The bits of byte `i` of well `w` whose pin is an input (R25: `DIR = 1`). -/
def inputMask (s : State) (w : Well) (i : Nat) : Byte :=
  stored s ⟨.dir, w, i⟩ &&& pinMask s.cfg w i

/-- The value a read of a register returns (R69). -/
def readReg (s : State) (r : Reg) : Byte :=
  match r.kind with
  | .lvl =>
    (padByte s r.well r.idx &&& inputMask s r.well r.idx) |||
      (stored s r &&& ~~~(inputMask s r.well r.idx))
  | .en | .dir | .rte | .fte | .gpe | .smi | .nmi | .sts => stored s r

/-- The effect of a write of `v` to a register (R70). -/
def writeReg (s : State) (r : Reg) (v : Byte) : State :=
  match r.kind with
  | .sts => store s r (stored s r &&& ~~~v)
  | .lvl =>
    store s r ((stored s r &&& inputMask s r.well r.idx) ||| (v &&& ~~~(inputMask s r.well r.idx)))
  | .en | .dir | .rte | .fte | .gpe | .smi | .nmi => store s r v

end Sys2Proof.Machine
end

