-- ==== Sys2Proof/Machine/Flags.lean ====
section
/-! DEFINITION. The responses (30_encoding.md R97, R98), the per-pin views of the register bank, the
combinational outputs (10_state.md R45) and the conditions on them. The block has no flags register (R48). -/

namespace Sys2Proof.Machine

/-- The status numbers (R98). -/
def statusCode : Status → Nat
  | .ok => 0
  | .invalidArgument => 1
  | .resourceBusy => 2
  | .fault => 3
  | .notSupported => 4
  | .deviceBusy => 5
  | .logicError => 6
  | .illegalCommand => 7

/-- `resp = data * 16 + status` (R97). -/
def respByte (st : Status) (data : Bool) : Byte := BitVec.ofNat 8 (data.toNat * 16 + statusCode st)

/-- `K[p]`: the stored bit of pin `p` in kind `k` (R23), for a pin that exists (R125). -/
def pinBit? (s : State) (k : Kind) (p : Nat) : Option Bool :=
  match reg? s.cfg k p, bit? s.cfg p with
  | some r, some j => some ((stored s r).getLsbD j)
  | _, _ => none

/-! The next three and `trigType` are right-hand sides without the domain, for statements about pins that exist.
Nothing the block does goes through them. -/

/-- `K[p]`: the stored bit of pin `p` in kind `k` (R23). -/
def pinBit (s : State) (k : Kind) (p : Nat) : Bool :=
  (stored s (regOf s.cfg k p)).getLsbD (bitOf s.cfg p)

/-- `LATCH[p]` (R26). -/
def latch (s : State) (p : Nat) : Bool := pinBit s .lvl p

/-- What a read of `LVL[p]` returns (R26): `PADIN[p]` for an input, `LATCH[p]` for an output. -/
def level (s : State) (p : Nat) : Bool :=
  if pinBit s .dir p then s.padin.getLsbD p else latch s p

/-- The trigger types (R34). -/
inductive TrigType
  | none
  | rising
  | falling
  | both
  deriving DecidableEq, Repr

/-- The type named by the two trigger-enable bits (R34). -/
def trigOfBits : Bool → Bool → TrigType
  | false, false => .none
  | true, false => .rising
  | false, true => .falling
  | true, true => .both

/-- `type(p)` (R34). -/
def trigType (s : State) (p : Nat) : TrigType := trigOfBits (pinBit s .rte p) (pinBit s .fte p)

/-- What a pin's pad shows (R45). -/
inductive Pad
  | drives (v : Bool)
  | released
  /-- A core-well pin while the core well is without power (R190, U17): no source defines it. -/
  | undefinedPad
  deriving DecidableEq, Repr

/-- The pin's well has lost power in the present low-power window. -/
def wellDark (s : State) (p : Nat) : Bool :=
  s.coreDark && decide (s.pm = .suspended) && decide (p < s.cfg.resumeBoundary)

/-- `PADOUT[p]` (R45), for a pin that exists. DESIGN CHOICE (log entry 16): a core-well pin without power shows
`undefinedPad` throughout, so that in the model nothing moves it; U17 says any value, and no claim mentions it. -/
def padOut (s : State) (p : Nat) : Option Pad :=
  match pinBit? s .dir p, pinBit? s .lvl p with
  | some dir, some v =>
    some (if wellDark s p then .undefinedPad else if dir then .released else .drives v)
  | _, _ => none

/-- `LINE` (R224). -/
def lineOut (s : State) : Bool :=
  s.cfg.hasLine &&
    (List.range s.cfg.pinCount).any fun p => pinBit? s .sts p == some true && pinBit? s .gpe p == some true

/-- `WAKE_OUT` (R174). -/
def wakeOut (s : State) : Bool :=
  (List.range s.cfg.pinCount).any fun p => s.wake.getLsbD p && pinBit? s .sts p == some true

/-- Layers 3 to 5 of R223. -/
def lineOpen (s : State) : Bool := s.cfg.hasLine && !s.lineMasked && !s.delivOff

/-- Every command in flight, the one a step is carrying out among them. -/
def allFlights (s : State) : List Flight := s.running.toList ++ s.inflight

/-- A `DISPATCH` is in flight: its response is still to come. -/
def dispatchInFlight (s : State) : Bool := (allFlights s).any fun f => f.todo.contains .answerHandled

/-- `DISPATCH` may start (R223), not nested in itself (R229, U15). -/
def dispatchMayStart (s : State) : Bool := lineOpen s && !dispatchInFlight s

/-- Some command is in flight (R219 b). -/
def someInFlight (s : State) : Bool := !(allFlights s).isEmpty

end Sys2Proof.Machine
end

