-- ==== Sys2Proof/Machine/Ops.lean ====
section
/-! DEFINITION. The shared operations: sequencing, responses and error classes, the environment's steps, the
access primitives RegRead, RegWrite, BitRMW and BitTest inside atomic blocks (40_registerbank.md, 20_memory.md
R72 to R80), the wake set, and the pieces every command is carried out in. -/

namespace Sys2Proof.Machine

/-- The outcome of a part of a step. -/
abbrev Res (α : Type) := Host.Outcome α Fault Refusal

/-- One part of a step after another; a fault or a refusal ends the step. -/
def andThen {α β : Type} (o : Res α) (f : α → Res β) : Res β :=
  match o with
  | .next x => f x
  | .fault r => .fault r
  | .refused r => .refused r

/-- An event appended to the history (R46). -/
def record (e : Event) (s : State) : State := { s with log := s.log ++ [e] }

/-- The response `(st, data)` given to context `c` (R97). -/
def respond (c : Ctx) (st : Status) (data : Bool) (s : State) : State :=
  record (.response c (respByte st data)) { s with resp := some (c, respByte st data) }

/-! ## The environment (R52) -/

/-- Bit `p` of `PADIN` set to `v`. -/
def setPad (padin : BitVec 64) (p : Nat) (v : Bool) : BitVec 64 :=
  if v then padin ||| (1#64 <<< p) else padin &&& ~~~(1#64 <<< p)

/-- The trigger enable an edge is judged against (R222). -/
def triggerKind : Edge → Kind
  | .rising => .rte
  | .falling => .fte

/-- `STS[p] <- 1`, for a pin that exists. -/
def setPending (p : Nat) (s : State) : State :=
  match reg? s.cfg .sts p, bit? s.cfg p with
  | some r, some j => store s r (stored s r ||| oneHot j)
  | _, _ => s

/-- The byte a power loss leaves in a core register (R190). -/
def lostByte (draw : BitVec 576) (r : Reg) : Byte :=
  draw.extractLsb' (8 * (8 * kindCode r.kind + r.idx)) 8

/-- Every core-well byte and latch takes the drawn value (R190). -/
def loseCore (draw : BitVec 576) (s : State) : State :=
  ((regs s.cfg).filter fun r => r.well == .core).foldl (fun s r => store s r (lostByte draw r)) s

/-- When an environment step is enabled: R52, R80, R190 and R222. No step takes `LOCK`. -/
def envEnabled (s : State) : EnvStep → Bool
  | .pad p _ => decide (p < s.cfg.pinCount)
  | .edge p _ => decide (p < s.cfg.pinCount) && !wellDark s p
  | .regWrite off _ => (locate s.cfg off).isSome
  | .powerLoss _ => decide (s.pm = .suspended) && !someInFlight s

/-- What an enabled environment step does (R52, R80, R190, R222). -/
def envEffect (s : State) : EnvStep → State
  | .pad p v => { s with padin := setPad s.padin p v }
  | .edge p e => if pinBit? s (triggerKind e) p = some true then setPending p s else s
  | .regWrite off v =>
    match locate s.cfg off with
    | some r => writeReg s r v
    | none => s
  | .powerLoss draw => { loseCore draw s with coreDark := true }

/-- One environment step; one that is not enabled does not happen. -/
def envStep (e : EnvStep) (s : State) : State :=
  if envEnabled s e then record (.env e) (envEffect s e) else s

/-- The environment steps among some moves. Inside an atomic block no other context moves (R74, R75). -/
def envMoves : List Move → State → State
  | [], s => s
  | .env e :: ms, s => envMoves ms (envStep e s)
  | .start _ :: ms, s => envMoves ms s
  | .advance _ :: ms, s => envMoves ms s

/-- The window before an access inside an atomic block: environment steps may fall there (R80). -/
def envWindow (s : State) : State :=
  match s.windows with
  | [] => s
  | ms :: rest => envMoves ms { s with windows := rest }

/-! ## Accesses (R127 to R130) -/

/-- `RegRead(off)` by context `c` (R127); refused outside `USED` (R64). -/
def regRead (c : Ctx) (off : Nat) (s : State) : Res (Byte × State) :=
  match locate s.cfg off with
  | none => .refused (.outsidePage off)
  | some r =>
    let s := envWindow s
    .next (readReg s r, record (.read c off (readReg s r)) s)

/-- `RegWrite(off, v)` by context `c` (R127); refused outside `USED` (R64). -/
def regWrite (c : Ctx) (off : Nat) (v : Byte) (s : State) : Res State :=
  match locate s.cfg off with
  | none => .refused (.outsidePage off)
  | some r => .next (record (.write c off v) (writeReg (envWindow s) r v))

/-- `offset(pin, kind)` and `bit(pin)` handed on; refused for a pin the mapping is not defined on (R125). -/
def withPin {α : Type} (cfg : Config) (pin : Nat) (k : Kind) (f : Nat → Nat → Res α) : Res α :=
  match offset? cfg pin k, bit? cfg pin with
  | some off, some j => f off j
  | _, _ => .refused (.noSuchPin pin)

/-- Bit `j` of `b` replaced by `v` (R128). -/
def setBit (b : Byte) (j : Nat) (v : Bool) : Byte := if v then b ||| oneHot j else b &&& ~~~(oneHot j)

/-- `BitRMW(pin, kind, v)` (R128): a read, then a write, always both. -/
def bitRmw (c : Ctx) (op : BitOp) (s : State) : Res State :=
  withPin s.cfg op.pin op.kind fun off j =>
    andThen (regRead c off s) fun r => regWrite c off (setBit r.1 j op.v) r.2

/-- `BitRMW`s one after the other. -/
def bitRmws (c : Ctx) : List BitOp → State → Res State
  | [], s => .next s
  | op :: ops, s => andThen (bitRmw c op s) (bitRmws c ops)

/-- `BitTest(pin, kind)` (R129). -/
def bitTest (c : Ctx) (pin : Nat) (k : Kind) (s : State) : Res (Bool × State) :=
  withPin s.cfg pin k fun off j =>
    andThen (regRead c off s) fun r => .next (r.1.getLsbD j, r.2)

/-- The acknowledge: one write of the one-hot byte and no read (R154, R263). -/
def ackWrite (c : Ctx) (pin : Nat) (s : State) : Res State :=
  withPin s.cfg pin .sts fun off j => regWrite c off (oneHot j) s

/-- `RegWrite`s one after the other. -/
def writeAll (c : Ctx) : List (Nat × Byte) → State → Res State
  | [], s => .next s
  | w :: ws, s => andThen (regWrite c w.1 w.2 s) (writeAll c ws)

/-- The kinds `disable_all` clears, in its order (R156). -/
def clearedKinds : List Kind := [.rte, .fte, .gpe, .smi, .nmi]

/-- The writes of `disable_all` in order (R156): five kinds with 0x00, then `STS` with 0xFF. -/
def disableAllWrites (c : Config) : List (Nat × Byte) :=
  (clearedKinds.flatMap fun k => (regsOfKind c k).map fun r => (regOff c r, 0x00#8)) ++
    (regsOfKind c .sts).map fun r => (regOff c r, 0xFF#8)

/-- `SNAP[k][i]` (R36). -/
def snapByte (s : State) (b : Saved × Nat) : Byte := s.snap[8 * savedSlot b.1 + b.2]?.getD 0#8

/-- `SNAP[k][i] <- v`. -/
def setSnapByte (b : Saved × Nat) (v : Byte) (s : State) : State :=
  { s with snap := s.snap.setIfInBounds (8 * savedSlot b.1 + b.2) v }

/-- The reads of the capture (R182, R185), each into its place of the snapshot. -/
def captureAll (c : Ctx) : List (Saved × Nat) → State → Res State
  | [], s => .next s
  | b :: bs, s =>
    andThen (regRead c (regOff s.cfg (savedReg b)) s) fun r =>
      captureAll c bs (setSnapByte b r.1 r.2)

/-- The writes of the write-back (R183, R185), in capture order. -/
def restoreWrites (s : State) : List (Nat × Byte) :=
  (savedBytes s.cfg).map fun b => (regOff s.cfg (savedReg b), snapByte s b)

/-- `atomic { ... }` of context `c` (R42, R74): begun only when `LOCK` is free, held while the body runs, free
again after. The body's own windows admit environment steps only. -/
def atomic {α : Type} (c : Ctx) (body : State → Res (α × State)) (s : State) : Res (α × State) :=
  if s.lock = .free then
    andThen (body { s with lock := .held c }) fun r => .next (r.1, { r.2 with lock := .free })
  else .fault .lockNeverFree

/-- An atomic block that hands the command's bit on unchanged. -/
def atomicDo (c : Ctx) (bit : Bool) (body : State → Res State) (s : State) : Res (Bool × State) :=
  atomic c (fun s => andThen (body s) fun s => .next (bit, s)) s

/-! ## The wake set (43_wakeset.md) -/

/-- `WakeSet.set(pin)` (R170). -/
def wakeSet (pin : Nat) (s : State) : State := { s with wake := s.wake ||| (1#64 <<< pin) }

/-- `WakeSet.clear(pin)` (R171). -/
def wakeClear (pin : Nat) (s : State) : State := { s with wake := s.wake &&& ~~~(1#64 <<< pin) }

/-! ## The dispatcher as trap mechanism (60_exceptions.md R227, R229) -/

/-- Entry: nothing is saved and no mode, mask or stack changes; `SCAN` and `HANDLED` start at 0. -/
def dispatchEnter (s : State) : State := { s with scan := 0, handled := false }

/-- Return: nothing is restored; the response says whether a pin was found pending. -/
def dispatchReturn (c : Ctx) (s : State) : State := respond c .ok s.handled s

/-- `emit NOTIFY(VIRQ_BASE + pin)` and `HANDLED <- 1` (R157, R159). -/
def notifyPin (pin : Nat) (s : State) : State :=
  record (.notify (virqOf s.cfg pin)) { s with handled := true }

/-! ## The pieces of a command -/

/-- One piece of a command of context `c`, whose last tested bit is `bit`. -/
def doAction (c : Ctx) (a : Action) (bit : Bool) (s : State) : Res (Bool × State) :=
  match a with
  | .rmw ops => atomicDo c bit (bitRmws c ops) s
  | .test pin => atomic c (bitTest c pin .lvl) s
  | .ack pin => atomicDo c bit (ackWrite c pin) s
  | .wake pin on => atomicDo c bit (fun s => .next (if on then wakeSet pin s else wakeClear pin s)) s
  | .disableAll => atomicDo c bit (fun s => writeAll c (disableAllWrites s.cfg) s) s
  | .capture => atomicDo c bit (fun s => captureAll c (savedBytes s.cfg) s) s
  | .restore => atomicDo c bit (fun s => writeAll c (restoreWrites s) s) s
  | .probe pin => atomic c (bitTest c pin .sts) { s with scan := pin }
  | .serve pin => if bit then atomicDo c bit (ackWrite c pin) s else .next (bit, s)
  | .notify pin =>
    let s := if bit then notifyPin pin s else s
    .next (bit, { s with scan := pin + 1 })
  | .attachDone => .next (bit, respond c .ok false { s with attached := true })
  | .detachDone =>
    .next (bit, respond c .ok false { s with wake := 0#64, snapValid := false, attached := false })
  | .suspendDone =>
    .next (bit, respond c .ok false { s with snapValid := true, pm := .suspended })
  | .resumeDone =>
    .next (bit, respond c .ok false
      { s with snapValid := false, lineMasked := false, pm := .active })
  | .answer => .next (bit, respond c .ok false s)
  | .answerLevel => .next (bit, respond c .ok bit s)
  | .answerHandled => .next (bit, dispatchReturn c s)

/-! ## Beginning a command -/

/-- What the beginning of a command comes to: it is answered at once, or it goes on with pieces to do. -/
inductive Begun
  | answered (s : State)
  | started (todo : List Action) (s : State)

/-- `raise <Class>` (R13, R218): the command is answered and no state changes. The synchronous exception of
this hardware. -/
def raise (c : Ctx) (st : Status) (s : State) : Res Begun := .next (.answered (respond c st false s))

/-- A command that is attached goes on; otherwise `FAULT` (R213, R220 item 3). -/
def whenAttached (c : Ctx) (s : State) (go : Res Begun) : Res Begun :=
  if s.attached then go else raise c .fault s

/-- `entry_checks()` (R140, R150): `FAULT` when not attached, then the model-level fault when `PM` is not
`Active`. -/
def entryChecks (c : Ctx) (s : State) (go : Res Begun) : Res Begun :=
  whenAttached c s (if s.pm = .active then go else .fault .undefinedByContract)

/-- The pin range check (R211). -/
def pinCheck (c : Ctx) (pin : Nat) (s : State) (go : Res Begun) : Res Begun :=
  if pin < s.cfg.pinCount then go else raise c .invalidArgument s

/-- `entry_checks(pin)` (R140). -/
def entryChecksPin (c : Ctx) (pin : Nat) (s : State) (go : Res Begun) : Res Begun :=
  entryChecks c s (pinCheck c pin s go)

end Sys2Proof.Machine
end

