-- ==== Sys2Proof/Machine/GpioChip.lean ====
section
/-! DEFINITION. GpioChip (41_gpiochip.md): how `DIRIN`, `DIROUT`, `GET` and `SET` begin, and the pieces they
are carried out in. -/

namespace Sys2Proof.Machine

/-- `DIRIN pin` (R141): one atomic block, `BitRMW(pin, DIR, 1)`. -/
def planDirin (c : Ctx) (pin : Nat) (s : State) : Res Begun :=
  entryChecksPin c pin s (.next (.started [.rmw [⟨pin, .dir, true⟩], .answer] s))

/-- `DIROUT pin, level` (R142): two atomic blocks, the direction bit first and the level bit second. -/
def planDirout (c : Ctx) (pin : Nat) (v : Bool) (s : State) : Res Begun :=
  entryChecksPin c pin s
    (.next (.started [.rmw [⟨pin, .dir, false⟩], .rmw [⟨pin, .lvl, v⟩], .answer] s))

/-- `GET pin` (R143): one atomic block of one read. -/
def planGet (c : Ctx) (pin : Nat) (s : State) : Res Begun :=
  entryChecksPin c pin s (.next (.started [.test pin, .answerLevel] s))

/-- `SET pin, level` (R144): one atomic block, `BitRMW(pin, LVL, v)`; `DIR` is not looked at (R145). -/
def planSet (c : Ctx) (pin : Nat) (v : Bool) (s : State) : Res Begun :=
  entryChecksPin c pin s (.next (.started [.rmw [⟨pin, .lvl, v⟩], .answer] s))

end Sys2Proof.Machine
end

