-- ==== Sys2Proof/Machine/IrqController.lean ====
section
/-! DEFINITION. IrqController (42_irqcontroller.md): how `SETTYPE`, `IRQEN`, `IRQDIS`, `ACK`, `SETWAKE`,
`DISALL` and `DISPATCH` begin, and the pieces they are carried out in. -/

namespace Sys2Proof.Machine

/-- `SETTYPE pin, type` (R151): one atomic block of two `BitRMW`s, `RTE` before `FTE`. -/
def planSettype (c : Ctx) (pin t : Nat) (s : State) : Res Begun :=
  entryChecksPin c pin s
    (match trigBits t with
    | some (rising, falling) =>
      .next (.started [.rmw [⟨pin, .rte, rising⟩, ⟨pin, .fte, falling⟩], .answer] s)
    | none => raise c .invalidArgument s)

/-- `IRQEN pin` (R152). -/
def planIrqen (c : Ctx) (pin : Nat) (s : State) : Res Begun :=
  entryChecksPin c pin s (.next (.started [.rmw [⟨pin, .gpe, true⟩], .answer] s))

/-- `IRQDIS pin` (R153). -/
def planIrqdis (c : Ctx) (pin : Nat) (s : State) : Res Begun :=
  entryChecksPin c pin s (.next (.started [.rmw [⟨pin, .gpe, false⟩], .answer] s))

/-- `ACK pin` (R154): one write of the one-hot byte, no read. -/
def planAck (c : Ctx) (pin : Nat) (s : State) : Res Begun :=
  entryChecksPin c pin s (.next (.started [.ack pin, .answer] s))

/-- `SETWAKE pin, on` (R155): a core-well pin is rejected with `FAULT`, for both values of `on` (R172). -/
def planSetwake (c : Ctx) (pin : Nat) (on : Bool) (s : State) : Res Begun :=
  entryChecksPin c pin s
    (if pin < s.cfg.resumeBoundary then raise c .fault s
    else .next (.started [.wake pin on, .answer] s))

/-- `DISALL` (R156): one atomic block. -/
def planDisall (c : Ctx) (s : State) : Res Begun :=
  entryChecks c s (.next (.started [.disableAll, .answer] s))

/-- The scan of `DISPATCH` (R157, R226): every pin in ascending order is tested and, if pending, acknowledged
and then notified. -/
def scanPieces (cfg : Config) : List Action :=
  (List.range cfg.pinCount).flatMap fun p => [.probe p, .serve p, .notify p]

/-- `DISPATCH` (R157). It has no step while the line is masked, delivery is off, there is no line or another
`DISPATCH` is in flight (R223, U15); `FAULT` when not attached and the model-level fault outside `Active` come
first (log entry 9). -/
def planDispatch (c : Ctx) (s : State) : Res Begun :=
  entryChecks c s
    (if dispatchMayStart s then
      .next (.started (scanPieces s.cfg ++ [.answerHandled]) (dispatchEnter s))
    else .fault .dispatchHasNoStep)

end Sys2Proof.Machine
end

