-- ==== Sys2Proof/Machine/Lifecycle.lean ====
section
/-! DEFINITION. Attach and teardown (45_lifecycle.md): how `ATTACH` and `DETACH` begin, and the pieces they
are carried out in. -/

namespace Sys2Proof.Machine

/-- The control state `ATTACH` sets up before `disable_all` (R200); `FATAL` is not cleared. -/
def attachInit (s : State) : State :=
  { s with
    wake := 0#64, snapValid := false, pm := .active, lineMasked := false, delivOff := false,
    lock := .free, coreDark := false }

/-- `ATTACH` (R200): every check before every effect, in the order of R220 item 2. -/
def planAttach (c : Ctx) (hs : Handshake) (s : State) : Res Begun :=
  if s.attached then raise c .resourceBusy s
  else if !hs.variantOk then raise c .notSupported s
  else if !hs.ioOk then raise c .resourceBusy s
  else if !hs.virqOk then raise c .resourceBusy s
  else .next (.started [.disableAll, .attachDone] (attachInit s))

/-- `DETACH` (R201): `disable_all` first, then the block's own state is retired; `EN`, `DIR`, `LVL` stay. -/
def planDetach (c : Ctx) (s : State) : Res Begun :=
  entryChecks c s (.next (.started [.disableAll, .detachDone] s))

end Sys2Proof.Machine
end

