-- ==== Sys2Proof/Machine/PmContext.lean ====
section
/-! DEFINITION. PmContext (44_pmcontext.md): how `PMSUSPEND`, `PMSUSPENDNOIRQ`, `PMRESUMENOIRQ` and `PMRESUME`
begin, and the pieces they are carried out in. -/

namespace Sys2Proof.Machine

/-- `PM` is a resting state (R180, R194); in the others a power-management command overlaps another. -/
def pmResting (s : State) : Bool := decide (s.pm = .active) || decide (s.pm = .suspended)

/-- The check of R194 and R219 (b) that no power-management command is under way. -/
def whenResting (s : State) (go : Res Begun) : Res Begun :=
  if pmResting s then go else .fault .undefinedByContract

/-- The check of R219 (b) that no command of any context is in flight. -/
def whenExclusive (s : State) (go : Res Begun) : Res Begun :=
  if someInFlight s then .fault .undefinedByContract else go

/-- The check of R223 that no `DISPATCH` is in flight when a mask flag is set: such an overlap is excluded
(log entry 14). -/
def whenNoDispatch (s : State) (go : Res Begun) : Res Begun :=
  if dispatchInFlight s then .fault .undefinedByContract else go

/-- `PMSUSPEND` (R181): `DELIV_OFF <- true` and nothing else. -/
def planPmsuspend (c : Ctx) (s : State) : Res Begun :=
  whenAttached c s (whenResting s (whenNoDispatch s
    (.next (.answered (respond c .ok false { s with delivOff := true })))))

/-- `PMSUSPENDNOIRQ` (R182): the line is masked, then the five core-well kinds are captured. With a line and
`mask_ok = false` it is `DEVICE_BUSY` and all state is as it was (R188). -/
def planPmsuspendnoirq (c : Ctx) (hs : Handshake) (s : State) : Res Begun :=
  whenAttached c s (whenExclusive s (whenResting s
    (if s.cfg.hasLine && !hs.maskOk then raise c .deviceBusy s
    else .next (.started [.capture, .suspendDone] { s with pm := .suspending, lineMasked := true }))))

/-- `PMRESUMENOIRQ` (R183): the snapshot is written back, then the line is unmasked. With no snapshot it is
`LOGIC_ERROR` and `FATAL` is set (R189, R216). -/
def planPmresumenoirq (c : Ctx) (s : State) : Res Begun :=
  whenAttached c s (whenExclusive s
    (if s.snapValid then
      (if s.pm = .suspended then
        .next (.started [.restore, .resumeDone] { s with pm := .resuming, coreDark := false })
      else .fault .undefinedByContract)
    else .next (.answered (respond c .logicError false { s with fatal := true }))))

/-- `PMRESUME` (R184): `DELIV_OFF <- false` and nothing else. -/
def planPmresume (c : Ctx) (s : State) : Res Begun :=
  whenAttached c s (whenResting s
    (.next (.answered (respond c .ok false { s with delivOff := false }))))

end Sys2Proof.Machine
end

