-- ==== Sys2Proof/Machine/World.lean ====
section
/-! DEFINITION. The contexts around the command being carried out (60_exceptions.md R232, 20_memory.md R73):
other contexts issue commands and carry them on between atomic blocks, the environment acts at any time, and
the command itself runs piece by piece to its response. -/

namespace Sys2Proof.Machine

/-- How a command begins, whichever context issues it (R233: the block does not check who). -/
def beginInstr (i : Instr) (c : Ctx) (hs : Handshake) (s : State) : Res Begun :=
  match i with
  | .dirin pin => planDirin c pin s
  | .dirout pin v => planDirout c pin v s
  | .get pin => planGet c pin s
  | .set pin v => planSet c pin v s
  | .settype pin t => planSettype c pin t s
  | .irqen pin => planIrqen c pin s
  | .irqdis pin => planIrqdis c pin s
  | .ack pin => planAck c pin s
  | .setwake pin v => planSetwake c pin v s
  | .disall => planDisall c s
  | .dispatch => planDispatch c s
  | .attach => planAttach c hs s
  | .detach => planDetach c s
  | .pmsuspend => planPmsuspend c s
  | .pmsuspendnoirq => planPmsuspendnoirq c hs s
  | .pmresumenoirq => planPmresumenoirq c s
  | .pmresume => planPmresume c s

/-- An illegal word is answered `(ILLEGAL_COMMAND, 0)` in every state, with no effect (R100, R217). -/
def answerIllegal (c : Ctx) (s : State) : State := respond c .illegalCommand false s

/-- A context has a command in flight: its next one waits for the response (R73 b). -/
def ctxBusy (s : State) (c : Ctx) : Bool := (allFlights s).any fun f => f.ctx == c

/-- A command of another context put in flight. -/
def launch (c : Ctx) : Begun → State
  | .answered s => s
  | .started todo s => { s with inflight := s.inflight ++ [⟨c, todo, false⟩] }

/-- Another context issues a decoded command. On an attached Controller a `DISPATCH` does not start while the
line is masked, delivery is off or there is no line, nor nested in itself (R223, R229); on one that is not
attached it is answered `FAULT` like the rest (R204). -/
def startInstr (r : Request) (i : Instr) (s : State) : Res State :=
  if i = .dispatch ∧ s.attached = true ∧ dispatchMayStart s = false then .next s
  else
    let s := record (.command r.ctx r.word) s
    andThen (beginInstr i r.ctx r.hs s) fun b => .next (launch r.ctx b)

/-- Another context issues a command; a context the configuration lacks or one that waits for a response
does not (R73 b). A `NOTIFY` receiver's command is issued by the context `receiver`, since the
dispatch context waits for its `DISPATCH` (R233; log entry 29). -/
def startCommand (r : Request) (s : State) : Res State :=
  if ctxExists s.cfg r.ctx = true ∧ ctxBusy s r.ctx = false then
    match decode r.word with
    | .ok i => startInstr r i s
    | .error _ => .next (answerIllegal r.ctx (record (.command r.ctx r.word) s))
  else .next s

/-- The flight of context `c` replaced by what is left of it; a finished one leaves the list. -/
def putFlight (f : Flight) (fs : List Flight) : List Flight :=
  match fs with
  | [] => []
  | g :: gs =>
    if g.ctx = f.ctx then (if f.todo.isEmpty then gs else f :: gs) else g :: putFlight f gs

/-- Another context carries its command one piece further. -/
def advanceFlight (c : Ctx) (s : State) : Res State :=
  match s.inflight.find? fun f => f.ctx == c with
  | none => .next s
  | some f =>
    match f.todo with
    | [] => .next { s with inflight := putFlight f s.inflight }
    | a :: todo =>
      andThen (doAction c a f.bit s) fun r =>
        .next { r.2 with inflight := putFlight ⟨c, todo, r.1⟩ r.2.inflight }

/-- One move of the world. -/
def applyMove (m : Move) (s : State) : Res State :=
  match m with
  | .env e => .next (envStep e s)
  | .start r => startCommand r s
  | .advance c => advanceFlight c s

/-- The moves of one window in order. -/
def applyMoves : List Move → State → Res State
  | [], s => .next s
  | m :: ms, s => andThen (applyMove m s) (applyMoves ms)

/-- A window outside any atomic block: the next list of the world's moves. -/
def window (s : State) : Res State :=
  match s.windows with
  | [] => .next s
  | ms :: rest => applyMoves ms { s with windows := rest }

/-- The pieces of the command of context `c` in order, a window of the world before each. -/
def runPieces (c : Ctx) : List Action → Bool → State → Res State
  | [], _, s => .next { s with running := none }
  | a :: todo, bit, s =>
    andThen (window { s with running := some ⟨c, a :: todo, bit⟩ }) fun s =>
      andThen (doAction c a bit s) fun r => runPieces c todo r.1 r.2

/-- A command carried out from its beginning to its response. -/
def carryOut (c : Ctx) (b : Res Begun) : Res State :=
  andThen b fun b =>
    match b with
    | .answered s => .next s
    | .started todo s => runPieces c todo false s

/-- The command at the head of the port taken for carrying out: its context and its handshake inputs are
those of the step. -/
def loadRequest (r : Request) (rest : List Request) (s : State) : State :=
  record (.command r.ctx r.word) { s with port := rest, ctx := r.ctx, hs := r.hs }

end Sys2Proof.Machine
end

