-- ==== Sys2Proof/Machine/Commands.lean ====
section
/-! DEFINITION. The meaning of each command: its beginning (in the file of its component), carried out to the
response for the context that issued it. -/

namespace Sys2Proof.Machine

/-- `DIRIN pin` (R141). -/
def execDirin (pin : Nat) (s : State) : Res State := carryOut s.ctx (planDirin s.ctx pin s)

/-- `DIROUT pin, level` (R142). -/
def execDirout (pin : Nat) (v : Bool) (s : State) : Res State := carryOut s.ctx (planDirout s.ctx pin v s)

/-- `GET pin` (R143). -/
def execGet (pin : Nat) (s : State) : Res State := carryOut s.ctx (planGet s.ctx pin s)

/-- `SET pin, level` (R144). -/
def execSet (pin : Nat) (v : Bool) (s : State) : Res State := carryOut s.ctx (planSet s.ctx pin v s)

/-- `SETTYPE pin, type` (R151). -/
def execSettype (pin t : Nat) (s : State) : Res State := carryOut s.ctx (planSettype s.ctx pin t s)

/-- `IRQEN pin` (R152). -/
def execIrqen (pin : Nat) (s : State) : Res State := carryOut s.ctx (planIrqen s.ctx pin s)

/-- `IRQDIS pin` (R153). -/
def execIrqdis (pin : Nat) (s : State) : Res State := carryOut s.ctx (planIrqdis s.ctx pin s)

/-- `ACK pin` (R154). -/
def execAck (pin : Nat) (s : State) : Res State := carryOut s.ctx (planAck s.ctx pin s)

/-- `SETWAKE pin, on` (R155). -/
def execSetwake (pin : Nat) (v : Bool) (s : State) : Res State :=
  carryOut s.ctx (planSetwake s.ctx pin v s)

/-- `DISALL` (R156). -/
def execDisall (s : State) : Res State := carryOut s.ctx (planDisall s.ctx s)

/-- `DISPATCH` (R157). -/
def execDispatch (s : State) : Res State := carryOut s.ctx (planDispatch s.ctx s)

/-- `ATTACH` (R200). -/
def execAttach (s : State) : Res State := carryOut s.ctx (planAttach s.ctx s.hs s)

/-- `DETACH` (R201). -/
def execDetach (s : State) : Res State := carryOut s.ctx (planDetach s.ctx s)

/-- `PMSUSPEND` (R181). -/
def execPmsuspend (s : State) : Res State := carryOut s.ctx (planPmsuspend s.ctx s)

/-- `PMSUSPENDNOIRQ` (R182). -/
def execPmsuspendnoirq (s : State) : Res State := carryOut s.ctx (planPmsuspendnoirq s.ctx s.hs s)

/-- `PMRESUMENOIRQ` (R183). -/
def execPmresumenoirq (s : State) : Res State := carryOut s.ctx (planPmresumenoirq s.ctx s)

/-- `PMRESUME` (R184). -/
def execPmresume (s : State) : Res State := carryOut s.ctx (planPmresume s.ctx s)

end Sys2Proof.Machine
end

