-- ==== Sys2Proof/Machine/Dispatch.lean ====
section
/-! DEFINITION. The dispatch: one arm per command of the opcode table, each one call of its meaning. -/

namespace Sys2Proof.Machine

def exec (i : Instr) (s : State) : Host.Outcome State Fault Refusal :=
  match i with
  -- GpioChip
  | .dirin pin => Sys2Proof.Machine.execDirin pin s
  | .dirout pin v => Sys2Proof.Machine.execDirout pin v s
  | .get pin => Sys2Proof.Machine.execGet pin s
  | .set pin v => Sys2Proof.Machine.execSet pin v s
  -- IrqController
  | .settype pin t => Sys2Proof.Machine.execSettype pin t s
  | .irqen pin => Sys2Proof.Machine.execIrqen pin s
  | .irqdis pin => Sys2Proof.Machine.execIrqdis pin s
  | .ack pin => Sys2Proof.Machine.execAck pin s
  | .setwake pin v => Sys2Proof.Machine.execSetwake pin v s
  | .disall => Sys2Proof.Machine.execDisall s
  | .dispatch => Sys2Proof.Machine.execDispatch s
  -- lifecycle
  | .attach => Sys2Proof.Machine.execAttach s
  | .detach => Sys2Proof.Machine.execDetach s
  -- PmContext
  | .pmsuspend => Sys2Proof.Machine.execPmsuspend s
  | .pmsuspendnoirq => Sys2Proof.Machine.execPmsuspendnoirq s
  | .pmresumenoirq => Sys2Proof.Machine.execPmresumenoirq s
  | .pmresume => Sys2Proof.Machine.execPmresume s

end Sys2Proof.Machine
end

