-- ==== Sys2Proof/Machine/Step.lean ====
section
/-! DEFINITION. One step of the machine: the command at the head of the command port is carried out, then
the world has one window; with no command that can begin the world has its window alone. -/

namespace Sys2Proof.Machine

/-- The command of a request carried out (R90, R100). -/
def runRequest (r : Request) (s : State) : Host.Outcome State Fault Refusal :=
  match decode r.word with
  | .ok i => exec i s
  | .error _ => .next (answerIllegal r.ctx s)

/-- One step. A configuration that is not well formed has no behaviour (R8). A command whose context still has an
earlier one in flight waits at the port until that one is answered (R73 b). -/
def step (s : State) : Host.Outcome State Fault Refusal :=
  if ConfigWF s.cfg then
    match s.port with
    | [] => window s
    | r :: rest =>
      if ctxBusy s r.ctx then window s else andThen (runRequest r (loadRequest r rest s)) window
  else .refused .illFormedConfig

/-- `s` with the instruction's word delivered at the command port by the first ordinary context, as the next
command, its handshake inputs all successful (log entry 5). -/
def State.withFetchWord (s : State) (nbits w : Nat) : State :=
  { s with
    port :=
      { ctx := .ordinary 0, word := BitVec.ofNat 16 (w % 2 ^ nbits),
        hs := { variantOk := true, ioOk := true, virqOk := true, maskOk := true } } :: s.port }

end Sys2Proof.Machine
end

