-- ==== Sys2Proof/Safety.lean ====
section
/-! DEFINITION. The terms claims are stated in: states a run can be in, what a command leaves alone, the
order of the checks (60_exceptions.md R220), and the host's duties (R241) as predicates. -/

namespace Sys2Proof.Machine

/-! ## States -/

/-- No other agent acts while the command runs, and the state is one a command can run in: the configuration
is well formed, the page is in canonical form and `LOCK` is free. -/
def Ready (s : State) : Prop :=
  ConfigWF s.cfg ∧ MemWF s.mem ∧ s.lock = .free ∧ s.windows = []

/-- The window in which ordinary commands run: attached and `Active` (R241 item 3). -/
def Live (s : State) : Prop := s.attached = true ∧ s.pm = .active

/-- A move of the environment other than an external register write. -/
def harmlessMove : Move → Bool
  | .env (.regWrite _ _) => false
  | .env _ => true
  | .start _ => false
  | .advance _ => false

/-- An environment move. -/
def envMove : Move → Bool
  | .env _ => true
  | .start _ => false
  | .advance _ => false

/-- The pins whose `STS` bit is 1, ascending. -/
def pendingPins (s : State) : List Nat := (List.range s.cfg.pinCount).filter fun p => pinBit s .sts p

/-- The virtual interrupt identity an event notifies, if it is a notification (R46). -/
def notified : Event → Option Nat
  | .notify v => some v
  | _ => none

/-! ## What a command leaves alone -/

/-- The response in `t` is `(st, d)` to the context whose command `s` carries out. -/
def Answered (s t : State) (st : Status) (d : Bool) : Prop := t.resp = some (s.ctx, respByte st d)

/-- Nothing but the register page, the response and the history changed, and no command is running. -/
def OnlyPage (s t : State) : Prop :=
  t = { s with mem := t.mem, log := t.log, resp := t.resp, running := none }

/-- Every byte of the register space but the one of register `r` reads as before. -/
def KeepsOtherBytes (s t : State) (r : Reg) : Prop :=
  ∀ a, a ≠ regAddr s.cfg r → readByte t.mem a = readByte s.mem a

/-- Every bit of register `r` but bit `j` is as before. -/
def KeepsOtherBits (s t : State) (r : Reg) (j : Nat) : Prop :=
  ∀ i, i ≠ j → (stored t r).getLsbD i = (stored s r).getLsbD i

/-! ## The sweeps, spelled out kind by kind

These name the offsets in the order of R156 and of R185, without the lists the block runs. -/

/-- The offsets of a kind with base `b`: the core bytes, then the resume bytes, each ascending (R131). -/
def offsetsOf (c : Config) (b : Nat) : List Nat :=
  (List.range ((c.resumeBoundary + 7) / 8)).map (b + ·) ++
    (List.range ((c.pinCount - c.resumeBoundary + 7) / 8)).map (b + c.stride + ·)

/-- The writes of `disable_all` (R156): `RTE`, `FTE`, `GPE`, `SMI`, `NMI` with 0x00, then `STS` with 0xFF. -/
def sweepWrites (c : Config) : List (Nat × Byte) :=
  (offsetsOf c c.base.rte ++ offsetsOf c c.base.fte ++ offsetsOf c c.base.gpe ++ offsetsOf c c.base.smi ++
      offsetsOf c c.base.nmi).map (fun off => (off, 0x00#8)) ++
    (offsetsOf c c.base.sts).map fun off => (off, 0xFF#8)

/-- The core-well bytes of a kind with base `b`, each with the value `v` gives its index. -/
def coreBytes (c : Config) (b : Nat) (v : Nat → Byte) : List (Nat × Byte) :=
  (List.range ((c.resumeBoundary + 7) / 8)).map fun i => (b + i, v i)

/-- The core-well bytes of `EN`, `DIR`, `LVL`, `SMI`, `NMI` in the order of R185, each with a value. -/
def snapshotOrder (c : Config) (v : Saved → Nat → Byte) : List (Nat × Byte) :=
  coreBytes c c.base.en (v .en) ++ coreBytes c c.base.dir (v .dir) ++ coreBytes c c.base.lvl (v .lvl) ++
    coreBytes c c.base.smi (v .smi) ++ coreBytes c c.base.nmi (v .nmi)

/-- The events of a `DISPATCH` that finds the state `s` and nobody else acting, before its response (R157, R160 a, b,
c, f; R77 e), pin by pin: one read of the status byte, where the bits below the pin's are acknowledged already; for a
pending pin one write of its one-hot byte and only then its notification. -/
def scanTrace (s : State) : List Event :=
  (List.range s.cfg.pinCount).flatMap fun p =>
    .read s.ctx (regOff s.cfg (regOf s.cfg .sts p))
        ((stored s (regOf s.cfg .sts p) >>> bitOf s.cfg p) <<< bitOf s.cfg p) ::
      if pinBit s .sts p then
        [.write s.ctx (regOff s.cfg (regOf s.cfg .sts p)) (oneHot (bitOf s.cfg p)), .notify (s.cfg.virqBase + p)]
      else []

/-! ## Atomic blocks (R74) -/

/-- A piece that is an atomic block; the acknowledge of the dispatcher is one when its pin was found pending. -/
def isBlock : Action → Bool → Bool
  | .rmw _, _ => true
  | .test _, _ => true
  | .ack _, _ => true
  | .wake _ _, _ => true
  | .disableAll, _ => true
  | .capture, _ => true
  | .restore, _ => true
  | .probe _, _ => true
  | .serve _, bit => bit
  | .notify _, _ => false
  | .attachDone, _ => false
  | .detachDone, _ => false
  | .suspendDone, _ => false
  | .resumeDone, _ => false
  | .answer, _ => false
  | .answerLevel, _ => false
  | .answerHandled, _ => false

/-- An event of context `c`, or of the environment, or a notification: no other context's. -/
def eventOf (c : Ctx) : Event → Bool
  | .command d _ => d == c
  | .response d _ => d == c
  | .notify _ => true
  | .read d _ _ => d == c
  | .write d _ _ => d == c
  | .env _ => true

/-- The state with the other contexts' moves taken out of every window to come. -/
def envOnly (s : State) : State := { s with windows := s.windows.map fun ms => ms.filter envMove }

/-! ## The invariant -/

/-- A piece of a command names only pins that exist, no read-modify-write targets `STS` (R263), and only
resume-well pins reach the wake set (R172). -/
def ActionOk (c : Config) : Action → Prop
  | .rmw ops => ∀ op ∈ ops, op.pin < c.pinCount ∧ op.kind ≠ .sts
  | .test p => p < c.pinCount
  | .ack p => p < c.pinCount
  | .probe p => p < c.pinCount
  | .serve p => p < c.pinCount
  | .notify p => p < c.pinCount
  | .wake p _ => c.resumeBoundary ≤ p ∧ p < c.pinCount
  | .disableAll => True
  | .capture => True
  | .restore => True
  | .attachDone => True
  | .detachDone => True
  | .suspendDone => True
  | .resumeDone => True
  | .answer => True
  | .answerLevel => True
  | .answerHandled => True

/-- A piece that belongs to `PMSUSPENDNOIRQ` or `PMRESUMENOIRQ`. -/
def pmPiece : Action → Bool
  | .capture => true
  | .restore => true
  | .suspendDone => true
  | .resumeDone => true
  | _ => false

/-- `WAKE[p] = 1` implies `RESUME_BOUNDARY ≤ p < PIN_COUNT` (R50 a). -/
def WakeOk (s : State) : Prop :=
  ∀ p, s.wake.getLsbD p = true → s.cfg.resumeBoundary ≤ p ∧ p < s.cfg.pinCount

/-- The suspend/resume machine agrees with the snapshot, the mask, `ATTACHED` and the commands in flight
(R50 b, c, d; R37; R219). -/
def PmAgrees (s : State) : Prop :=
  match s.pm with
  | .active =>
    s.snapValid = false ∧ s.lineMasked = false ∧
      ∀ f ∈ allFlights s, ∀ a ∈ f.todo, pmPiece a = false
  | .suspended =>
    s.attached = true ∧ s.snapValid = true ∧ s.lineMasked = true ∧ allFlights s = []
  | .suspending =>
    s.attached = true ∧ s.lineMasked = true ∧
      ∃ c b, allFlights s = [⟨c, [.capture, .suspendDone], b⟩] ∨ allFlights s = [⟨c, [.suspendDone], b⟩]
  | .resuming =>
    s.attached = true ∧ s.snapValid = true ∧ s.lineMasked = true ∧
      ∃ c b, allFlights s = [⟨c, [.restore, .resumeDone], b⟩] ∨ allFlights s = [⟨c, [.resumeDone], b⟩]

/-- A `DISPATCH` is in flight only while the line is open (R38, R39, R157, R223). -/
def DispatchOk (s : State) : Prop := dispatchInFlight s = true → lineOpen s = true

/-- What holds between steps, whatever the other contexts and the environment do. -/
def StateInv (s : State) : Prop :=
  ConfigWF s.cfg ∧ MemWF s.mem ∧ s.lock = .free ∧ s.running = none ∧ WakeOk s ∧
    (∀ f ∈ s.inflight, ∀ a ∈ f.todo, ActionOk s.cfg a) ∧ PmAgrees s ∧ DispatchOk s

/-- `ATTACHED = false` leaves nothing behind (R50 f), when one context at a time issues commands. -/
def DetachedBlank (s : State) : Prop :=
  s.inflight = [] ∧ (∀ ms ∈ s.windows, ∀ m ∈ ms, envMove m = true) ∧
    (s.attached = false → s.pm = .active ∧ s.snapValid = false ∧ s.wake = 0#64)

/-! ## The order of the checks (R220) -/

/-- The pin operand of a command. -/
def pinOperand : Instr → Option Nat
  | .dirin p => some p
  | .dirout p _ => some p
  | .get p => some p
  | .set p _ => some p
  | .settype p _ => some p
  | .irqen p => some p
  | .irqdis p => some p
  | .ack p => some p
  | .setwake p _ => some p
  | .disall => none
  | .dispatch => none
  | .attach => none
  | .detach => none
  | .pmsuspend => none
  | .pmsuspendnoirq => none
  | .pmresumenoirq => none
  | .pmresume => none

/-- The eleven GpioChip and IrqController commands and `DETACH` (R219 a). -/
def activeOnly : Instr → Bool
  | .attach => false
  | .pmsuspend => false
  | .pmsuspendnoirq => false
  | .pmresumenoirq => false
  | .pmresume => false
  | _ => true

/-- A use the document calls undefined by contract (R219 a, b, c), or excludes (R223). -/
def contractBroken (i : Instr) (s : State) : Bool :=
  match i with
  | .attach => false
  | .pmsuspend => !pmResting s || dispatchInFlight s
  | .pmresume => !pmResting s
  | .pmsuspendnoirq => someInFlight s || !pmResting s
  | .pmresumenoirq => someInFlight s || (s.snapValid && decide (s.pm ≠ .suspended))
  | _ => decide (s.pm ≠ .active)

/-- How a command ends: with a status class, with the model-level fault, or not at all. -/
inductive Verdict
  | status (st : Status)
  | contract
  | noStep
  deriving DecidableEq, Repr

/-- Items (2) of R220: the checks of `ATTACH`. -/
def attachVerdict (s : State) : Verdict :=
  if s.attached then .status .resourceBusy
  else if s.hs.variantOk = false then .status .notSupported
  else if s.hs.ioOk = false then .status .resourceBusy
  else if s.hs.virqOk = false then .status .resourceBusy
  else .status .ok

/-- Items (6) and (7) of R220 and the gate of R223. -/
def lateVerdict (i : Instr) (s : State) : Verdict :=
  match i with
  | .settype _ t => if 4 ≤ t then .status .invalidArgument else .status .ok
  | .setwake p _ => if p < s.cfg.resumeBoundary then .status .fault else .status .ok
  | .pmsuspendnoirq =>
    if s.cfg.hasLine = true ∧ s.hs.maskOk = false then .status .deviceBusy else .status .ok
  | .pmresumenoirq => if s.snapValid then .status .ok else .status .logicError
  | .dispatch => if dispatchMayStart s then .status .ok else .noStep
  | _ => .status .ok

/-- The first condition of R220's list that holds for a decoded command. -/
def verdict (i : Instr) (s : State) : Verdict :=
  if i = .attach then attachVerdict s
  else if s.attached = false then .status .fault
  else if contractBroken i s then .contract
  else if ∃ p ∈ pinOperand i, s.cfg.pinCount ≤ p then .status .invalidArgument
  else lateVerdict i s

/-- The `data` bit of an `OK` response (R97): the level for `GET`, the verdict for `DISPATCH`, else 0. -/
def okData (i : Instr) (s : State) : Bool :=
  match i with
  | .get p => level s p
  | .dispatch => !(pendingPins s).isEmpty
  | _ => false

/-- Runs without a fault or a refusal. -/
def runsOn (o : Res State) : Prop := ∃ t, o = .next t

/-! ## The host's duties (R241), as premises a claim may take -/

/-- Where the host stands in its four power-management calls (R192). -/
inductive PmPhase
  | running
  | quiesced
  | captured
  | restored
  deriving DecidableEq, Repr

/-- The host's next phase after a command; none when the call is out of order. A second
`PMSUSPENDNOIRQ` before a restore is permitted (R187). DESIGN CHOICE (log entry 30): the responses do not enter, so
the phase after a `PMSUSPENDNOIRQ` answered `DEVICE_BUSY`, of which R192 says nothing, is `captured` too; and no other
command moves the phase, `ATTACH` and `DETACH` among them, of which R192 says nothing either. -/
def pmPhaseAfter (ph : PmPhase) (i : Instr) : Option PmPhase :=
  match i, ph with
  | .pmsuspend, .running => some .quiesced
  | .pmsuspendnoirq, .quiesced => some .captured
  | .pmsuspendnoirq, .captured => some .captured
  | .pmresumenoirq, .captured => some .restored
  | .pmresume, .restored => some .running
  | .pmsuspend, _ => none
  | .pmsuspendnoirq, _ => none
  | .pmresumenoirq, _ => none
  | .pmresume, _ => none
  | _, ph => some ph

/-- Which contexts the host lets issue a command (R233, with C7 for `ACK`). The block does not check it. -/
def assignedTo (i : Instr) : Ctx → Bool
  | .ordinary _ => (pinOperand i).isSome
  | .dispatch => decide (i = .dispatch)
  | .receiver =>
    match i with
    | .ack _ | .irqen _ | .irqdis _ | .settype _ _ | .setwake _ _ => true
    | _ => false
  | .power =>
    match i with
    | .attach | .detach | .disall | .pmsuspend | .pmsuspendnoirq | .pmresumenoirq | .pmresume => true
    | _ => false

/-- A `DISPATCH` is owed: `LINE = 1` and layers 3 to 5 allow (R230). That one then eventually starts is the
host's fairness, a premise of liveness claims only. -/
def dispatchOwed (s : State) : Bool := lineOut s && lineOpen s

end Sys2Proof.Machine
end

