-- ==== Sys2Proof/Certificates/Slice0/Obligations.lean ====
section
/-! DEFINITION. The statements for the provers. Unless a statement says otherwise, `Ready s` is its premise
that no other agent acts while the command runs (`windows = []`); the statements about steps, errors and the
environment hold for every schedule of the other agents. -/

open Sys2Proof Sys2Proof.Machine

/-! ## Encoding -/

/-- Decoding the word of a well-formed command gives the command back, for every operand (R96, R99). -/
def Obligations.DecodeOfEncode : Prop :=
  ∀ i : Instr, i.WellFormed → decode (encode i) = .ok i

/-- A word that decodes is the word of a well-formed command: no two words stand for one command. -/
def Obligations.EncodeOfDecode : Prop :=
  ∀ (w : Word) (i : Instr), decode w = .ok i → i.WellFormed ∧ encode i = w

/-- R107: a word decodes exactly when some row of the table matches it, the command it decodes to is that
row's, and no two rows match one word. -/
def Obligations.LegalWordsMatchOneRow : Prop :=
  ∀ w : Word,
    ((∃ i, decode w = .ok i) ↔ ∃ r ∈ opcodeTable, inRow r w) ∧
    (∀ i, decode w = .ok i → inRow (tableRow i) w) ∧
    (∀ q ∈ opcodeTable, ∀ r ∈ opcodeTable, inRow q w → inRow r w → q = r)

/-- R100: which words are illegal, and that an illegal word is answered `(ILLEGAL_COMMAND, 0)` with no effect,
whatever `ATTACHED` and `PM` are. -/
def Obligations.IllegalWordsAreAnswered : Prop :=
  (∀ w : Word, (∃ e, decode w = .error e) ↔
    slice w 12 4 ∈ [0xB, 0xC, 0xD, 0xE] ∨ (slice w 12 4 = 0xF ∧ 6 ≤ slice w 8 4) ∨
    (slice w 12 4 ∈ [0, 2, 5, 6, 7] ∧ slice w 8 4 ≠ 0) ∨
    (slice w 12 4 ∈ [1, 3, 8] ∧ slice w 9 3 ≠ 0) ∨
    (slice w 12 4 ∈ [9, 0xA] ∧ slice w 0 12 ≠ 0) ∨
    (slice w 12 4 = 0xF ∧ slice w 0 8 ≠ 0)) ∧
  (∀ w : Word, (∃ e, decode w = .error e) ↔ ∀ r ∈ opcodeTable, ¬ inRow r w) ∧
  (∀ (r : Request) (s : State) (e : IllegalWord), decode r.word = .error e →
    runRequest r s = .next (respond r.ctx .illegalCommand false s))

/-- A few words of 95_test_vectors.md V-ENC decode as listed there. -/
def Obligations.ListedWordsDecode : Prop :=
  decode 0x000C#16 = .ok (.dirin 12) ∧ decode 0x1109#16 = .ok (.dirout 9 true) ∧
  decode 0x430C#16 = .ok (.settype 12 3) ∧ decode 0x7003#16 = .ok (.ack 3) ∧
  decode 0x810C#16 = .ok (.setwake 12 true) ∧ decode 0xF400#16 = .ok .pmresumenoirq ∧
  decode 0x1209#16 = .error .reservedField ∧ decode 0xB000#16 = .error (.reservedOpcode 11) ∧
  decode 0xF600#16 = .error (.reservedSubOpcode 6)

/-- R98: the status numbers, read back from the low four bits of the response byte (R97). -/
def Obligations.StatusNumbers : Prop :=
  (∀ (st : Status) (d : Bool), (respByte st d).toNat % 16 = statusCode st ∧
    (respByte st d).getLsbD 4 = d ∧ (respByte st d).toNat < 32 ∧ statusCode st < 8) ∧
  [Status.ok, .invalidArgument, .resourceBusy, .fault, .notSupported, .deviceBusy, .logicError,
    .illegalCommand].map statusCode = [0, 1, 2, 3, 4, 5, 6, 7]

/-! ## The step -/

/-- A step takes the word at the head of the port off it, with its context and handshake inputs, carries it out and
then lets the world move for one window: a word that decodes as its command, an illegal one as the answer
`(ILLEGAL_COMMAND, 0)` (R100, R217); with no command waiting, or while the waiting command's
context still has an earlier one in flight (R73 b), it is that window alone. That commands wait in a port (log entry
5), that the world moves in windows (log entry 6), that any context may stand at the port and waits there while it is
busy (log entry 18), and that one step is one whole command and one window after it (log entry 21) are the model's
choices; the spec fixes no step coarser than an access. -/
def Obligations.StepRunsTheDecodedCommand : Prop :=
  (∀ (s : State) (r : Request) (rest : List Request),
    ConfigWF s.cfg → s.port = r :: rest → ctxBusy s r.ctx = false →
    step s = andThen (runRequest r (loadRequest r rest s)) window ∧
    (∀ i, decode r.word = .ok i → step s = andThen (exec i (loadRequest r rest s)) window) ∧
    (∀ e, decode r.word = .error e →
      step s = window (respond r.ctx .illegalCommand false (loadRequest r rest s))) ∧
    loadRequest r rest s =
      { s with port := rest, ctx := r.ctx, hs := r.hs, log := s.log ++ [.command r.ctx r.word] }) ∧
  (∀ (s : State) (r : Request) (rest : List Request),
    ConfigWF s.cfg → s.port = r :: rest → ctxBusy s r.ctx = true → step s = window s) ∧
  (∀ s : State, ConfigWF s.cfg → s.port = [] → step s = window s)

/-- R8 (with R62 for (b)): a step has a meaning only on a well-formed configuration. -/
def Obligations.IllFormedConfigurationIsRefused : Prop :=
  ∀ s : State,
    (¬ (s.cfg.resumeBoundary ≤ s.cfg.pinCount ∧ s.cfg.pinCount ≤ 64) ∨
      ¬ (usedOffsets s.cfg).Nodup ∨ ¬ (s.cfg.ioBase + pageEnd s.cfg ≤ 2 ^ s.cfg.addrW)) →
    step s = .refused .illFormedConfig

/-- A configuration without an ordinary context, which R7 does not admit, is refused like one that violates R8. R8
does not list `N_CTX`: the refusal is the model's choice (log entry 24). -/
def Obligations.ConfigurationWithoutContextIsRefused : Prop :=
  ∀ s : State, s.cfg.nCtx = 0 → step s = .refused .illFormedConfig

/-- The control state after power-on that R51 and R250 give. The register bank, `PADIN`, `SNAP`, `SCAN` and
`HANDLED` are not mentioned: their reset values are the model's (log entries 2 to 4). -/
def Obligations.ResetControlState : Prop :=
  State.reset.attached = false ∧ State.reset.pm = .active ∧ State.reset.snapValid = false ∧
  State.reset.wake = 0#64 ∧ State.reset.lineMasked = false ∧ State.reset.delivOff = false ∧
  State.reset.fatal = false ∧ State.reset.lock = .free ∧ allFlights State.reset = []

/-- The invariant holds after power-on. -/
def Obligations.ResetMeetsInv : Prop := StateInv State.reset

/-- The invariant (R50 a to e, the part of f on `PM` and `SNAP_VALID`, and of R223 that a `DISPATCH` is in flight
only while the line is open) is kept by every step, whatever the other contexts and the environment do in it. -/
def Obligations.EveryStepKeepsInv : Prop :=
  ∀ s t : State, StateInv s → step s = .next t → StateInv t

/-- From a state that meets the invariant no step is refused, and a step faults only with the model-level
fault of R219 or with the fault the model gives a `DISPATCH` that has no step (R223, U15; log entry 10): the block
has no deadlocked state (R264) and computes no offset outside `USED` (R64). -/
def Obligations.StepsFromInvAreNeverRefused : Prop :=
  ∀ s : State, StateInv s →
    (∀ r, step s ≠ .refused r) ∧
    (∀ f, step s = .fault f → f = .undefinedByContract ∨ f = .dispatchHasNoStep)

/-- Along every step from every state: the configuration is constant (R7), `FATAL` is never cleared (R41), and
the model's own history, in which R46's events stand (log entry 25), only grows. -/
def Obligations.StepKeepsConfigFatalAndHistory : Prop :=
  ∀ s t : State, step s = .next t →
    t.cfg = s.cfg ∧ (s.fatal = true → t.fatal = true) ∧ ∃ l, t.log = s.log ++ l

/-- R50 (f), when one context at a time issues commands and the environment acts freely: a controller that is
not attached is `Active`, without a snapshot and with an empty wake bitmap, after every step. -/
def Obligations.DetachedControllerIsBlank : Prop :=
  ∀ s t : State, StateInv s → DetachedBlank s → step s = .next t → DetachedBlank t

/-! ## The mapping and the register page -/

/-- R126: the arithmetic laws of the mapping. -/
def Obligations.MappingLaws : Prop :=
  ∀ (c : Config), ConfigWF c → ∀ (p : Nat) (k : Kind), p < c.pinCount →
    p ≤ 63 ∧ pinInWell c p ≤ 63 ∧ pinInWell c p / 8 ≤ 7 ∧
    (∃ off, offset? c p k = some off ∧ off < pageEnd c ∧ c.ioBase + off < 2 ^ c.addrW ∧
      locate c off = some (regOf c k p)) ∧
    pinInWell c p = 8 * (pinInWell c p / 8) + bitOf c p ∧
    (∀ off, offset? c p k = some off → p + 8 < c.pinCount → wellOf c (p + 8) = wellOf c p →
      bitOf c p = bitOf c (p + 8) ∧ offset? c (p + 8) k = some (off + 1)) ∧
    (∀ q, q < c.pinCount → wellOf c q ≠ wellOf c p → offset? c q k ≠ offset? c p k)

/-- R125, with R120 to R124: the functions of RegisterBank have their values for a pin that exists and none for
any other. -/
def Obligations.RegisterBankDomain : Prop :=
  ∀ (c : Config) (p : Nat) (k : Kind),
    (p < c.resumeBoundary → p < c.pinCount →
      well? c p = some .core ∧ pinInWell? c p = some p ∧ wellStride? c p = some 0 ∧ bit? c p = some (p % 8) ∧
      offset? c p k = some (baseOf c k + 0 + p / 8)) ∧
    (c.resumeBoundary ≤ p → p < c.pinCount →
      well? c p = some .resume ∧ pinInWell? c p = some (p - c.resumeBoundary) ∧
      wellStride? c p = some c.stride ∧ bit? c p = some ((p - c.resumeBoundary) % 8) ∧
      offset? c p k = some (baseOf c k + c.stride + (p - c.resumeBoundary) / 8)) ∧
    (c.pinCount ≤ p →
      well? c p = none ∧ pinInWell? c p = none ∧ wellStride? c p = none ∧ bit? c p = none ∧ offset? c p k = none)

/-- Two pins and kinds share a bit of the register space only when they are the same (R62, R23). -/
def Obligations.EveryPinHasItsOwnBits : Prop :=
  ∀ (c : Config), ConfigWF c → ∀ (p q : Nat) (k l : Kind), p < c.pinCount → q < c.pinCount →
    offset? c p k = offset? c q l → bitOf c p = bitOf c q → p = q ∧ k = l

/-- The level path, pin by pin (R26, R69, R70): a read gives `PADIN[p]` for an input and `LATCH[p]` for an
output; a write reaches the latches of output pins only, and reserved bits are plain storage (R33). -/
def Obligations.LevelPathPinByPin : Prop :=
  ∀ (s : State) (w : Well) (i j : Nat) (v : Byte), ConfigWF s.cfg → MemWF s.mem →
    i < bytesIn s.cfg w → j < 8 →
    (8 * i + j < pinsIn s.cfg w →
      (readReg s ⟨.lvl, w, i⟩).getLsbD j = level s (firstPin s.cfg w + 8 * i + j) ∧
      latch (writeReg s ⟨.lvl, w, i⟩ v) (firstPin s.cfg w + 8 * i + j) =
        (if pinBit s .dir (firstPin s.cfg w + 8 * i + j) then latch s (firstPin s.cfg w + 8 * i + j)
          else v.getLsbD j)) ∧
    (pinsIn s.cfg w ≤ 8 * i + j →
      (readReg s ⟨.lvl, w, i⟩).getLsbD j = (stored s ⟨.lvl, w, i⟩).getLsbD j ∧
      (stored (writeReg s ⟨.lvl, w, i⟩ v) ⟨.lvl, w, i⟩).getLsbD j = v.getLsbD j)

/-- A write to a register of any kind changes no byte but its own and nothing but the page; on `STS` it clears the bits written 1 and
sets none, on the seven storage kinds it stores the byte (R70, R32). An external write to an offset in `USED` is the
same write, whatever `LOCK` is (R80, R64). The rest is the model's reading: a move that names another offset is not
enabled and nothing happens (log entry 26), and the write leaves its event in the model's history (log entry 25). -/
def Obligations.RegisterWritePerKind : Prop :=
  ∀ (s : State) (r : Reg) (v : Byte), MemWF s.mem →
    KeepsOtherBytes s (writeReg s r v) r ∧ MemWF (writeReg s r v).mem ∧
    writeReg s r v = { s with mem := (writeReg s r v).mem } ∧
    (r.kind = .sts → stored (writeReg s r v) r = stored s r &&& ~~~v) ∧
    (r.kind ≠ .sts → r.kind ≠ .lvl → stored (writeReg s r v) r = v) ∧
    (ConfigWF s.cfg → r ∈ regs s.cfg →
      envStep (.regWrite (regOff s.cfg r) v) s =
        record (.env (.regWrite (regOff s.cfg r) v)) (writeReg s r v)) ∧
    (∀ off, off ∉ usedOffsets s.cfg → envStep (.regWrite off v) s = s)

/-! ## GpioChip -/

/-- `DIRIN`, `IRQEN` and `IRQDIS` (R141, R152, R153) complete and write one bit of a storage kind: they read the
pin's byte, write it back with that bit replaced, and answer `(OK, 0)`; every other byte and everything else
is as before. -/
def Obligations.PlainBitCommands : Prop :=
  ∀ (s : State) (pin : Nat) (i : Instr) (k : Kind) (v : Bool), Ready s → Live s →
    pin < s.cfg.pinCount →
    (i, k, v) ∈ [(Instr.dirin pin, Kind.dir, true), (.irqen pin, .gpe, true), (.irqdis pin, .gpe, false)] →
    ∃ t, exec i s = .next t ∧ Answered s t .ok false ∧ OnlyPage s t ∧
      pinBit t k pin = v ∧ KeepsOtherBits s t (regOf s.cfg k pin) (bitOf s.cfg pin) ∧
      KeepsOtherBytes s t (regOf s.cfg k pin) ∧
      t.log = s.log ++
        [.read s.ctx (regOff s.cfg (regOf s.cfg k pin)) (stored s (regOf s.cfg k pin)),
          .write s.ctx (regOff s.cfg (regOf s.cfg k pin)) (stored t (regOf s.cfg k pin)),
          .response s.ctx (respByte .ok false)]

/-- `DIROUT` (R142) completes: the direction bit is written first and the level bit second (R77 a), the level byte
as it reads after the direction write with the pin's bit replaced; afterwards the pin is an output whose latch
holds the level, whatever it was before. -/
def Obligations.DiroutDrivesTheLevel : Prop :=
  ∀ (s : State) (pin : Nat) (v : Bool), Ready s → Live s → pin < s.cfg.pinCount →
    ∃ t, exec (.dirout pin v) s = .next t ∧ Answered s t .ok false ∧ OnlyPage s t ∧
      pinBit t .dir pin = false ∧ latch t pin = v ∧
      KeepsOtherBits s t (regOf s.cfg .dir pin) (bitOf s.cfg pin) ∧
      KeepsOtherBits s t (regOf s.cfg .lvl pin) (bitOf s.cfg pin) ∧
      (∀ a, a ≠ regAddr s.cfg (regOf s.cfg .dir pin) → a ≠ regAddr s.cfg (regOf s.cfg .lvl pin) →
        readByte t.mem a = readByte s.mem a) ∧
      stored t (regOf s.cfg .dir pin) = setBit (stored s (regOf s.cfg .dir pin)) (bitOf s.cfg pin) false ∧
      let b := readReg (writeReg s (regOf s.cfg .dir pin) (stored t (regOf s.cfg .dir pin))) (regOf s.cfg .lvl pin)
      t.log = s.log ++
        [.read s.ctx (regOff s.cfg (regOf s.cfg .dir pin)) (stored s (regOf s.cfg .dir pin)),
          .write s.ctx (regOff s.cfg (regOf s.cfg .dir pin)) (stored t (regOf s.cfg .dir pin)),
          .read s.ctx (regOff s.cfg (regOf s.cfg .lvl pin)) b,
          .write s.ctx (regOff s.cfg (regOf s.cfg .lvl pin)) (setBit b (bitOf s.cfg pin) v),
          .response s.ctx (respByte .ok false)]

/-- `GET` (R143) completes: one read of the level byte, the pin's level in the response, nothing written. -/
def Obligations.GetReportsTheLevel : Prop :=
  ∀ (s : State) (pin : Nat), Ready s → Live s → pin < s.cfg.pinCount →
    exec (.get pin) s = .next
      { s with
        running := none
        resp := some (s.ctx, respByte .ok (level s pin))
        log := s.log ++
          [.read s.ctx (regOff s.cfg (regOf s.cfg .lvl pin)) (readReg s (regOf s.cfg .lvl pin)),
            .response s.ctx (respByte .ok (level s pin))] }

/-- `SET` (R144, R145) completes: an output pin's latch takes the level, an input pin's latch keeps its value,
the answer is `(OK, 0)` either way and nothing else changes. Both accesses are made either way (R128, R261): the
level byte is read as it stands and written back with the pin's bit replaced. -/
def Obligations.SetWritesOutputLatchesOnly : Prop :=
  ∀ (s : State) (pin : Nat) (v : Bool), Ready s → Live s → pin < s.cfg.pinCount →
    ∃ t, exec (.set pin v) s = .next t ∧ Answered s t .ok false ∧ OnlyPage s t ∧
      latch t pin = (if pinBit s .dir pin then latch s pin else v) ∧
      KeepsOtherBits s t (regOf s.cfg .lvl pin) (bitOf s.cfg pin) ∧
      KeepsOtherBytes s t (regOf s.cfg .lvl pin) ∧
      t.log = s.log ++
        [.read s.ctx (regOff s.cfg (regOf s.cfg .lvl pin)) (readReg s (regOf s.cfg .lvl pin)),
          .write s.ctx (regOff s.cfg (regOf s.cfg .lvl pin))
            (setBit (readReg s (regOf s.cfg .lvl pin)) (bitOf s.cfg pin) v),
          .response s.ctx (respByte .ok false)]

/-- The round trip (R146) for `SET` and for `DIROUT`: `GET` of an output pin then answers the level written. -/
def Obligations.LevelRoundTrip : Prop :=
  ∀ (s : State) (pin : Nat) (v : Bool), Ready s → Live s → pin < s.cfg.pinCount →
    (pinBit s .dir pin = false → ∃ t u, exec (.set pin v) s = .next t ∧ exec (.get pin) t = .next u ∧
      Answered s u .ok v) ∧
    (∃ t u, exec (.dirout pin v) s = .next t ∧ exec (.get pin) t = .next u ∧ Answered s u .ok v)

/-- The no-op-as-input policy (R145): after `DIRIN p`, `SET p, v` is answered `OK` and does not change what
`GET p` answers, which is the pad. -/
def Obligations.InputLevelIsReadOnly : Prop :=
  ∀ (s : State) (pin : Nat) (v : Bool), Ready s → Live s → pin < s.cfg.pinCount →
    ∃ t u x, exec (.dirin pin) s = .next t ∧ exec (.set pin v) t = .next u ∧
      exec (.get pin) u = .next x ∧ Answered s u .ok false ∧
      Answered s x .ok (s.padin.getLsbD pin) ∧ latch x pin = latch s pin

/-- The `DIROUT` transient (R142, R260): a `GET` that another context issues and completes between the two
atomic blocks is answered the latch's prior value, and the command goes on to drive the new one. -/
def Obligations.DiroutTransientIsObservable : Prop :=
  ∀ (s : State) (pin : Nat) (v : Bool) (r : Request),
    ConfigWF s.cfg → MemWF s.mem → s.lock = .free → s.inflight = [] → Live s →
    pin < s.cfg.pinCount → decode r.word = .ok (.get pin) → ctxExists s.cfg r.ctx = true → r.ctx ≠ s.ctx →
    s.windows = [[], [], [], [.start r, .advance r.ctx, .advance r.ctx]] →
    ∃ t, exec (.dirout pin v) s = .next t ∧ latch t pin = v ∧ t.inflight = [] ∧
      .response r.ctx (respByte .ok (latch s pin)) ∈ t.log

/-- `PADOUT` (R45): an output pin drives its latch and an input pin nothing, where the pin's well has power; a pin
that does not exist has none. `DIROUT`, `DIRIN` and `SET` of an output pin move the pad of their pin alone, and `SET`
of an input pin moves none. -/
def Obligations.PadsShowDirectionAndLatch : Prop :=
  ∀ s : State,
    (∀ p, s.cfg.pinCount ≤ p → padOut s p = none) ∧
    (∀ p, p < s.cfg.pinCount → (s.cfg.resumeBoundary ≤ p ∨ s.pm ≠ .suspended ∨ s.coreDark = false) →
      padOut s p = some (if pinBit s .dir p then .released else .drives (latch s p))) ∧
    (∀ (pin : Nat) (v : Bool), Ready s → Live s → pin < s.cfg.pinCount →
      ∀ i pad, (i, pad) ∈ [(Instr.dirout pin v, some (Pad.drives v)), (.dirin pin, some .released),
          (.set pin v, if pinBit s .dir pin then padOut s pin else some (.drives v))] →
        ∃ t, exec i s = .next t ∧ padOut t pin = pad ∧
          ∀ q, q < s.cfg.pinCount → q ≠ pin → padOut t q = padOut s q)

/-! ## IrqController -/

/-- `SETTYPE` (R151) completes for the four types: both trigger bits are written, `RTE` before `FTE`, the type
is then the one named, and nothing else changes. -/
def Obligations.SettypeNamesTheType : Prop :=
  ∀ (s : State) (pin t : Nat), Ready s → Live s → pin < s.cfg.pinCount → t < 4 →
    ∃ u, exec (.settype pin t) s = .next u ∧ Answered s u .ok false ∧ OnlyPage s u ∧
      pinBit u .rte pin = t.testBit 0 ∧ pinBit u .fte pin = t.testBit 1 ∧
      some (trigType u pin) = [TrigType.none, .rising, .falling, .both][t]? ∧
      KeepsOtherBits s u (regOf s.cfg .rte pin) (bitOf s.cfg pin) ∧
      KeepsOtherBits s u (regOf s.cfg .fte pin) (bitOf s.cfg pin) ∧
      (∀ a, a ≠ regAddr s.cfg (regOf s.cfg .rte pin) → a ≠ regAddr s.cfg (regOf s.cfg .fte pin) →
        readByte u.mem a = readByte s.mem a) ∧
      u.log = s.log ++
        [.read s.ctx (regOff s.cfg (regOf s.cfg .rte pin)) (stored s (regOf s.cfg .rte pin)),
          .write s.ctx (regOff s.cfg (regOf s.cfg .rte pin)) (stored u (regOf s.cfg .rte pin)),
          .read s.ctx (regOff s.cfg (regOf s.cfg .fte pin)) (stored s (regOf s.cfg .fte pin)),
          .write s.ctx (regOff s.cfg (regOf s.cfg .fte pin)) (stored u (regOf s.cfg .fte pin)),
          .response s.ctx (respByte .ok false)]

/-- `ACK` (R154, R263) completes: one write and no read, the pin's pending bit is cleared and every other
pending bit of its byte is as before. -/
def Obligations.AckClearsOnePendingBit : Prop :=
  ∀ (s : State) (pin : Nat), Ready s → Live s → pin < s.cfg.pinCount →
    ∃ t, exec (.ack pin) s = .next t ∧ Answered s t .ok false ∧ OnlyPage s t ∧
      pinBit t .sts pin = false ∧ KeepsOtherBits s t (regOf s.cfg .sts pin) (bitOf s.cfg pin) ∧
      KeepsOtherBytes s t (regOf s.cfg .sts pin) ∧
      t.log = s.log ++
        [.write s.ctx (regOff s.cfg (regOf s.cfg .sts pin)) (oneHot (bitOf s.cfg pin)),
          .response s.ctx (respByte .ok false)]

/-- R175: `SETWAKE` on a resume-well pin succeeds, on a core-well pin it always fails with the fault class, out
of range it is an invalid argument, for both values; two identical successful commands leave the state of
the first, the response and the history apart. Nothing but the pin's wake bit changes (R155). -/
def Obligations.SetwakePerPin : Prop :=
  ∀ (s : State) (pin : Nat) (v : Bool), Ready s → Live s →
    (pin < s.cfg.resumeBoundary → exec (.setwake pin v) s = .next (respond s.ctx .fault false s)) ∧
    (s.cfg.pinCount ≤ pin → exec (.setwake pin v) s = .next (respond s.ctx .invalidArgument false s)) ∧
    (s.cfg.resumeBoundary ≤ pin → pin < s.cfg.pinCount →
      ∃ t u, exec (.setwake pin v) s = .next t ∧ exec (.setwake pin v) t = .next u ∧
        t = respond s.ctx .ok false { s with wake := t.wake, running := none } ∧
        (∀ q, t.wake.getLsbD q = if q = pin then v else s.wake.getLsbD q) ∧
        u = respond s.ctx .ok false t)

/-- R170: `WakeSet.set` of a resume-well pin. -/
def Obligations.WakeSetMarksOnePin : Prop :=
  ∀ (s : State) (pin : Nat), ConfigWF s.cfg → s.cfg.resumeBoundary ≤ pin → pin < s.cfg.pinCount →
    (∀ q, (wakeSet pin s).wake.getLsbD q = (decide (q = pin) || s.wake.getLsbD q)) ∧
    wakeSet pin s = { s with wake := (wakeSet pin s).wake } ∧
    wakeSet pin (wakeSet pin s) = wakeSet pin s

/-- R171: `WakeSet.clear` of a resume-well pin. -/
def Obligations.WakeClearUnmarksOnePin : Prop :=
  ∀ (s : State) (pin : Nat), ConfigWF s.cfg → s.cfg.resumeBoundary ≤ pin → pin < s.cfg.pinCount →
    (∀ q, (wakeClear pin s).wake.getLsbD q = (!decide (q = pin) && s.wake.getLsbD q)) ∧
    wakeClear pin s = { s with wake := (wakeClear pin s).wake } ∧
    wakeClear pin (wakeClear pin s) = wakeClear pin s ∧
    (s.wake.getLsbD pin = false → wakeClear pin s = s)

/-- The equations of the two outputs: `LINE` (R224) and `WAKE_OUT` (R174); the mask flags enter neither. -/
def Obligations.LineAndWakeOutEquations : Prop :=
  ∀ s : State,
    (lineOut s = true ↔ s.cfg.hasLine = true ∧
      ∃ p, p < s.cfg.pinCount ∧ pinBit s .sts p = true ∧ pinBit s .gpe p = true) ∧
    (wakeOut s = true ↔ ∃ p, p < s.cfg.pinCount ∧ s.wake.getLsbD p = true ∧ pinBit s .sts p = true) ∧
    (∀ a b, lineOut { s with lineMasked := a, delivOff := b } = lineOut s ∧
      wakeOut { s with lineMasked := a, delivOff := b } = wakeOut s)

/-- When the two outputs rise and fall (R224, R225, R174): `IRQEN` of a pending pin and an edge on an enabled,
triggered pin raise `LINE`; `ACK` or `IRQDIS` of the last pending and enabled pin drops it; `SETWAKE` of a pending
pin and an edge on a marked pin, in any power state, raise `WAKE_OUT`; `ACK` or unmarking of the last one drops it. -/
def Obligations.LineAndWakeOutFollowTheirCauses : Prop :=
  (∀ (s : State) (pin : Nat), Ready s → Live s → pin < s.cfg.pinCount →
    (s.cfg.hasLine = true → pinBit s .sts pin = true →
      ∃ t, exec (.irqen pin) s = .next t ∧ lineOut t = true) ∧
    (∀ e, s.cfg.hasLine = true → pinBit s .gpe pin = true → pinBit s (triggerKind e) pin = true →
      lineOut (envStep (.edge pin e) s) = true) ∧
    ((∀ q, q < s.cfg.pinCount → q ≠ pin → (pinBit s .sts q && pinBit s .gpe q) = false) →
      ∀ i ∈ [Instr.ack pin, .irqdis pin], ∃ t, exec i s = .next t ∧ lineOut t = false) ∧
    (s.cfg.resumeBoundary ≤ pin → pinBit s .sts pin = true →
      ∃ t, exec (.setwake pin true) s = .next t ∧ wakeOut t = true) ∧
    ((∀ q, q < s.cfg.pinCount → q ≠ pin → (s.wake.getLsbD q && pinBit s .sts q) = false) →
      s.cfg.resumeBoundary ≤ pin →
      ∀ i ∈ [Instr.ack pin, .setwake pin false], ∃ t, exec i s = .next t ∧ wakeOut t = false)) ∧
  (∀ (s : State) (pin : Nat) (e : Edge), ConfigWF s.cfg → MemWF s.mem → s.cfg.resumeBoundary ≤ pin →
    pin < s.cfg.pinCount → s.wake.getLsbD pin = true → pinBit s (triggerKind e) pin = true →
    wakeOut (envStep (.edge pin e) s) = true)

/-- `DISALL` (R156) completes: the five kinds are 0x00 and `STS` is 0x00 in both wells, every other byte is as
before, and the writes come in the order of R156, spelled out kind by kind. -/
def Obligations.DisallClearsEverySource : Prop :=
  ∀ s : State, Ready s → Live s →
    ∃ t, exec .disall s = .next t ∧ Answered s t .ok false ∧ OnlyPage s t ∧
      (∀ r ∈ regs s.cfg, r.kind ∈ Kind.sts :: clearedKinds → stored t r = 0x00#8) ∧
      (∀ a, (∀ r ∈ regs s.cfg, r.kind ∈ Kind.sts :: clearedKinds → a ≠ regAddr s.cfg r) →
        readByte t.mem a = readByte s.mem a) ∧
      (∀ p, p < s.cfg.pinCount → trigType t p = .none ∧ pinBit t .gpe p = false) ∧ lineOut t = false ∧
      t.log = s.log ++ (sweepWrites s.cfg).map (fun w => .write s.ctx w.1 w.2) ++
        [.response s.ctx (respByte .ok false)]

/-- `DISPATCH` (R157, R160) completes while the line is open: every pending pin is acknowledged and notified,
in ascending order, whether or not it is enabled (R266); each pin is tested by one read, and a pending one is
acknowledged by one write before its notification (R77 e), with no other access; the answer is "handled" exactly when
one was; reserved status bits and every other byte are as before, and the line is low. -/
def Obligations.DispatchServesEveryPendingPin : Prop :=
  ∀ s : State, Ready s → Live s → lineOpen s = true → dispatchInFlight s = false →
    ∃ t, exec .dispatch s = .next t ∧ Answered s t .ok (!(pendingPins s).isEmpty) ∧
      t.log = s.log ++ scanTrace s ++ [.response s.ctx (respByte .ok (!(pendingPins s).isEmpty))] ∧
      (t.log.drop s.log.length).filterMap notified = (pendingPins s).map (virqOf s.cfg) ∧
      (∀ p, p < s.cfg.pinCount → pinBit t .sts p = false) ∧
      (∀ w i j, i < bytesIn s.cfg w → pinsIn s.cfg w ≤ 8 * i + j →
        (stored t ⟨.sts, w, i⟩).getLsbD j = (stored s ⟨.sts, w, i⟩).getLsbD j) ∧
      (∀ a, (∀ r ∈ regsOfKind s.cfg .sts, a ≠ regAddr s.cfg r) → readByte t.mem a = readByte s.mem a) ∧
      lineOut t = false ∧
      t = { s with
        mem := t.mem, log := t.log, resp := t.resp, running := none
        scan := s.cfg.pinCount, handled := !(pendingPins s).isEmpty }

/-- While the line is masked, delivery is off, there is no line (R223) or a `DISPATCH` is in flight (R229), a
`DISPATCH` does not start on an attached Controller: at the port it has no step, and another context's does not
begin. While one is in flight, `PMSUSPEND` cannot set its mask flag over it: R223 calls the overlap excluded (log
entry 14). -/
def Obligations.DispatchHasNoStepWhileMasked : Prop :=
  ∀ s : State, (s.cfg.hasLine = false ∨ s.lineMasked = true ∨ s.delivOff = true ∨ dispatchInFlight s = true) →
    (Live s → exec .dispatch s = .fault .dispatchHasNoStep) ∧
    (∀ r : Request, s.attached = true → decode r.word = .ok .dispatch → startCommand r s = .next s) ∧
    (s.attached = true → dispatchInFlight s = true → exec .pmsuspend s = .fault .undefinedByContract)

/-! ## Attach and teardown -/

/-- R251: a successful `ATTACH` leaves every interrupt register clear, whatever edges and pad changes fall
inside it; the premise is that no external register write does. `EN`, `DIR` and `LVL` are as found. With nobody else
acting its accesses are the writes of `disable_all` in the order of R156 and no other (R200), and every byte outside
the swept registers is as before. -/
def Obligations.AttachLeavesAllClear : Prop :=
  ∀ s : State, ConfigWF s.cfg → MemWF s.mem → s.attached = false → s.inflight = [] →
    (∀ ms ∈ s.windows, ∀ m ∈ ms, harmlessMove m = true) →
    s.hs.variantOk = true → s.hs.ioOk = true → s.hs.virqOk = true →
    ∃ t, exec .attach s = .next t ∧ Answered s t .ok false ∧
      (∀ r ∈ regs s.cfg, r.kind ∈ Kind.sts :: clearedKinds → stored t r = 0x00#8) ∧
      (∀ r ∈ regs s.cfg, r.kind ∈ [Kind.en, .dir, .lvl] → stored t r = stored s r) ∧
      (∀ p, p < s.cfg.pinCount → trigType t p = .none ∧ pinBit t .gpe p = false) ∧
      lineOut t = false ∧ wakeOut t = false ∧
      t.attached = true ∧ t.pm = .active ∧ t.snapValid = false ∧ t.wake = 0#64 ∧
      t.lineMasked = false ∧ t.delivOff = false ∧ t.lock = .free ∧ t.fatal = s.fatal ∧
      t.running = none ∧ t.inflight = [] ∧
      (s.windows = [] →
        t.log = s.log ++ (sweepWrites s.cfg).map (fun w => .write s.ctx w.1 w.2) ++
          [.response s.ctx (respByte .ok false)] ∧
        ∀ a, (∀ r ∈ regs s.cfg, r.kind ∈ Kind.sts :: clearedKinds → a ≠ regAddr s.cfg r) →
          readByte t.mem a = readByte s.mem a)

/-- `DETACH` (R201) completes: the writes of `disable_all` in the order of R156 and no other access, before the
response; the wake bitmap, the snapshot and `ATTACHED` are retired; `EN`, `DIR`, `LVL` and everything else are as
before. -/
def Obligations.DetachRetiresTheController : Prop :=
  ∀ s : State, Ready s → Live s →
    ∃ t, exec .detach s = .next t ∧ Answered s t .ok false ∧
      (∀ r ∈ regs s.cfg, r.kind ∈ Kind.sts :: clearedKinds → stored t r = 0x00#8) ∧
      (∀ a, (∀ r ∈ regs s.cfg, r.kind ∈ Kind.sts :: clearedKinds → a ≠ regAddr s.cfg r) →
        readByte t.mem a = readByte s.mem a) ∧
      t.log = s.log ++ (sweepWrites s.cfg).map (fun w => .write s.ctx w.1 w.2) ++
        [.response s.ctx (respByte .ok false)] ∧
      t = { s with
        mem := t.mem, log := t.log, resp := t.resp, running := none
        wake := 0#64, snapValid := false, attached := false }

/-! ## PmContext -/

/-- `PMSUSPEND` and `PMRESUME` (R181, R184, R194) complete in both resting states, with any other agents about:
they move `DELIV_OFF`, answer `(OK, 0)` and touch nothing else. `PMSUSPEND` has the premise that no `DISPATCH` is in
flight (R223; log entry 14). -/
def Obligations.SuspendAndResumeMoveDelivery : Prop :=
  ∀ s : State, s.attached = true → (s.pm = .active ∨ s.pm = .suspended) →
    (dispatchInFlight s = false →
      exec .pmsuspend s = .next (respond s.ctx .ok false { s with delivOff := true })) ∧
    exec .pmresume s = .next (respond s.ctx .ok false { s with delivOff := false })

/-- `PMSUSPENDNOIRQ` (R182, R185, R187) completes from `Active` and from `Suspended`: the snapshot holds what a
read of each core byte of the five kinds returns, an earlier snapshot is overwritten, the line is masked and no
register byte changes; the reads come in the order of R185, spelled out kind by kind. -/
def Obligations.SuspendNoirqCaptures : Prop :=
  ∀ s : State, Ready s → s.attached = true → someInFlight s = false →
    (s.pm = .active ∨ s.pm = .suspended) → (s.cfg.hasLine = true → s.hs.maskOk = true) →
    ∃ t, exec .pmsuspendnoirq s = .next t ∧ Answered s t .ok false ∧
      (∀ b ∈ savedBytes s.cfg, snapByte t b = readReg s (savedReg b)) ∧
      t.log = s.log ++ (snapshotOrder s.cfg fun k i => readReg s ⟨savedKind k, .core, i⟩).map
          (fun w => .read s.ctx w.1 w.2) ++ [.response s.ctx (respByte .ok false)] ∧
      t = { s with
        snap := t.snap, log := t.log, resp := t.resp
        snapValid := true, pm := .suspended, lineMasked := true }

/-- `PMRESUMENOIRQ` (R183, R185, R186) completes: the five kinds' core bytes are written back in the order of R185;
`EN`, `DIR`, `SMI`, `NMI` hold the saved bytes, `LATCH` follows the snapshot for the pins it has as outputs and
is left alone for those it has as inputs, and no other byte changes; the line is unmasked, the snapshot gone. -/
def Obligations.ResumeNoirqRestores : Prop :=
  ∀ s : State, Ready s → s.attached = true → someInFlight s = false → s.snapValid = true →
    s.pm = .suspended →
    ∃ t, exec .pmresumenoirq s = .next t ∧ Answered s t .ok false ∧
      (∀ b ∈ savedBytes s.cfg, b.1 ≠ .lvl → stored t (savedReg b) = snapByte s b) ∧
      (∀ i j, i < bytesIn s.cfg .core → j < 8 →
        (stored t ⟨.lvl, .core, i⟩).getLsbD j =
          if (snapByte s (.dir, i)).getLsbD j = true ∧ 8 * i + j < pinsIn s.cfg .core
          then (stored s ⟨.lvl, .core, i⟩).getLsbD j else (snapByte s (.lvl, i)).getLsbD j) ∧
      (∀ a, (∀ b ∈ savedBytes s.cfg, a ≠ regAddr s.cfg (savedReg b)) →
        readByte t.mem a = readByte s.mem a) ∧
      t.log = s.log ++ (snapshotOrder s.cfg fun k i => snapByte s (k, i)).map (fun w => .write s.ctx w.1 w.2) ++
        [.response s.ctx (respByte .ok false)] ∧
      t = { s with
        mem := t.mem, log := t.log, resp := t.resp
        snapValid := false, lineMasked := false, pm := .active, coreDark := false }

/-- The round-trip property (R193): between a successful suspend and the next resume any power losses, edges and
pad changes may happen; with no external register write, and with the pads of the snapshot's input pins as they
were, every tracked core register reads as it did before the suspend. -/
def Obligations.SuspendResumeRoundTrip : Prop :=
  ∀ (s : State) (es : List EnvStep), Ready s → Live s → someInFlight s = false →
    (s.cfg.hasLine = true → s.hs.maskOk = true) →
    (∀ e ∈ es, harmlessMove (.env e) = true) →
    ∃ u, exec .pmsuspendnoirq s = .next u ∧
      ((∀ p, p < s.cfg.resumeBoundary → pinBit s .dir p = true →
          (es.foldl (fun s e => envStep e s) u).padin.getLsbD p = s.padin.getLsbD p) →
        ∃ t, exec .pmresumenoirq (es.foldl (fun s e => envStep e s) u) = .next t ∧
          ∀ b ∈ savedBytes s.cfg, readReg t (savedReg b) = readReg s (savedReg b))

/-- R188: when the line cannot be masked the suspend is answered `DEVICE_BUSY` and all state is as it was, from
`Active` and from `Suspended`. -/
def Obligations.MaskFailureChangesNothing : Prop :=
  ∀ s : State, s.attached = true → someInFlight s = false → (s.pm = .active ∨ s.pm = .suspended) →
    s.cfg.hasLine = true → s.hs.maskOk = false →
    exec .pmsuspendnoirq s = .next (respond s.ctx .deviceBusy false s)

/-- R189: a resume without a snapshot writes nothing, sets `FATAL` and is answered `LOGIC_ERROR`. -/
def Obligations.MissingSnapshotIsReported : Prop :=
  ∀ s : State, s.attached = true → someInFlight s = false → s.snapValid = false →
    exec .pmresumenoirq s = .next (respond s.ctx .logicError false { s with fatal := true })

/-- R190: a power loss is enabled exactly in `Suspended` with no command in flight; every core byte, the latches
among them, takes the drawn value, which may be any, and nothing else changes. Nothing is said of the pads of
core pins (U17). -/
def Obligations.PowerLossTakesTheCoreWell : Prop :=
  (∀ (s : State) (draw : BitVec 576), ConfigWF s.cfg → MemWF s.mem →
    (¬ (s.pm = .suspended ∧ allFlights s = []) → envStep (.powerLoss draw) s = s) ∧
    (s.pm = .suspended → allFlights s = [] →
      (∀ r ∈ regs s.cfg, r.well = .core → stored (envStep (.powerLoss draw) s) r = lostByte draw r) ∧
      (∀ a, (∀ r ∈ regs s.cfg, r.well = .core → a ≠ regAddr s.cfg r) →
        readByte (envStep (.powerLoss draw) s).mem a = readByte s.mem a) ∧
      envStep (.powerLoss draw) s =
        { s with
          mem := (envStep (.powerLoss draw) s).mem
          log := s.log ++ [.env (.powerLoss draw)]
          coreDark := true })) ∧
  (∀ (c : Config) (v : Reg → Byte), ConfigWF c →
    ∃ draw : BitVec 576, ∀ r ∈ regs c, r.well = .core → lostByte draw r = v r)

/-! ## Errors -/

/-- R213, both causes of `FAULT`, for every schedule of the other agents: `SETWAKE` of a core-well pin, and every
command but `ATTACH` while the Controller is not attached. Nothing changes. -/
def Obligations.FaultCauses : Prop :=
  (∀ (pin : Nat) (v : Bool) (s : State), Live s → ConfigWF s.cfg → pin < s.cfg.resumeBoundary →
    exec (.setwake pin v) s = .next (respond s.ctx .fault false s)) ∧
  (∀ (i : Instr) (s : State), s.attached = false → i ≠ .attach →
    exec i s = .next (respond s.ctx .fault false s))

/-- R211: a pin at or above `PIN_COUNT` in each of the nine commands with a pin operand, and an unrecognised
trigger type, are answered `INVALID_ARGUMENT` before any register access. -/
def Obligations.InvalidArgumentCauses : Prop :=
  ∀ (i : Instr) (pin : Nat) (s : State), Live s →
    (pinOperand i = some pin → s.cfg.pinCount ≤ pin →
      exec i s = .next (respond s.ctx .invalidArgument false s)) ∧
    (∀ t, i = .settype pin t → 4 ≤ t → exec i s = .next (respond s.ctx .invalidArgument false s))

/-- R219: the uses undefined by contract. In clause four `PmAgrees` (part of `StateInv`) says what R194 says: `PM` is
`Suspending` or `Resuming` only while a power-management command is in flight. -/
def Obligations.UndefinedByContractUses : Prop :=
  ∀ (i : Instr) (s : State), s.attached = true →
    (activeOnly i = true → s.pm ≠ .active → exec i s = .fault .undefinedByContract) ∧
    (i = .pmsuspendnoirq ∨ i = .pmresumenoirq → allFlights s ≠ [] →
      exec i s = .fault .undefinedByContract) ∧
    (i = .pmsuspend ∨ i = .pmresume ∨ i = .pmsuspendnoirq → s.pm = .suspending ∨ s.pm = .resuming →
      exec i s = .fault .undefinedByContract) ∧
    (i = .pmresumenoirq → s.pm = .suspending ∨ s.pm = .resuming → PmAgrees s →
      exec i s = .fault .undefinedByContract) ∧
    (i = .pmresumenoirq → s.snapValid = true → s.pm ≠ .suspended →
      exec i s = .fault .undefinedByContract)

/-- The order of checks of R220: an illegal word is `ILLEGAL_COMMAND` before anything else; for every other word and
every state without other agents the outcome is the first condition that holds. The list of `verdict` is R220's with
what the model adds to it as its own choices: the in-flight test before the `SNAP_VALID` test (log entry 12),
`PMSUSPEND` over a `DISPATCH` in flight as the model-level fault (R223; log entry 14), and the gate of R223 for
`DISPATCH` last, as a fault of its own (log entries 9, 10). An `OK` response carries the level for `GET`, the verdict
for `DISPATCH` and 0 for every other command (R97). -/
def Obligations.FirstConditionDecides : Prop :=
  (∀ (r : Request) (s : State) (e : IllegalWord), decode r.word = .error e →
    runRequest r s = .next (respond r.ctx .illegalCommand false s)) ∧
  (∀ (i : Instr) (s : State), Ready s →
    match verdict i s with
    | .contract => exec i s = .fault .undefinedByContract
    | .noStep => exec i s = .fault .dispatchHasNoStep
    | .status st => ∃ t, exec i s = .next t ∧ Answered s t st (st == .ok && okData i s))

/-- R218: a command answered with another status than `OK` has made no register access and has changed nothing
but, under `LOGIC_ERROR`, `FATAL`; for every word, every state and every schedule of the other agents. -/
def Obligations.ErrorsChangeNothing : Prop :=
  ∀ (r : Request) (s t : State) (st : Status) (d : Bool), s.ctx = r.ctx → runRequest r s = .next t →
    Answered s t st d → st ≠ .ok →
    t = respond s.ctx st false { s with fatal := s.fatal || decide (st = .logicError) }

/-- What each command may change, over all seventeen (R20, R35 to R41): the wake bitmap only `SETWAKE`, `ATTACH`
and `DETACH`; the snapshot only `PMSUSPENDNOIRQ`; `PM` and `LINE_MASKED` only the two boundary commands and
`ATTACH`; `DELIV_OFF` only `PMSUSPEND`, `PMRESUME` and `ATTACH`; `SCAN` and `HANDLED` only `DISPATCH`; the page
not `GET`, `SETWAKE`, nor the three power-management commands that write no register. -/
def Obligations.ControlStateWriters : Prop :=
  ∀ (i : Instr) (s t : State), Ready s → exec i s = .next t →
    t.cfg = s.cfg ∧ t.padin = s.padin ∧ t.inflight = s.inflight ∧ t.port = s.port ∧
    t.lock = .free ∧
    (t.wake ≠ s.wake → i = .attach ∨ i = .detach ∨ ∃ p v, i = .setwake p v) ∧
    (t.snap ≠ s.snap → i = .pmsuspendnoirq) ∧
    (t.snapValid ≠ s.snapValid →
      i = .attach ∨ i = .detach ∨ i = .pmsuspendnoirq ∨ i = .pmresumenoirq) ∧
    (t.pm ≠ s.pm ∨ t.lineMasked ≠ s.lineMasked →
      i = .attach ∨ i = .pmsuspendnoirq ∨ i = .pmresumenoirq) ∧
    (t.delivOff ≠ s.delivOff → i = .attach ∨ i = .pmsuspend ∨ i = .pmresume) ∧
    (t.attached ≠ s.attached → i = .attach ∨ i = .detach) ∧
    (t.fatal ≠ s.fatal → i = .pmresumenoirq) ∧
    (t.scan ≠ s.scan ∨ t.handled ≠ s.handled → i = .dispatch) ∧
    (t.mem ≠ s.mem → (∀ p, i ≠ .get p) ∧ (∀ p v, i ≠ .setwake p v) ∧ i ≠ .pmsuspend ∧
      i ≠ .pmsuspendnoirq ∧ i ≠ .pmresume)

/-! ## The other contexts -/

/-- A command behaves the same from any context (R233): issued by another context that is idle and carried on to its
end with nobody else acting, it leaves what the same command leaves at the port, for every command and every
illegal word, whatever else is in flight. -/
def Obligations.OtherContextsActAsAtThePort : Prop :=
  ∀ (s t : State) (r : Request), Ready s → s.running = none → ctxExists s.cfg r.ctx = true →
    ctxBusy s r.ctx = false → runRequest r (loadRequest r s.port s) = .next t →
    ∃ n, applyMoves (.start r :: List.replicate n (.advance r.ctx)) s = .next { t with ctx := s.ctx, hs := s.hs }

/-- Atomic blocks do not overlap: a block does not begin while `LOCK` is held, and while a piece of a command runs,
for every schedule, no other context accesses a register (R74) and `LOCK` ends as it began. The rest is the model's
choice, not R74's: that a block begun while `LOCK` is held ends in the fault `lockNeverFree`, where R74 lets the context
spin (log entry 20), and that inside a block no other context gives a response or moves its command either, its moves
in the windows there having no effect at all, where R74 forbids register accesses alone (log entry 7). -/
def Obligations.AtomicBlocksDoNotOverlap : Prop :=
  ∀ (c : Ctx) (a : Action) (bit : Bool) (s : State),
    (isBlock a bit = true → s.lock ≠ .free → doAction c a bit s = .fault .lockNeverFree) ∧
    (∀ (b : Bool) (t : State), doAction c a bit s = .next (b, t) →
      t.inflight = s.inflight ∧ t.running = s.running ∧ t.port = s.port ∧ t.lock = s.lock ∧
      (∃ l, t.log = s.log ++ l ∧ ∀ e ∈ l, eventOf c e = true) ∧
      doAction c a bit (envOnly s) = .next (b, envOnly t))

/-! ## The environment -/

/-- `EnvPad` (R44, R52): it sets one pin's bit of `PADIN` and nothing else; an input pin's level follows it, the level
of every other pin stays, and so does the pad of every pin whose well has power; of a pin that does not exist there is
no such step. Nothing is said of a core-well pad without power: U17 lets no claim mention it (log entry 16). -/
def Obligations.EnvPadMovesOneInput : Prop :=
  ∀ (s : State) (p : Nat) (v : Bool), ConfigWF s.cfg →
    (s.cfg.pinCount ≤ p → envStep (.pad p v) s = s) ∧
    (p < s.cfg.pinCount →
      envStep (.pad p v) s =
        { s with padin := (envStep (.pad p v) s).padin, log := s.log ++ [.env (.pad p v)] } ∧
      (∀ q, (envStep (.pad p v) s).padin.getLsbD q = if q = p then v else s.padin.getLsbD q) ∧
      (∀ q, q < s.cfg.pinCount →
        level (envStep (.pad p v) s) q = if q = p ∧ pinBit s .dir p = true then v else level s q) ∧
      (∀ q, (s.cfg.resumeBoundary ≤ q ∨ s.pm ≠ .suspended ∨ s.coreDark = false) →
        padOut (envStep (.pad p v) s) q = padOut s q))

/-- R222: an edge on a powered pin sets its pending bit exactly when the matching trigger enable is set, and
changes nothing else; `LOCK`, `PM`, the masks, `GPE` and `DIR` do not enter. -/
def Obligations.EdgeSetsPending : Prop :=
  ∀ (s : State) (p : Nat) (e : Edge), ConfigWF s.cfg → MemWF s.mem → p < s.cfg.pinCount →
    (s.cfg.resumeBoundary ≤ p ∨ s.pm ≠ .suspended ∨ s.coreDark = false) →
    (envStep (.edge p e) s).log = s.log ++ [.env (.edge p e)] ∧
    (pinBit s (triggerKind e) p = false → (envStep (.edge p e) s).mem = s.mem) ∧
    (pinBit s (triggerKind e) p = true →
      pinBit (envStep (.edge p e) s) .sts p = true ∧
      KeepsOtherBits s (envStep (.edge p e) s) (regOf s.cfg .sts p) (bitOf s.cfg p) ∧
      KeepsOtherBytes s (envStep (.edge p e) s) (regOf s.cfg .sts p)) ∧
    envStep (.edge p e) s =
      { s with mem := (envStep (.edge p e) s).mem, log := (envStep (.edge p e) s).log }

/-- The lost external update (R80, R262): an external write `x` that falls between the read and the write of a
read-modify-write is overwritten in all eight bits, for every command that makes one. On `LVL` of an input pin the
bits of output pins and the reserved bits come back as read and the latches of input pins are out of reach, so the
byte is as before. -/
def Obligations.ExternalWriteInsideRmwIsLost : Prop :=
  ∀ (s : State) (pin : Nat) (x : Byte), ConfigWF s.cfg → MemWF s.mem → s.lock = .free → Live s →
    pin < s.cfg.pinCount →
    let reg := fun k => regOf s.cfg k pin
    let replaced := fun k v => setBit (stored s (reg k)) (bitOf s.cfg pin) v
    let write := fun k => [Move.env (.regWrite (regOff s.cfg (reg k)) x)]
    (∀ i k v, (i, k, v) ∈
        [(Instr.dirin pin, Kind.dir, true), (.irqen pin, .gpe, true), (.irqdis pin, .gpe, false)] →
      s.windows = [[], [], write k] →
      ∃ t, exec i s = .next t ∧ stored t (reg k) = replaced k v ∧ KeepsOtherBytes s t (reg k)) ∧
    (∀ v, s.windows = [[], [], write .lvl] →
      ∃ t, exec (.set pin v) s = .next t ∧ KeepsOtherBytes s t (reg .lvl) ∧
        stored t (reg .lvl) = if pinBit s .dir pin then stored s (reg .lvl) else replaced .lvl v) ∧
    (∀ v, s.windows = [[], [], write .dir] ∨ s.windows = [[], [], [], [], [], write .lvl] →
      ∃ t, exec (.dirout pin v) s = .next t ∧ stored t (reg .dir) = replaced .dir false ∧
        stored t (reg .lvl) = replaced .lvl v) ∧
    (∀ n, n < 4 → s.windows = [[], [], write .rte] ∨ s.windows = [[], [], [], [], write .fte] →
      ∃ t, exec (.settype pin n) s = .next t ∧ stored t (reg .rte) = replaced .rte (n.testBit 0) ∧
        stored t (reg .fte) = replaced .fte (n.testBit 1))

/-- The `SETTYPE` window (R273): an edge between the write of `RTE` and the write of `FTE` is judged against the new
`RTE` and the old `FTE`, before the read of `FTE` and after it alike. -/
def Obligations.EdgeInsideSettypeSeesMixedType : Prop :=
  ∀ (s : State) (pin t : Nat) (e : Edge), ConfigWF s.cfg → MemWF s.mem → s.lock = .free → Live s →
    pin < s.cfg.pinCount → t < 4 → pinBit s .sts pin = false →
    s.windows = [[], [], [], [.env (.edge pin e)]] ∨ s.windows = [[], [], [], [], [.env (.edge pin e)]] →
    ∃ u, exec (.settype pin t) s = .next u ∧ Answered s u .ok false ∧
      pinBit u .sts pin = (match e with | .rising => t.testBit 0 | .falling => pinBit s .fte pin)
end

