-- ==== Sys2Proof/Laws/Mapping.lean ====
section
/-! SUPPORT. The laws of the pin mapping and of the layout of the register page (40_registerbank.md R120 to
R131, 20_memory.md R62). -/

namespace Sys2Proof.Machine

/-- The registers of the bank (R21): those whose index is below `NB` of their well. -/
theorem mem_regs {c : Config} {r : Reg} : r ∈ regs c ↔ r.idx < bytesIn c r.well := by
  obtain ⟨k, w, i⟩ := r
  cases k <;> cases w <;>
    simp [regs, regsOfKind, Kind.all, Well.all]

theorem mem_regsOfKind {c : Config} {k : Kind} {r : Reg} :
    r ∈ regsOfKind c k ↔ r.kind = k ∧ r.idx < bytesIn c r.well := by
  obtain ⟨l, w, i⟩ := r
  cases w <;> simp [regsOfKind, Well.all] <;> tauto

/-- A well-formed layout gives distinct registers distinct offsets. -/
theorem regOff_inj {c : Config} (h : ConfigWF c) {r q : Reg} (hr : r ∈ regs c) (hq : q ∈ regs c)
    (e : regOff c r = regOff c q) : r = q :=
  List.inj_on_of_nodup_map h.2.1 hr hq e

theorem regAddr_inj {c : Config} (h : ConfigWF c) {r q : Reg} (hr : r ∈ regs c) (hq : q ∈ regs c)
    (e : regAddr c r = regAddr c q) : r = q :=
  regOff_inj h hr hq (by simp only [regAddr] at e; omega)

/-- What `locate` finds is a register of the bank that stands at the offset. -/
theorem locate_some {c : Config} {off : Nat} {r : Reg} (h : locate c off = some r) :
    r ∈ regs c ∧ regOff c r = off :=
  ⟨List.mem_of_find?_eq_some h, by simpa using List.find?_some h⟩

/-- The register at a register's own offset is that register. -/
theorem locate_regOff {c : Config} (h : ConfigWF c) {r : Reg} (hr : r ∈ regs c) :
    locate c (regOff c r) = some r := by
  cases hl : locate c (regOff c r) with
  | none =>
    have := List.find?_eq_none.1 hl r hr
    simp at this
  | some q =>
    have ⟨hq, e⟩ := locate_some hl
    rw [regOff_inj h hq hr e]

/-- Every pin's register is one of the bank's. -/
theorem regOf_mem {c : Config} (k : Kind) {p : Nat} (hp : p < c.pinCount) : regOf c k p ∈ regs c := by
  rw [mem_regs]
  simp only [regOf, wellOf, pinInWell, bytesIn]
  split <;> simp only [pinsIn] <;> omega

@[simp] theorem regOf_kind (c : Config) (k : Kind) (p : Nat) : (regOf c k p).kind = k := rfl
@[simp] theorem regOf_well (c : Config) (k : Kind) (p : Nat) : (regOf c k p).well = wellOf c p := rfl
@[simp] theorem regOf_idx (c : Config) (k : Kind) (p : Nat) : (regOf c k p).idx = pinInWell c p / 8 := rfl

theorem bitOf_lt (c : Config) (p : Nat) : bitOf c p < 8 := Nat.mod_lt _ (by decide)

/-! The functions of RegisterBank: their right-hand sides for a pin that exists, nothing for any other (R125). -/

theorem well?_of_lt {c : Config} {p : Nat} (hp : p < c.pinCount) : well? c p = some (wellOf c p) := by
  simp [well?, forPin, hp, wellOf]

theorem pinInWell?_of_lt {c : Config} {p : Nat} (hp : p < c.pinCount) :
    pinInWell? c p = some (pinInWell c p) := by simp [pinInWell?, forPin, hp, pinInWell]

theorem wellStride?_of_lt {c : Config} {p : Nat} (hp : p < c.pinCount) :
    wellStride? c p = some (strideOf c (wellOf c p)) := by simp [wellStride?, well?_of_lt hp]

theorem bit?_of_lt {c : Config} {p : Nat} (hp : p < c.pinCount) : bit? c p = some (bitOf c p) := by
  simp [bit?, pinInWell?_of_lt hp, bitOf]

theorem reg?_of_lt {c : Config} {p : Nat} (k : Kind) (hp : p < c.pinCount) : reg? c k p = some (regOf c k p) := by
  simp [reg?, well?_of_lt hp, pinInWell?_of_lt hp, regOf]

theorem offset?_of_lt {c : Config} {p : Nat} (k : Kind) (hp : p < c.pinCount) :
    offset? c p k = some (regOff c (regOf c k p)) := by
  simp [offset?, wellStride?_of_lt hp, pinInWell?_of_lt hp, regOff, regOf]

theorem bank_of_le {c : Config} {p : Nat} (hp : c.pinCount ≤ p) (k : Kind) :
    well? c p = none ∧ pinInWell? c p = none ∧ wellStride? c p = none ∧ bit? c p = none ∧
      reg? c k p = none ∧ offset? c p k = none := by
  have : ¬ p < c.pinCount := by omega
  simp [well?, pinInWell?, wellStride?, bit?, reg?, offset?, forPin, this]

theorem pinBit?_of_lt {s : State} {p : Nat} (k : Kind) (hp : p < s.cfg.pinCount) :
    pinBit? s k p = some (pinBit s k p) := by simp [pinBit?, reg?_of_lt k hp, bit?_of_lt hp, pinBit]

theorem setPending_of_lt {s : State} {p : Nat} (hp : p < s.cfg.pinCount) :
    setPending p s = store s (regOf s.cfg .sts p) (stored s (regOf s.cfg .sts p) ||| oneHot (bitOf s.cfg p)) := by
  simp [setPending, reg?_of_lt .sts hp, bit?_of_lt hp]

/-- A pin is the first of its well plus its place in its byte (R23). -/
theorem pin_eq (c : Config) (p : Nat) :
    firstPin c (wellOf c p) + 8 * (pinInWell c p / 8) + bitOf c p = p := by
  by_cases h : p < c.resumeBoundary <;> simp only [firstPin, wellOf, bitOf, pinInWell, h, if_true, if_false] <;>
    omega

/-- The pin at bit `j` of byte `i` of a well, and its register and bit (R23). -/
theorem pin_of_bit {c : Config} (h : c.resumeBoundary ≤ c.pinCount) {w : Well} {i j : Nat} (hj : j < 8)
    (hp : 8 * i + j < pinsIn c w) :
    firstPin c w + 8 * i + j < c.pinCount ∧ wellOf c (firstPin c w + 8 * i + j) = w ∧
      pinInWell c (firstPin c w + 8 * i + j) / 8 = i ∧ bitOf c (firstPin c w + 8 * i + j) = j := by
  cases w
  · simp only [pinsIn, firstPin] at *
    have : 0 + 8 * i + j < c.resumeBoundary := by omega
    simp only [wellOf, bitOf, pinInWell, this, if_true]
    exact ⟨by omega, trivial, by omega, by omega⟩
  · simp only [pinsIn, firstPin] at *
    have : ¬ c.resumeBoundary + 8 * i + j < c.resumeBoundary := by omega
    simp only [wellOf, bitOf, pinInWell, this, if_false]
    exact ⟨by omega, trivial, by omega, by omega⟩

theorem le_foldl_max (l : List Nat) (m : Nat) :
    m ≤ l.foldl (fun m off => max m (off + 1)) m ∧
      ∀ off ∈ l, off < l.foldl (fun m off => max m (off + 1)) m := by
  induction l generalizing m with
  | nil => simp
  | cons a l ih =>
    have ⟨h1, h2⟩ := ih (max m (a + 1))
    refine ⟨by simp only [List.foldl_cons]; omega, fun off ho => ?_⟩
    rcases List.mem_cons.1 ho with rfl | ho
    · simp only [List.foldl_cons]; omega
    · exact h2 off ho

/-- Every used offset is below `PAGE_END` (R62). -/
theorem regOff_lt_pageEnd {c : Config} {r : Reg} (hr : r ∈ regs c) : regOff c r < pageEnd c :=
  (le_foldl_max _ 0).2 _ (List.mem_map_of_mem hr)

/-- The bytes a kind occupies in a well of a well-formed configuration. -/
theorem bytesIn_le {c : Config} (h : ConfigWF c) (w : Well) : bytesIn c w ≤ 8 := by
  have := h.1
  cases w <;> simp only [bytesIn, pinsIn] <;> omega

theorem savedReg_mem {c : Config} {b : Saved × Nat} (hb : b ∈ savedBytes c) : savedReg b ∈ regs c := by
  obtain ⟨k, i⟩ := b
  rw [mem_regs]
  simp [savedBytes, Saved.all] at hb
  simp only [savedReg]
  rcases hb with ⟨h, -⟩ | ⟨h, -⟩ | ⟨h, -⟩ | ⟨h, -⟩ | ⟨h, -⟩ <;> exact h

theorem mem_savedBytes {c : Config} {k : Saved} {i : Nat} :
    (k, i) ∈ savedBytes c ↔ i < bytesIn c .core := by
  cases k <;> simp [savedBytes, Saved.all]

theorem savedKind_inj {k l : Saved} (h : savedKind k = savedKind l) : k = l := by
  cases k <;> cases l <;> simp_all [savedKind]

end Sys2Proof.Machine
end

