-- ==== Sys2Proof/Laws/Memory.lean ====
section
/-! SUPPORT. The laws of the register space: reading after a write, and the canonical form every write keeps. -/

namespace Sys2Proof.Machine

/-- An address below every listed one reads as unlisted. -/
theorem readByte_of_lt {m : List Host.Cell} {a : Nat} (h : ∀ c ∈ m, a < c.1) : readByte m a = 0#8 := by
  induction m with
  | nil => rfl
  | cons c m ih =>
    obtain ⟨b, v⟩ := c
    have hb : a < b := h (b, v) (by simp)
    have : a ≠ b := by omega
    simp only [readByte, this, if_false]
    exact ih fun c hc => h c (by simp [hc])

/-- A byte written reads back. -/
theorem readByte_writeByte_same {m : List Host.Cell} (h : MemWF m) (a : Nat) (v : Byte) :
    readByte (writeByte m a v) a = v := by
  induction m with
  | nil => by_cases hv : v = 0#8 <;> simp [writeByte, readByte, hv]
  | cons c m ih =>
    obtain ⟨b, w⟩ := c
    obtain ⟨hs, hn⟩ := h
    have hlt := (List.pairwise_cons.1 hs).1
    have htl : MemWF m := ⟨(List.pairwise_cons.1 hs).2, fun c hc => hn c (by simp [hc])⟩
    rcases Nat.lt_trichotomy a b with hab | hab | hab
    · have hne : a ≠ b := by omega
      have h0 : readByte m a = 0#8 := readByte_of_lt fun c hc => lt_trans hab (hlt c hc)
      by_cases hv : v = 0#8 <;> simp [writeByte, readByte, hab, hne, hv, h0]
    · subst hab
      have h0 : readByte m a = 0#8 := readByte_of_lt fun c hc => hlt c hc
      by_cases hv : v = 0#8 <;> simp [writeByte, readByte, hv, h0]
    · have hne : a ≠ b := by omega
      have hnl : ¬ a < b := by omega
      simp [writeByte, readByte, hne, hnl, ih htl]

/-- A write leaves every other byte alone. -/
theorem readByte_writeByte_ne (m : List Host.Cell) {a b : Nat} (v : Byte) (h : b ≠ a) :
    readByte (writeByte m a v) b = readByte m b := by
  induction m with
  | nil => by_cases hv : v = 0#8 <;> simp [writeByte, readByte, hv, h]
  | cons c m ih =>
    obtain ⟨d, w⟩ := c
    rcases Nat.lt_trichotomy a d with hab | hab | hab
    · by_cases hv : v = 0#8 <;> simp [writeByte, readByte, hab, hv, h]
    · subst hab
      by_cases hv : v = 0#8 <;> simp [writeByte, readByte, hv, h]
    · have hne : a ≠ d := by omega
      have hnl : ¬ a < d := by omega
      simp [writeByte, readByte, hne, hnl, ih]

/-- The addresses listed after a write. -/
theorem mem_writeByte {m : List Host.Cell} {a : Nat} {v : Byte} {c : Host.Cell}
    (h : c ∈ writeByte m a v) : c ∈ m ∨ (c = (a, v) ∧ v ≠ 0#8) := by
  induction m with
  | nil => by_cases hv : v = 0#8 <;> simp_all [writeByte]
  | cons d m ih =>
    obtain ⟨b, w⟩ := d
    simp only [writeByte] at h
    split at h
    · split at h <;> (simp_all; try tauto)
    · split at h
      · split at h <;> (simp_all; try tauto)
      · rcases List.mem_cons.1 h with h | h
        · exact .inl (by simp [h])
        · rcases ih h with h | h
          · exact .inl (by simp [h])
          · exact .inr h

/-- Every write keeps the canonical form. -/
theorem MemWF.writeByte {m : List Host.Cell} (h : MemWF m) (a : Nat) (v : Byte) :
    MemWF (writeByte m a v) := by
  refine ⟨?_, fun c hc => ?_⟩
  · induction m with
    | nil => by_cases hv : v = 0#8 <;> simp [Machine.writeByte, hv]
    | cons d m ih =>
      obtain ⟨b, w⟩ := d
      obtain ⟨hs, hn⟩ := h
      have hlt := (List.pairwise_cons.1 hs).1
      have htl := (List.pairwise_cons.1 hs).2
      have hwf : MemWF m := ⟨htl, fun c hc => hn c (by simp [hc])⟩
      simp only [Machine.writeByte]
      split
      · rename_i hab
        split
        · exact hs
        · refine List.pairwise_cons.2 ⟨fun c hc => ?_, hs⟩
          rcases List.mem_cons.1 hc with rfl | hc
          · exact hab
          · exact lt_trans hab (hlt c hc)
      · split
        · rename_i hab
          subst hab
          split
          · exact htl
          · exact List.pairwise_cons.2 ⟨hlt, htl⟩
        · refine List.pairwise_cons.2 ⟨fun c hc => ?_, ih hwf⟩
          rcases mem_writeByte hc with hc | ⟨rfl, -⟩
          · exact hlt c hc
          · show b < a
            omega
  · rcases mem_writeByte hc with hc | ⟨rfl, hv⟩
    · exact h.2 c hc
    · exact hv

/-- Two register spaces in canonical form that read alike are the same data. -/
theorem MemWF.eq_of_readByte {m n : List Host.Cell} (hm : MemWF m) (hn : MemWF n)
    (h : ∀ a, readByte m a = readByte n a) : m = n := by
  induction m generalizing n with
  | nil =>
    cases n with
    | nil => rfl
    | cons d n =>
      have := h d.1
      simp [readByte] at this
      exact absurd this.symm (hn.2 d (by simp))
  | cons c m ih =>
    obtain ⟨a, v⟩ := c
    have hlt := (List.pairwise_cons.1 hm.1).1
    have hwf : MemWF m := ⟨(List.pairwise_cons.1 hm.1).2, fun c hc => hm.2 c (by simp [hc])⟩
    have hv : v ≠ 0#8 := hm.2 (a, v) (by simp)
    cases n with
    | nil =>
      have := h a
      simp [readByte] at this
      exact absurd this hv
    | cons d n =>
      obtain ⟨b, w⟩ := d
      have hlt' := (List.pairwise_cons.1 hn.1).1
      have hwf' : MemWF n := ⟨(List.pairwise_cons.1 hn.1).2, fun c hc => hn.2 c (by simp [hc])⟩
      have hw : w ≠ 0#8 := hn.2 (b, w) (by simp)
      have hab : a = b := by
        rcases Nat.lt_trichotomy a b with hab | hab | hab
        · have h1 := h a
          have h0 : readByte n a = 0#8 := readByte_of_lt fun c hc => lt_trans hab (hlt' c hc)
          simp [readByte, show a ≠ b by omega, h0] at h1
          exact absurd h1 hv
        · exact hab
        · have h1 := h b
          have h0 : readByte m b = 0#8 := readByte_of_lt fun c hc => lt_trans hab (hlt c hc)
          simp [readByte, show b ≠ a by omega, h0] at h1
          exact absurd h1.symm hw
      subst hab
      have hvw : v = w := by simpa [readByte] using h a
      subst hvw
      congr 1
      refine ih hwf hwf' fun x => ?_
      by_cases hx : x = a
      · subst hx
        rw [readByte_of_lt fun c hc => hlt c hc, readByte_of_lt fun c hc => hlt' c hc]
      · simpa [readByte, hx] using h x

end Sys2Proof.Machine
end

