-- ==== Sys2Proof/Laws/State.lean ====
section
/-! SUPPORT. One lemma per field per named state update, true by unfolding, so that no later proof unfolds a
record update. -/

namespace Sys2Proof.Machine

/-! ## `record` -/

@[simp] theorem record_cfg (e : Event) (s : State) : (record e s).cfg = s.cfg := rfl
@[simp] theorem record_mem (e : Event) (s : State) : (record e s).mem = s.mem := rfl
@[simp] theorem record_padin (e : Event) (s : State) : (record e s).padin = s.padin := rfl
@[simp] theorem record_wake (e : Event) (s : State) : (record e s).wake = s.wake := rfl
@[simp] theorem record_snap (e : Event) (s : State) : (record e s).snap = s.snap := rfl
@[simp] theorem record_snapValid (e : Event) (s : State) : (record e s).snapValid = s.snapValid := rfl
@[simp] theorem record_pm (e : Event) (s : State) : (record e s).pm = s.pm := rfl
@[simp] theorem record_lineMasked (e : Event) (s : State) :
    (record e s).lineMasked = s.lineMasked := rfl
@[simp] theorem record_delivOff (e : Event) (s : State) : (record e s).delivOff = s.delivOff := rfl
@[simp] theorem record_attached (e : Event) (s : State) : (record e s).attached = s.attached := rfl
@[simp] theorem record_fatal (e : Event) (s : State) : (record e s).fatal = s.fatal := rfl
@[simp] theorem record_lock (e : Event) (s : State) : (record e s).lock = s.lock := rfl
@[simp] theorem record_scan (e : Event) (s : State) : (record e s).scan = s.scan := rfl
@[simp] theorem record_handled (e : Event) (s : State) : (record e s).handled = s.handled := rfl
@[simp] theorem record_running (e : Event) (s : State) : (record e s).running = s.running := rfl
@[simp] theorem record_inflight (e : Event) (s : State) : (record e s).inflight = s.inflight := rfl
@[simp] theorem record_coreDark (e : Event) (s : State) : (record e s).coreDark = s.coreDark := rfl
@[simp] theorem record_port (e : Event) (s : State) : (record e s).port = s.port := rfl
@[simp] theorem record_ctx (e : Event) (s : State) : (record e s).ctx = s.ctx := rfl
@[simp] theorem record_hs (e : Event) (s : State) : (record e s).hs = s.hs := rfl
@[simp] theorem record_resp (e : Event) (s : State) : (record e s).resp = s.resp := rfl
@[simp] theorem record_log (e : Event) (s : State) : (record e s).log = s.log ++ [e] := rfl
@[simp] theorem record_windows (e : Event) (s : State) : (record e s).windows = s.windows := rfl

/-! ## `respond` -/

@[simp] theorem respond_cfg (c : Ctx) (st : Status) (d : Bool) (s : State) :
    (respond c st d s).cfg = s.cfg := rfl
@[simp] theorem respond_mem (c : Ctx) (st : Status) (d : Bool) (s : State) :
    (respond c st d s).mem = s.mem := rfl
@[simp] theorem respond_padin (c : Ctx) (st : Status) (d : Bool) (s : State) :
    (respond c st d s).padin = s.padin := rfl
@[simp] theorem respond_wake (c : Ctx) (st : Status) (d : Bool) (s : State) :
    (respond c st d s).wake = s.wake := rfl
@[simp] theorem respond_snap (c : Ctx) (st : Status) (d : Bool) (s : State) :
    (respond c st d s).snap = s.snap := rfl
@[simp] theorem respond_snapValid (c : Ctx) (st : Status) (d : Bool) (s : State) :
    (respond c st d s).snapValid = s.snapValid := rfl
@[simp] theorem respond_pm (c : Ctx) (st : Status) (d : Bool) (s : State) :
    (respond c st d s).pm = s.pm := rfl
@[simp] theorem respond_lineMasked (c : Ctx) (st : Status) (d : Bool) (s : State) :
    (respond c st d s).lineMasked = s.lineMasked := rfl
@[simp] theorem respond_delivOff (c : Ctx) (st : Status) (d : Bool) (s : State) :
    (respond c st d s).delivOff = s.delivOff := rfl
@[simp] theorem respond_attached (c : Ctx) (st : Status) (d : Bool) (s : State) :
    (respond c st d s).attached = s.attached := rfl
@[simp] theorem respond_fatal (c : Ctx) (st : Status) (d : Bool) (s : State) :
    (respond c st d s).fatal = s.fatal := rfl
@[simp] theorem respond_lock (c : Ctx) (st : Status) (d : Bool) (s : State) :
    (respond c st d s).lock = s.lock := rfl
@[simp] theorem respond_scan (c : Ctx) (st : Status) (d : Bool) (s : State) :
    (respond c st d s).scan = s.scan := rfl
@[simp] theorem respond_handled (c : Ctx) (st : Status) (d : Bool) (s : State) :
    (respond c st d s).handled = s.handled := rfl
@[simp] theorem respond_running (c : Ctx) (st : Status) (d : Bool) (s : State) :
    (respond c st d s).running = s.running := rfl
@[simp] theorem respond_inflight (c : Ctx) (st : Status) (d : Bool) (s : State) :
    (respond c st d s).inflight = s.inflight := rfl
@[simp] theorem respond_coreDark (c : Ctx) (st : Status) (d : Bool) (s : State) :
    (respond c st d s).coreDark = s.coreDark := rfl
@[simp] theorem respond_port (c : Ctx) (st : Status) (d : Bool) (s : State) :
    (respond c st d s).port = s.port := rfl
@[simp] theorem respond_ctx (c : Ctx) (st : Status) (d : Bool) (s : State) :
    (respond c st d s).ctx = s.ctx := rfl
@[simp] theorem respond_hs (c : Ctx) (st : Status) (d : Bool) (s : State) :
    (respond c st d s).hs = s.hs := rfl
@[simp] theorem respond_resp (c : Ctx) (st : Status) (d : Bool) (s : State) :
    (respond c st d s).resp = some (c, respByte st d) := rfl
@[simp] theorem respond_log (c : Ctx) (st : Status) (d : Bool) (s : State) :
    (respond c st d s).log = s.log ++ [.response c (respByte st d)] := rfl
@[simp] theorem respond_windows (c : Ctx) (st : Status) (d : Bool) (s : State) :
    (respond c st d s).windows = s.windows := rfl

/-! ## `store` -/

@[simp] theorem store_cfg (s : State) (r : Reg) (v : Byte) : (store s r v).cfg = s.cfg := rfl
@[simp] theorem store_mem (s : State) (r : Reg) (v : Byte) :
    (store s r v).mem = writeByte s.mem (regAddr s.cfg r) v := rfl
@[simp] theorem store_padin (s : State) (r : Reg) (v : Byte) : (store s r v).padin = s.padin := rfl
@[simp] theorem store_wake (s : State) (r : Reg) (v : Byte) : (store s r v).wake = s.wake := rfl
@[simp] theorem store_snap (s : State) (r : Reg) (v : Byte) : (store s r v).snap = s.snap := rfl
@[simp] theorem store_snapValid (s : State) (r : Reg) (v : Byte) :
    (store s r v).snapValid = s.snapValid := rfl
@[simp] theorem store_pm (s : State) (r : Reg) (v : Byte) : (store s r v).pm = s.pm := rfl
@[simp] theorem store_lineMasked (s : State) (r : Reg) (v : Byte) :
    (store s r v).lineMasked = s.lineMasked := rfl
@[simp] theorem store_delivOff (s : State) (r : Reg) (v : Byte) :
    (store s r v).delivOff = s.delivOff := rfl
@[simp] theorem store_attached (s : State) (r : Reg) (v : Byte) :
    (store s r v).attached = s.attached := rfl
@[simp] theorem store_fatal (s : State) (r : Reg) (v : Byte) : (store s r v).fatal = s.fatal := rfl
@[simp] theorem store_lock (s : State) (r : Reg) (v : Byte) : (store s r v).lock = s.lock := rfl
@[simp] theorem store_scan (s : State) (r : Reg) (v : Byte) : (store s r v).scan = s.scan := rfl
@[simp] theorem store_handled (s : State) (r : Reg) (v : Byte) :
    (store s r v).handled = s.handled := rfl
@[simp] theorem store_running (s : State) (r : Reg) (v : Byte) :
    (store s r v).running = s.running := rfl
@[simp] theorem store_inflight (s : State) (r : Reg) (v : Byte) :
    (store s r v).inflight = s.inflight := rfl
@[simp] theorem store_coreDark (s : State) (r : Reg) (v : Byte) :
    (store s r v).coreDark = s.coreDark := rfl
@[simp] theorem store_port (s : State) (r : Reg) (v : Byte) : (store s r v).port = s.port := rfl
@[simp] theorem store_ctx (s : State) (r : Reg) (v : Byte) : (store s r v).ctx = s.ctx := rfl
@[simp] theorem store_hs (s : State) (r : Reg) (v : Byte) : (store s r v).hs = s.hs := rfl
@[simp] theorem store_resp (s : State) (r : Reg) (v : Byte) : (store s r v).resp = s.resp := rfl
@[simp] theorem store_log (s : State) (r : Reg) (v : Byte) : (store s r v).log = s.log := rfl
@[simp] theorem store_windows (s : State) (r : Reg) (v : Byte) :
    (store s r v).windows = s.windows := rfl

/-! ## `setSnapByte` -/

@[simp] theorem setSnapByte_cfg (b : Saved × Nat) (v : Byte) (s : State) :
    (setSnapByte b v s).cfg = s.cfg := rfl
@[simp] theorem setSnapByte_mem (b : Saved × Nat) (v : Byte) (s : State) :
    (setSnapByte b v s).mem = s.mem := rfl
@[simp] theorem setSnapByte_padin (b : Saved × Nat) (v : Byte) (s : State) :
    (setSnapByte b v s).padin = s.padin := rfl
@[simp] theorem setSnapByte_wake (b : Saved × Nat) (v : Byte) (s : State) :
    (setSnapByte b v s).wake = s.wake := rfl
@[simp] theorem setSnapByte_snap (b : Saved × Nat) (v : Byte) (s : State) :
    (setSnapByte b v s).snap = s.snap.setIfInBounds (8 * savedSlot b.1 + b.2) v := rfl
@[simp] theorem setSnapByte_snapValid (b : Saved × Nat) (v : Byte) (s : State) :
    (setSnapByte b v s).snapValid = s.snapValid := rfl
@[simp] theorem setSnapByte_pm (b : Saved × Nat) (v : Byte) (s : State) :
    (setSnapByte b v s).pm = s.pm := rfl
@[simp] theorem setSnapByte_lineMasked (b : Saved × Nat) (v : Byte) (s : State) :
    (setSnapByte b v s).lineMasked = s.lineMasked := rfl
@[simp] theorem setSnapByte_delivOff (b : Saved × Nat) (v : Byte) (s : State) :
    (setSnapByte b v s).delivOff = s.delivOff := rfl
@[simp] theorem setSnapByte_attached (b : Saved × Nat) (v : Byte) (s : State) :
    (setSnapByte b v s).attached = s.attached := rfl
@[simp] theorem setSnapByte_fatal (b : Saved × Nat) (v : Byte) (s : State) :
    (setSnapByte b v s).fatal = s.fatal := rfl
@[simp] theorem setSnapByte_lock (b : Saved × Nat) (v : Byte) (s : State) :
    (setSnapByte b v s).lock = s.lock := rfl
@[simp] theorem setSnapByte_scan (b : Saved × Nat) (v : Byte) (s : State) :
    (setSnapByte b v s).scan = s.scan := rfl
@[simp] theorem setSnapByte_handled (b : Saved × Nat) (v : Byte) (s : State) :
    (setSnapByte b v s).handled = s.handled := rfl
@[simp] theorem setSnapByte_running (b : Saved × Nat) (v : Byte) (s : State) :
    (setSnapByte b v s).running = s.running := rfl
@[simp] theorem setSnapByte_inflight (b : Saved × Nat) (v : Byte) (s : State) :
    (setSnapByte b v s).inflight = s.inflight := rfl
@[simp] theorem setSnapByte_coreDark (b : Saved × Nat) (v : Byte) (s : State) :
    (setSnapByte b v s).coreDark = s.coreDark := rfl
@[simp] theorem setSnapByte_port (b : Saved × Nat) (v : Byte) (s : State) :
    (setSnapByte b v s).port = s.port := rfl
@[simp] theorem setSnapByte_ctx (b : Saved × Nat) (v : Byte) (s : State) :
    (setSnapByte b v s).ctx = s.ctx := rfl
@[simp] theorem setSnapByte_hs (b : Saved × Nat) (v : Byte) (s : State) :
    (setSnapByte b v s).hs = s.hs := rfl
@[simp] theorem setSnapByte_resp (b : Saved × Nat) (v : Byte) (s : State) :
    (setSnapByte b v s).resp = s.resp := rfl
@[simp] theorem setSnapByte_log (b : Saved × Nat) (v : Byte) (s : State) :
    (setSnapByte b v s).log = s.log := rfl
@[simp] theorem setSnapByte_windows (b : Saved × Nat) (v : Byte) (s : State) :
    (setSnapByte b v s).windows = s.windows := rfl

/-! ## `wakeSet` -/

@[simp] theorem wakeSet_cfg (p : Nat) (s : State) : (wakeSet p s).cfg = s.cfg := rfl
@[simp] theorem wakeSet_mem (p : Nat) (s : State) : (wakeSet p s).mem = s.mem := rfl
@[simp] theorem wakeSet_padin (p : Nat) (s : State) : (wakeSet p s).padin = s.padin := rfl
@[simp] theorem wakeSet_wake (p : Nat) (s : State) : (wakeSet p s).wake = s.wake ||| (1#64 <<< p) := rfl
@[simp] theorem wakeSet_snap (p : Nat) (s : State) : (wakeSet p s).snap = s.snap := rfl
@[simp] theorem wakeSet_snapValid (p : Nat) (s : State) : (wakeSet p s).snapValid = s.snapValid := rfl
@[simp] theorem wakeSet_pm (p : Nat) (s : State) : (wakeSet p s).pm = s.pm := rfl
@[simp] theorem wakeSet_lineMasked (p : Nat) (s : State) :
    (wakeSet p s).lineMasked = s.lineMasked := rfl
@[simp] theorem wakeSet_delivOff (p : Nat) (s : State) : (wakeSet p s).delivOff = s.delivOff := rfl
@[simp] theorem wakeSet_attached (p : Nat) (s : State) : (wakeSet p s).attached = s.attached := rfl
@[simp] theorem wakeSet_fatal (p : Nat) (s : State) : (wakeSet p s).fatal = s.fatal := rfl
@[simp] theorem wakeSet_lock (p : Nat) (s : State) : (wakeSet p s).lock = s.lock := rfl
@[simp] theorem wakeSet_scan (p : Nat) (s : State) : (wakeSet p s).scan = s.scan := rfl
@[simp] theorem wakeSet_handled (p : Nat) (s : State) : (wakeSet p s).handled = s.handled := rfl
@[simp] theorem wakeSet_running (p : Nat) (s : State) : (wakeSet p s).running = s.running := rfl
@[simp] theorem wakeSet_inflight (p : Nat) (s : State) : (wakeSet p s).inflight = s.inflight := rfl
@[simp] theorem wakeSet_coreDark (p : Nat) (s : State) : (wakeSet p s).coreDark = s.coreDark := rfl
@[simp] theorem wakeSet_port (p : Nat) (s : State) : (wakeSet p s).port = s.port := rfl
@[simp] theorem wakeSet_ctx (p : Nat) (s : State) : (wakeSet p s).ctx = s.ctx := rfl
@[simp] theorem wakeSet_hs (p : Nat) (s : State) : (wakeSet p s).hs = s.hs := rfl
@[simp] theorem wakeSet_resp (p : Nat) (s : State) : (wakeSet p s).resp = s.resp := rfl
@[simp] theorem wakeSet_log (p : Nat) (s : State) : (wakeSet p s).log = s.log := rfl
@[simp] theorem wakeSet_windows (p : Nat) (s : State) : (wakeSet p s).windows = s.windows := rfl

/-! ## `wakeClear` -/

@[simp] theorem wakeClear_cfg (p : Nat) (s : State) : (wakeClear p s).cfg = s.cfg := rfl
@[simp] theorem wakeClear_mem (p : Nat) (s : State) : (wakeClear p s).mem = s.mem := rfl
@[simp] theorem wakeClear_padin (p : Nat) (s : State) : (wakeClear p s).padin = s.padin := rfl
@[simp] theorem wakeClear_wake (p : Nat) (s : State) :
    (wakeClear p s).wake = s.wake &&& ~~~(1#64 <<< p) := rfl
@[simp] theorem wakeClear_snap (p : Nat) (s : State) : (wakeClear p s).snap = s.snap := rfl
@[simp] theorem wakeClear_snapValid (p : Nat) (s : State) :
    (wakeClear p s).snapValid = s.snapValid := rfl
@[simp] theorem wakeClear_pm (p : Nat) (s : State) : (wakeClear p s).pm = s.pm := rfl
@[simp] theorem wakeClear_lineMasked (p : Nat) (s : State) :
    (wakeClear p s).lineMasked = s.lineMasked := rfl
@[simp] theorem wakeClear_delivOff (p : Nat) (s : State) : (wakeClear p s).delivOff = s.delivOff := rfl
@[simp] theorem wakeClear_attached (p : Nat) (s : State) : (wakeClear p s).attached = s.attached := rfl
@[simp] theorem wakeClear_fatal (p : Nat) (s : State) : (wakeClear p s).fatal = s.fatal := rfl
@[simp] theorem wakeClear_lock (p : Nat) (s : State) : (wakeClear p s).lock = s.lock := rfl
@[simp] theorem wakeClear_scan (p : Nat) (s : State) : (wakeClear p s).scan = s.scan := rfl
@[simp] theorem wakeClear_handled (p : Nat) (s : State) : (wakeClear p s).handled = s.handled := rfl
@[simp] theorem wakeClear_running (p : Nat) (s : State) : (wakeClear p s).running = s.running := rfl
@[simp] theorem wakeClear_inflight (p : Nat) (s : State) : (wakeClear p s).inflight = s.inflight := rfl
@[simp] theorem wakeClear_coreDark (p : Nat) (s : State) : (wakeClear p s).coreDark = s.coreDark := rfl
@[simp] theorem wakeClear_port (p : Nat) (s : State) : (wakeClear p s).port = s.port := rfl
@[simp] theorem wakeClear_ctx (p : Nat) (s : State) : (wakeClear p s).ctx = s.ctx := rfl
@[simp] theorem wakeClear_hs (p : Nat) (s : State) : (wakeClear p s).hs = s.hs := rfl
@[simp] theorem wakeClear_resp (p : Nat) (s : State) : (wakeClear p s).resp = s.resp := rfl
@[simp] theorem wakeClear_log (p : Nat) (s : State) : (wakeClear p s).log = s.log := rfl
@[simp] theorem wakeClear_windows (p : Nat) (s : State) : (wakeClear p s).windows = s.windows := rfl

/-! ## `notifyPin` -/

@[simp] theorem notifyPin_cfg (p : Nat) (s : State) : (notifyPin p s).cfg = s.cfg := rfl
@[simp] theorem notifyPin_mem (p : Nat) (s : State) : (notifyPin p s).mem = s.mem := rfl
@[simp] theorem notifyPin_padin (p : Nat) (s : State) : (notifyPin p s).padin = s.padin := rfl
@[simp] theorem notifyPin_wake (p : Nat) (s : State) : (notifyPin p s).wake = s.wake := rfl
@[simp] theorem notifyPin_snap (p : Nat) (s : State) : (notifyPin p s).snap = s.snap := rfl
@[simp] theorem notifyPin_snapValid (p : Nat) (s : State) :
    (notifyPin p s).snapValid = s.snapValid := rfl
@[simp] theorem notifyPin_pm (p : Nat) (s : State) : (notifyPin p s).pm = s.pm := rfl
@[simp] theorem notifyPin_lineMasked (p : Nat) (s : State) :
    (notifyPin p s).lineMasked = s.lineMasked := rfl
@[simp] theorem notifyPin_delivOff (p : Nat) (s : State) : (notifyPin p s).delivOff = s.delivOff := rfl
@[simp] theorem notifyPin_attached (p : Nat) (s : State) : (notifyPin p s).attached = s.attached := rfl
@[simp] theorem notifyPin_fatal (p : Nat) (s : State) : (notifyPin p s).fatal = s.fatal := rfl
@[simp] theorem notifyPin_lock (p : Nat) (s : State) : (notifyPin p s).lock = s.lock := rfl
@[simp] theorem notifyPin_scan (p : Nat) (s : State) : (notifyPin p s).scan = s.scan := rfl
@[simp] theorem notifyPin_handled (p : Nat) (s : State) : (notifyPin p s).handled = true := rfl
@[simp] theorem notifyPin_running (p : Nat) (s : State) : (notifyPin p s).running = s.running := rfl
@[simp] theorem notifyPin_inflight (p : Nat) (s : State) : (notifyPin p s).inflight = s.inflight := rfl
@[simp] theorem notifyPin_coreDark (p : Nat) (s : State) : (notifyPin p s).coreDark = s.coreDark := rfl
@[simp] theorem notifyPin_port (p : Nat) (s : State) : (notifyPin p s).port = s.port := rfl
@[simp] theorem notifyPin_ctx (p : Nat) (s : State) : (notifyPin p s).ctx = s.ctx := rfl
@[simp] theorem notifyPin_hs (p : Nat) (s : State) : (notifyPin p s).hs = s.hs := rfl
@[simp] theorem notifyPin_resp (p : Nat) (s : State) : (notifyPin p s).resp = s.resp := rfl
@[simp] theorem notifyPin_log (p : Nat) (s : State) :
    (notifyPin p s).log = s.log ++ [.notify (virqOf s.cfg p)] := rfl
@[simp] theorem notifyPin_windows (p : Nat) (s : State) : (notifyPin p s).windows = s.windows := rfl

/-! ## `dispatchEnter` -/

@[simp] theorem dispatchEnter_cfg (s : State) : (dispatchEnter s).cfg = s.cfg := rfl
@[simp] theorem dispatchEnter_mem (s : State) : (dispatchEnter s).mem = s.mem := rfl
@[simp] theorem dispatchEnter_padin (s : State) : (dispatchEnter s).padin = s.padin := rfl
@[simp] theorem dispatchEnter_wake (s : State) : (dispatchEnter s).wake = s.wake := rfl
@[simp] theorem dispatchEnter_snap (s : State) : (dispatchEnter s).snap = s.snap := rfl
@[simp] theorem dispatchEnter_snapValid (s : State) : (dispatchEnter s).snapValid = s.snapValid := rfl
@[simp] theorem dispatchEnter_pm (s : State) : (dispatchEnter s).pm = s.pm := rfl
@[simp] theorem dispatchEnter_lineMasked (s : State) :
    (dispatchEnter s).lineMasked = s.lineMasked := rfl
@[simp] theorem dispatchEnter_delivOff (s : State) : (dispatchEnter s).delivOff = s.delivOff := rfl
@[simp] theorem dispatchEnter_attached (s : State) : (dispatchEnter s).attached = s.attached := rfl
@[simp] theorem dispatchEnter_fatal (s : State) : (dispatchEnter s).fatal = s.fatal := rfl
@[simp] theorem dispatchEnter_lock (s : State) : (dispatchEnter s).lock = s.lock := rfl
@[simp] theorem dispatchEnter_scan (s : State) : (dispatchEnter s).scan = 0 := rfl
@[simp] theorem dispatchEnter_handled (s : State) : (dispatchEnter s).handled = false := rfl
@[simp] theorem dispatchEnter_running (s : State) : (dispatchEnter s).running = s.running := rfl
@[simp] theorem dispatchEnter_inflight (s : State) : (dispatchEnter s).inflight = s.inflight := rfl
@[simp] theorem dispatchEnter_coreDark (s : State) : (dispatchEnter s).coreDark = s.coreDark := rfl
@[simp] theorem dispatchEnter_port (s : State) : (dispatchEnter s).port = s.port := rfl
@[simp] theorem dispatchEnter_ctx (s : State) : (dispatchEnter s).ctx = s.ctx := rfl
@[simp] theorem dispatchEnter_hs (s : State) : (dispatchEnter s).hs = s.hs := rfl
@[simp] theorem dispatchEnter_resp (s : State) : (dispatchEnter s).resp = s.resp := rfl
@[simp] theorem dispatchEnter_log (s : State) : (dispatchEnter s).log = s.log := rfl
@[simp] theorem dispatchEnter_windows (s : State) : (dispatchEnter s).windows = s.windows := rfl

/-! ## `attachInit` -/

@[simp] theorem attachInit_cfg (s : State) : (attachInit s).cfg = s.cfg := rfl
@[simp] theorem attachInit_mem (s : State) : (attachInit s).mem = s.mem := rfl
@[simp] theorem attachInit_padin (s : State) : (attachInit s).padin = s.padin := rfl
@[simp] theorem attachInit_wake (s : State) : (attachInit s).wake = 0#64 := rfl
@[simp] theorem attachInit_snap (s : State) : (attachInit s).snap = s.snap := rfl
@[simp] theorem attachInit_snapValid (s : State) : (attachInit s).snapValid = false := rfl
@[simp] theorem attachInit_pm (s : State) : (attachInit s).pm = .active := rfl
@[simp] theorem attachInit_lineMasked (s : State) : (attachInit s).lineMasked = false := rfl
@[simp] theorem attachInit_delivOff (s : State) : (attachInit s).delivOff = false := rfl
@[simp] theorem attachInit_attached (s : State) : (attachInit s).attached = s.attached := rfl
@[simp] theorem attachInit_fatal (s : State) : (attachInit s).fatal = s.fatal := rfl
@[simp] theorem attachInit_lock (s : State) : (attachInit s).lock = .free := rfl
@[simp] theorem attachInit_scan (s : State) : (attachInit s).scan = s.scan := rfl
@[simp] theorem attachInit_handled (s : State) : (attachInit s).handled = s.handled := rfl
@[simp] theorem attachInit_running (s : State) : (attachInit s).running = s.running := rfl
@[simp] theorem attachInit_inflight (s : State) : (attachInit s).inflight = s.inflight := rfl
@[simp] theorem attachInit_coreDark (s : State) : (attachInit s).coreDark = false := rfl
@[simp] theorem attachInit_port (s : State) : (attachInit s).port = s.port := rfl
@[simp] theorem attachInit_ctx (s : State) : (attachInit s).ctx = s.ctx := rfl
@[simp] theorem attachInit_hs (s : State) : (attachInit s).hs = s.hs := rfl
@[simp] theorem attachInit_resp (s : State) : (attachInit s).resp = s.resp := rfl
@[simp] theorem attachInit_log (s : State) : (attachInit s).log = s.log := rfl
@[simp] theorem attachInit_windows (s : State) : (attachInit s).windows = s.windows := rfl

/-! ## `loadRequest` -/

@[simp] theorem loadRequest_cfg (r : Request) (rest : List Request) (s : State) :
    (loadRequest r rest s).cfg = s.cfg := rfl
@[simp] theorem loadRequest_mem (r : Request) (rest : List Request) (s : State) :
    (loadRequest r rest s).mem = s.mem := rfl
@[simp] theorem loadRequest_padin (r : Request) (rest : List Request) (s : State) :
    (loadRequest r rest s).padin = s.padin := rfl
@[simp] theorem loadRequest_wake (r : Request) (rest : List Request) (s : State) :
    (loadRequest r rest s).wake = s.wake := rfl
@[simp] theorem loadRequest_snap (r : Request) (rest : List Request) (s : State) :
    (loadRequest r rest s).snap = s.snap := rfl
@[simp] theorem loadRequest_snapValid (r : Request) (rest : List Request) (s : State) :
    (loadRequest r rest s).snapValid = s.snapValid := rfl
@[simp] theorem loadRequest_pm (r : Request) (rest : List Request) (s : State) :
    (loadRequest r rest s).pm = s.pm := rfl
@[simp] theorem loadRequest_lineMasked (r : Request) (rest : List Request) (s : State) :
    (loadRequest r rest s).lineMasked = s.lineMasked := rfl
@[simp] theorem loadRequest_delivOff (r : Request) (rest : List Request) (s : State) :
    (loadRequest r rest s).delivOff = s.delivOff := rfl
@[simp] theorem loadRequest_attached (r : Request) (rest : List Request) (s : State) :
    (loadRequest r rest s).attached = s.attached := rfl
@[simp] theorem loadRequest_fatal (r : Request) (rest : List Request) (s : State) :
    (loadRequest r rest s).fatal = s.fatal := rfl
@[simp] theorem loadRequest_lock (r : Request) (rest : List Request) (s : State) :
    (loadRequest r rest s).lock = s.lock := rfl
@[simp] theorem loadRequest_scan (r : Request) (rest : List Request) (s : State) :
    (loadRequest r rest s).scan = s.scan := rfl
@[simp] theorem loadRequest_handled (r : Request) (rest : List Request) (s : State) :
    (loadRequest r rest s).handled = s.handled := rfl
@[simp] theorem loadRequest_running (r : Request) (rest : List Request) (s : State) :
    (loadRequest r rest s).running = s.running := rfl
@[simp] theorem loadRequest_inflight (r : Request) (rest : List Request) (s : State) :
    (loadRequest r rest s).inflight = s.inflight := rfl
@[simp] theorem loadRequest_coreDark (r : Request) (rest : List Request) (s : State) :
    (loadRequest r rest s).coreDark = s.coreDark := rfl
@[simp] theorem loadRequest_port (r : Request) (rest : List Request) (s : State) :
    (loadRequest r rest s).port = rest := rfl
@[simp] theorem loadRequest_ctx (r : Request) (rest : List Request) (s : State) :
    (loadRequest r rest s).ctx = r.ctx := rfl
@[simp] theorem loadRequest_hs (r : Request) (rest : List Request) (s : State) :
    (loadRequest r rest s).hs = r.hs := rfl
@[simp] theorem loadRequest_resp (r : Request) (rest : List Request) (s : State) :
    (loadRequest r rest s).resp = s.resp := rfl
@[simp] theorem loadRequest_log (r : Request) (rest : List Request) (s : State) :
    (loadRequest r rest s).log = s.log ++ [.command r.ctx r.word] := rfl
@[simp] theorem loadRequest_windows (r : Request) (rest : List Request) (s : State) :
    (loadRequest r rest s).windows = s.windows := rfl

end Sys2Proof.Machine
end

