-- ==== Sys2Proof/Laws/Page.lean ====
section
/-! SUPPORT. The laws of the register page: what a store changes, the bits of the masks, reads and writes per
kind (20_memory.md R69, R70). -/

namespace Sys2Proof.Machine

/-! ## Bits -/

theorem oneHot_bit {j i : Nat} (hj : j < 8) : (oneHot j).getLsbD i = decide (i = j) := by
  simp only [oneHot, BitVec.getLsbD_shiftLeft, BitVec.getLsbD_one]
  by_cases h : i = j
  · subst h; simp [hj]
  · simp [h]; omega

/-- The bits of a byte with one bit replaced (R128). -/
theorem setBit_bit (b : Byte) {j : Nat} (i : Nat) (v : Bool) (hj : j < 8) :
    (setBit b j v).getLsbD i = if i = j then v else b.getLsbD i := by
  cases v <;> by_cases h : i = j
  · subst h; simp [setBit, oneHot_bit hj]
  · by_cases hi : i < 8
    · simp only [setBit, Bool.false_eq_true, if_false, BitVec.getLsbD_and, BitVec.getLsbD_not, oneHot_bit hj, h,
        hi, decide_true, decide_false, Bool.not_false, Bool.and_true]
    · simp [setBit, h, BitVec.getLsbD_of_ge _ _ (Nat.le_of_not_lt hi)]
  · subst h; simp [setBit, oneHot_bit hj]
  · simp [setBit, oneHot_bit hj, h]

/-- The pin bits of a byte (R23, R33). -/
theorem pinMask_bit (c : Config) (w : Well) (i j : Nat) (hj : j < 8) :
    (pinMask c w i).getLsbD j = decide (8 * i + j < pinsIn c w) := by
  simp only [pinMask, BitVec.getLsbD_ofNat, Nat.testBit_two_pow_sub_one, hj, decide_true, Bool.true_and]
  congr 1
  simp only [eq_iff_iff]
  omega

theorem padByte_bit (s : State) (w : Well) (i j : Nat) (hj : j < 8) :
    (padByte s w i).getLsbD j = s.padin.getLsbD (firstPin s.cfg w + 8 * i + j) := by
  simp [padByte, hj]

theorem inputMask_bit (s : State) (w : Well) (i j : Nat) (hj : j < 8) :
    (inputMask s w i).getLsbD j =
      ((stored s ⟨.dir, w, i⟩).getLsbD j && decide (8 * i + j < pinsIn s.cfg w)) := by
  simp [inputMask, pinMask_bit _ _ _ _ hj]

/-- The bits a read of `LVL` returns (R26, R69). -/
theorem readReg_lvl_bit (s : State) (w : Well) (i j : Nat) (hj : j < 8) :
    (readReg s ⟨.lvl, w, i⟩).getLsbD j =
      if (stored s ⟨.dir, w, i⟩).getLsbD j = true ∧ 8 * i + j < pinsIn s.cfg w
      then s.padin.getLsbD (firstPin s.cfg w + 8 * i + j) else (stored s ⟨.lvl, w, i⟩).getLsbD j := by
  simp only [readReg, BitVec.getLsbD_or, BitVec.getLsbD_and, BitVec.getLsbD_not, hj, decide_true,
    Bool.true_and, inputMask_bit _ _ _ _ hj, padByte_bit _ _ _ _ hj]
  by_cases h1 : (stored s ⟨.dir, w, i⟩).getLsbD j = true <;>
    by_cases h2 : 8 * i + j < pinsIn s.cfg w <;> simp [h1, h2]

/-! ## Stores -/

theorem stored_store_same {s : State} (h : MemWF s.mem) (r : Reg) (v : Byte) :
    stored (store s r v) r = v := readByte_writeByte_same h _ _

theorem stored_store_ne {s : State} (h : ConfigWF s.cfg) {r q : Reg} (hr : r ∈ regs s.cfg)
    (hq : q ∈ regs s.cfg) (v : Byte) (hne : q ≠ r) : stored (store s r v) q = stored s q :=
  readByte_writeByte_ne _ _ fun e => hne (regAddr_inj h hq hr e)

theorem store_keeps_wf {s : State} (h : MemWF s.mem) (r : Reg) (v : Byte) : MemWF (store s r v).mem :=
  h.writeByte _ _

theorem store_keepsOtherBytes (s : State) (r : Reg) (v : Byte) : KeepsOtherBytes s (store s r v) r :=
  fun _ ha => readByte_writeByte_ne _ _ ha

/-- The byte a write of `v` leaves in a register (R70). -/
def writtenByte (s : State) (r : Reg) (v : Byte) : Byte :=
  match r.kind with
  | .sts => stored s r &&& ~~~v
  | .lvl => (stored s r &&& inputMask s r.well r.idx) ||| (v &&& ~~~(inputMask s r.well r.idx))
  | .en | .dir | .rte | .fte | .gpe | .smi | .nmi => v

/-- A register write is one store: everything it can do. -/
theorem writeReg_eq_store (s : State) (r : Reg) (v : Byte) :
    writeReg s r v = store s r (writtenByte s r v) := by
  obtain ⟨k, w, i⟩ := r
  cases k <;> rfl

theorem writtenByte_of_plain {s : State} {r : Reg} {v : Byte} (h1 : r.kind ≠ .sts) (h2 : r.kind ≠ .lvl) :
    writtenByte s r v = v := by
  obtain ⟨k, w, i⟩ := r
  cases k <;> simp_all [writtenByte]

theorem readReg_of_not_lvl {s : State} {r : Reg} (h : r.kind ≠ .lvl) : readReg s r = stored s r := by
  obtain ⟨k, w, i⟩ := r
  cases k <;> simp_all [readReg]

/-- The bits a write of `LVL` leaves (R26, R70). -/
theorem writtenByte_lvl_bit (s : State) (w : Well) (i j : Nat) (v : Byte) (hj : j < 8) :
    (writtenByte s ⟨.lvl, w, i⟩ v).getLsbD j =
      if (stored s ⟨.dir, w, i⟩).getLsbD j = true ∧ 8 * i + j < pinsIn s.cfg w
      then (stored s ⟨.lvl, w, i⟩).getLsbD j else v.getLsbD j := by
  simp only [writtenByte, BitVec.getLsbD_or, BitVec.getLsbD_and, BitVec.getLsbD_not, hj, decide_true,
    Bool.true_and, inputMask_bit _ _ _ _ hj]
  by_cases h1 : (stored s ⟨.dir, w, i⟩).getLsbD j = true <;>
    by_cases h2 : 8 * i + j < pinsIn s.cfg w <;> simp [h1, h2]

/-- The level of a pin is its bit of a read of `LVL` (R26). -/
theorem level_eq_read_bit (s : State) {p : Nat} (hp : p < s.cfg.pinCount) :
    (readReg s (regOf s.cfg .lvl p)).getLsbD (bitOf s.cfg p) = level s p := by
  have hin : 8 * (pinInWell s.cfg p / 8) + bitOf s.cfg p < pinsIn s.cfg (wellOf s.cfg p) := by
    simp only [bitOf, wellOf, pinInWell]
    split <;> simp only [pinsIn] <;> omega
  rw [show regOf s.cfg .lvl p = ⟨.lvl, wellOf s.cfg p, pinInWell s.cfg p / 8⟩ from rfl,
    readReg_lvl_bit _ _ _ _ (bitOf_lt _ _), pin_eq]
  simp only [level, latch, pinBit, regOf, hin, and_true]
  split <;> simp_all

/-- Two states that agree on the page, the pads and the configuration read alike. -/
theorem stored_congr {s t : State} (hm : t.mem = s.mem) (hc : t.cfg = s.cfg) (r : Reg) :
    stored t r = stored s r := by simp [stored, hm, hc]

theorem readReg_congr {s t : State} (hm : t.mem = s.mem) (hp : t.padin = s.padin) (hc : t.cfg = s.cfg)
    (r : Reg) : readReg t r = readReg s r := by
  obtain ⟨k, w, i⟩ := r
  cases k <;> simp [readReg, inputMask, padByte, stored_congr hm hc, hp, hc]

theorem writtenByte_congr {s t : State} (hm : t.mem = s.mem) (hc : t.cfg = s.cfg) (r : Reg) (v : Byte) :
    writtenByte t r v = writtenByte s r v := by
  obtain ⟨k, w, i⟩ := r
  cases k <;> simp [writtenByte, inputMask, stored_congr hm hc, hc]

end Sys2Proof.Machine
end

