-- ==== Sys2Proof/Laws/Ops.lean ====
section
/-! SUPPORT. What each shared operation does, said once: sequencing, windows, accesses, atomic blocks, pieces.
The lemmas named `_quiet` are about states in which no other agent acts (`windows = []`). -/

namespace Sys2Proof.Machine

/-! ## Sequencing -/

@[simp] theorem andThen_next {α β : Type} (x : α) (f : α → Res β) : andThen (.next x) f = f x := rfl
@[simp] theorem andThen_fault {α β : Type} (r : Fault) (f : α → Res β) :
    andThen (.fault r : Res α) f = .fault r := rfl
@[simp] theorem andThen_refused {α β : Type} (r : Refusal) (f : α → Res β) :
    andThen (.refused r : Res α) f = .refused r := rfl

/-- A sequence answers a next state exactly when both parts do. -/
theorem andThen_eq_next {α β : Type} {o : Res α} {f : α → Res β} {y : β} :
    andThen o f = .next y ↔ ∃ x, o = .next x ∧ f x = .next y := by
  cases o <;> simp [andThen]

theorem andThen_eq_fault {α β : Type} {o : Res α} {f : α → Res β} {r : Fault} :
    andThen o f = .fault r ↔ o = .fault r ∨ ∃ x, o = .next x ∧ f x = .fault r := by
  cases o <;> simp [andThen]

theorem andThen_eq_refused {α β : Type} {o : Res α} {f : α → Res β} {r : Refusal} :
    andThen o f = .refused r ↔ o = .refused r ∨ ∃ x, o = .next x ∧ f x = .refused r := by
  cases o <;> simp [andThen]

/-! ## Environment steps -/

/-- A pending bit set changes the page alone. -/
theorem setPending_frame (p : Nat) (s : State) : setPending p s = { s with mem := (setPending p s).mem } := by
  unfold setPending
  split <;> rfl

theorem setPending_keeps_wf {p : Nat} {s : State} (h : MemWF s.mem) : MemWF (setPending p s).mem := by
  unfold setPending
  split
  exacts [h.writeByte _ _, h]

/-- Everything an environment step can change: the page, the pads, `coreDark` and the history. -/
theorem envStep_frame (e : EnvStep) (s : State) :
    envStep e s = { s with
      mem := (envStep e s).mem, padin := (envStep e s).padin, coreDark := (envStep e s).coreDark,
      log := (envStep e s).log } := by
  unfold envStep
  split
  · cases e with
    | pad p v => rfl
    | edge p e =>
      simp only [envEffect]
      split
      · rw [setPending_frame]; rfl
      · rfl
    | regWrite off v =>
      simp only [envEffect]
      split
      · simp only [writeReg_eq_store]; rfl
      · rfl
    | powerLoss draw =>
      have key : ∀ (l : List Reg) (s : State),
          l.foldl (fun s r => store s r (lostByte draw r)) s =
            { s with mem := (l.foldl (fun s r => store s r (lostByte draw r)) s).mem } := by
        intro l
        induction l with
        | nil => intro s; rfl
        | cons r l ih => intro s; simp only [List.foldl_cons]; rw [ih]; rfl
      simp only [envEffect, loseCore, record]
      rw [key]
  · rfl

/-- The environment keeps the page's canonical form. -/
theorem envStep_keeps_wf {e : EnvStep} {s : State} (h : MemWF s.mem) : MemWF (envStep e s).mem := by
  unfold envStep
  split
  · cases e with
    | pad p v => exact h
    | edge p e => simp only [envEffect, record_mem]; split; exacts [setPending_keeps_wf h, h]
    | regWrite off v =>
      simp only [envEffect, record_mem]
      split
      · rw [writeReg_eq_store]; exact h.writeByte _ _
      · exact h
    | powerLoss draw =>
      have key : ∀ (l : List Reg) (s : State), MemWF s.mem →
          MemWF (l.foldl (fun s r => store s r (lostByte draw r)) s).mem := by
        intro l
        induction l with
        | nil => intro s h; exact h
        | cons r l ih => intro s h; exact ih _ (h.writeByte _ _)
      exact key _ _ h
  · exact h

/-- Everything the environment's moves in a window can change. -/
theorem envMoves_frame (ms : List Move) (s : State) :
    envMoves ms s = { s with
      mem := (envMoves ms s).mem, padin := (envMoves ms s).padin,
      coreDark := (envMoves ms s).coreDark, log := (envMoves ms s).log } := by
  induction ms generalizing s with
  | nil => rfl
  | cons m ms ih =>
    cases m with
    | env e => simp only [envMoves]; rw [ih, envStep_frame]
    | start r => exact ih s
    | advance c => exact ih s

theorem envMoves_keeps_wf {ms : List Move} {s : State} (h : MemWF s.mem) : MemWF (envMoves ms s).mem := by
  induction ms generalizing s with
  | nil => exact h
  | cons m ms ih =>
    cases m with
    | env e => exact ih (envStep_keeps_wf h)
    | start r => exact ih h
    | advance c => exact ih h

/-- Everything the window before an access can change. -/
theorem envWindow_frame (s : State) :
    envWindow s = { s with
      mem := (envWindow s).mem, padin := (envWindow s).padin, coreDark := (envWindow s).coreDark,
      log := (envWindow s).log, windows := s.windows.tail } := by
  unfold envWindow
  split
  · rename_i h; cases s; simp only at h; subst h; rfl
  · rename_i h; rw [envMoves_frame]; simp [h]

theorem envWindow_keeps_wf {s : State} (h : MemWF s.mem) : MemWF (envWindow s).mem := by
  unfold envWindow
  split
  · exact h
  · exact envMoves_keeps_wf (s := { s with windows := _ }) h

/-- The history only grows (R46). -/
theorem envStep_log (e : EnvStep) (s : State) : ∃ l, (envStep e s).log = s.log ++ l := by
  unfold envStep
  split
  · refine ⟨[.env e], ?_⟩
    rw [record_log]
    congr 1
    cases e with
    | pad p v => rfl
    | edge p e =>
      simp only [envEffect]
      split
      · rw [setPending_frame]
      · rfl
    | regWrite off v =>
      simp only [envEffect]
      split
      · rw [writeReg_eq_store]; rfl
      · rfl
    | powerLoss draw =>
      have key : ∀ (l : List Reg) (s : State),
          (l.foldl (fun s r => store s r (lostByte draw r)) s).log = s.log := by
        intro l
        induction l with
        | nil => intro s; rfl
        | cons r l ih => intro s; exact ih _
      exact key _ s
  · exact ⟨[], by simp⟩

theorem envMoves_log (ms : List Move) (s : State) : ∃ l, (envMoves ms s).log = s.log ++ l := by
  induction ms generalizing s with
  | nil => exact ⟨[], by simp [envMoves]⟩
  | cons m ms ih =>
    cases m with
    | env e =>
      obtain ⟨l, hl⟩ := envStep_log e s
      obtain ⟨k, hk⟩ := ih (envStep e s)
      exact ⟨l ++ k, by rw [envMoves, hk, hl, List.append_assoc]⟩
    | start r => exact ih s
    | advance c => exact ih s

theorem envWindow_log (s : State) : ∃ l, (envWindow s).log = s.log ++ l := by
  unfold envWindow
  split
  · exact ⟨[], by simp⟩
  · exact envMoves_log _ { s with windows := _ }

@[simp] theorem envWindow_cfg (s : State) : (envWindow s).cfg = s.cfg := by rw [envWindow_frame]

theorem envWindow_quiet {s : State} (h : s.windows = []) : envWindow s = s := by
  simp [envWindow, h]

theorem window_quiet {s : State} (h : s.windows = []) : window s = .next s := by
  simp [window, h]

/-! ## Accesses -/

/-- A read of a register of the bank, whatever the environment does before it. -/
theorem regRead_regOff {s : State} (hc : ConfigWF s.cfg) {r : Reg} (hr : r ∈ regs s.cfg) (c : Ctx) :
    regRead c (regOff s.cfg r) s =
      .next (readReg (envWindow s) r,
        record (.read c (regOff s.cfg r) (readReg (envWindow s) r)) (envWindow s)) := by
  simp [regRead, locate_regOff hc hr]

/-- A write of a register of the bank, whatever the environment does before it. -/
theorem regWrite_regOff {s : State} (hc : ConfigWF s.cfg) {r : Reg} (hr : r ∈ regs s.cfg) (c : Ctx)
    (v : Byte) :
    regWrite c (regOff s.cfg r) v s =
      .next (record (.write c (regOff s.cfg r) v) (writeReg (envWindow s) r v)) := by
  simp [regWrite, locate_regOff hc hr]

theorem withPin_of_lt {α : Type} {c : Config} {p : Nat} (hp : p < c.pinCount) (k : Kind)
    (f : Nat → Nat → Res α) : withPin c p k f = f (regOff c (regOf c k p)) (bitOf c p) := by
  simp [withPin, offset?_of_lt k hp, bit?_of_lt hp]

/-- The state after a `BitRMW` in a quiet state (R128). -/
def afterRmw (c : Ctx) (op : BitOp) (s : State) : State :=
  record (.write c (regOff s.cfg (regOf s.cfg op.kind op.pin))
      (setBit (readReg s (regOf s.cfg op.kind op.pin)) (bitOf s.cfg op.pin) op.v))
    (writeReg (record (.read c (regOff s.cfg (regOf s.cfg op.kind op.pin))
        (readReg s (regOf s.cfg op.kind op.pin))) s)
      (regOf s.cfg op.kind op.pin)
      (setBit (readReg s (regOf s.cfg op.kind op.pin)) (bitOf s.cfg op.pin) op.v))

/-- A `BitRMW` of a valid pin completes: a read, then a write. -/
theorem bitRmw_quiet {s : State} (hc : ConfigWF s.cfg) (hw : s.windows = []) (c : Ctx) {op : BitOp}
    (hp : op.pin < s.cfg.pinCount) : bitRmw c op s = .next (afterRmw c op s) := by
  have hr := regOf_mem op.kind hp
  simp only [bitRmw, withPin_of_lt hp, regRead_regOff hc hr, envWindow_quiet hw, andThen_next]
  rw [← record_cfg (.read c (regOff s.cfg (regOf s.cfg op.kind op.pin))
      (readReg s (regOf s.cfg op.kind op.pin))) s] at hc hr
  have := regWrite_regOff (s := record (.read c (regOff s.cfg (regOf s.cfg op.kind op.pin))
      (readReg s (regOf s.cfg op.kind op.pin))) s) hc hr c
    (setBit (readReg s (regOf s.cfg op.kind op.pin)) (bitOf s.cfg op.pin) op.v)
  rw [envWindow_quiet (by simpa using hw)] at this
  simpa [afterRmw] using this

/-- A `BitTest` of a valid pin completes: one read. -/
theorem bitTest_quiet {s : State} (hc : ConfigWF s.cfg) (hw : s.windows = []) (c : Ctx) {p : Nat} (k : Kind)
    (hp : p < s.cfg.pinCount) :
    bitTest c p k s =
      .next ((readReg s (regOf s.cfg k p)).getLsbD (bitOf s.cfg p),
        record (.read c (regOff s.cfg (regOf s.cfg k p)) (readReg s (regOf s.cfg k p))) s) := by
  simp [bitTest, withPin_of_lt hp, regRead_regOff hc (regOf_mem k hp), envWindow_quiet hw]

/-- The acknowledge of a valid pin completes: one write. -/
theorem ackWrite_quiet {s : State} (hc : ConfigWF s.cfg) (hw : s.windows = []) (c : Ctx) {p : Nat}
    (hp : p < s.cfg.pinCount) :
    ackWrite c p s =
      .next (record (.write c (regOff s.cfg (regOf s.cfg .sts p)) (oneHot (bitOf s.cfg p)))
        (writeReg s (regOf s.cfg .sts p) (oneHot (bitOf s.cfg p)))) := by
  simp [ackWrite, withPin_of_lt hp, regWrite_regOff hc (regOf_mem .sts hp), envWindow_quiet hw]

/-! ## Atomic blocks and pieces -/

theorem atomic_free {α : Type} {s : State} (h : s.lock = .free) (c : Ctx)
    (body : State → Res (α × State)) :
    atomic c body s =
      andThen (body { s with lock := .held c }) fun r => .next (r.1, { r.2 with lock := .free }) := by
  simp [atomic, h]

/-- An atomic block that completes leaves `LOCK` free (R42). -/
theorem atomic_next {α : Type} {s : State} {c : Ctx} {body : State → Res (α × State)} {r : α × State}
    (h : atomic c body s = .next r) :
    s.lock = .free ∧ r.2.lock = .free ∧
      ∃ t, body { s with lock := .held c } = .next (r.1, t) ∧ r.2 = { t with lock := .free } := by
  unfold atomic at h
  split at h
  · rename_i hl
    obtain ⟨⟨x, t⟩, hb, he⟩ := andThen_eq_next.1 h
    simp only [Host.Outcome.next.injEq] at he
    subst he
    exact ⟨hl, rfl, t, hb, rfl⟩
  · cases h

theorem atomicDo_free {s : State} (h : s.lock = .free) (c : Ctx) (bit : Bool) (body : State → Res State) :
    atomicDo c bit body s =
      andThen (body { s with lock := .held c }) fun t => .next (bit, { t with lock := .free }) := by
  simp only [atomicDo, atomic_free h]
  cases body { s with lock := .held c } <;> rfl

@[simp] theorem runPieces_nil (c : Ctx) (bit : Bool) (s : State) :
    runPieces c [] bit s = .next { s with running := none } := rfl

/-- One piece of a command when no other agent acts. -/
theorem runPieces_quiet {s : State} (h : s.windows = []) (c : Ctx) (a : Action) (todo : List Action)
    (bit : Bool) :
    runPieces c (a :: todo) bit s =
      andThen (doAction c a bit { s with running := some ⟨c, a :: todo, bit⟩ }) fun r =>
        runPieces c todo r.1 r.2 := by
  simp [runPieces, window, h]

@[simp] theorem carryOut_answered (c : Ctx) (s : State) : carryOut c (.next (.answered s)) = .next s := rfl
@[simp] theorem carryOut_started (c : Ctx) (todo : List Action) (s : State) :
    carryOut c (.next (.started todo s)) = runPieces c todo false s := rfl
@[simp] theorem carryOut_fault (c : Ctx) (r : Fault) : carryOut c (.fault r) = .fault r := rfl
@[simp] theorem carryOut_refused (c : Ctx) (r : Refusal) : carryOut c (.refused r) = .refused r := rfl

/-! ## Beginnings -/

theorem entryChecks_live {s : State} (h : Live s) (c : Ctx) (go : Res Begun) :
    entryChecks c s go = go := by simp [entryChecks, whenAttached, h.1, h.2]

theorem entryChecksPin_live {s : State} (h : Live s) {p : Nat} (hp : p < s.cfg.pinCount) (c : Ctx)
    (go : Res Begun) : entryChecksPin c p s go = go := by
  simp [entryChecksPin, entryChecks_live h, pinCheck, hp]

end Sys2Proof.Machine
end

