-- ==== Sys2Proof/Laws/Commands.lean ====
section
/-! SUPPORT. The pieces of the commands when no other agent acts, said once each, and what a read-modify-write,
an acknowledge and a sequence of writes leave in the register page. -/

namespace Sys2Proof.Machine

theorem lock_eta {s : State} (h : s.lock = .free) : { s with lock := .free } = s := by
  cases s; simp only at h; subst h; rfl

theorem running_lock_eta {s : State} (h : s.lock = .free) (c : Ctx) :
    { ({ s with lock := .held c } : State) with lock := .free } = s := by
  cases s; simp only at h; subst h; rfl

/-! ## Read-modify-write -/

/-- Everything a read-modify-write changes: the page and the history. -/
theorem afterRmw_frame (c : Ctx) (op : BitOp) (s : State) :
    afterRmw c op s = { s with
      mem := (afterRmw c op s).mem
      log := s.log ++
        [.read c (regOff s.cfg (regOf s.cfg op.kind op.pin)) (readReg s (regOf s.cfg op.kind op.pin)),
          .write c (regOff s.cfg (regOf s.cfg op.kind op.pin))
            (setBit (readReg s (regOf s.cfg op.kind op.pin)) (bitOf s.cfg op.pin) op.v)] } := by
  simp only [afterRmw, writeReg_eq_store, record, store, List.append_assoc]
  rfl

@[simp] theorem afterRmw_cfg (c : Ctx) (op : BitOp) (s : State) : (afterRmw c op s).cfg = s.cfg := by
  rw [afterRmw_frame]
@[simp] theorem afterRmw_padin (c : Ctx) (op : BitOp) (s : State) : (afterRmw c op s).padin = s.padin := by
  rw [afterRmw_frame]
@[simp] theorem afterRmw_lock (c : Ctx) (op : BitOp) (s : State) : (afterRmw c op s).lock = s.lock := by
  rw [afterRmw_frame]
@[simp] theorem afterRmw_windows (c : Ctx) (op : BitOp) (s : State) :
    (afterRmw c op s).windows = s.windows := by
  rw [afterRmw_frame]

/-- The page after a read-modify-write: one byte stored. -/
theorem afterRmw_mem (c : Ctx) (op : BitOp) (s : State) :
    (afterRmw c op s).mem = writeByte s.mem (regAddr s.cfg (regOf s.cfg op.kind op.pin))
      (writtenByte s (regOf s.cfg op.kind op.pin)
        (setBit (readReg s (regOf s.cfg op.kind op.pin)) (bitOf s.cfg op.pin) op.v)) := by
  simp only [afterRmw, writeReg_eq_store, record_mem, store]
  rw [writtenByte_congr (s := s) rfl rfl]
  rfl

theorem afterRmw_keeps_wf {c : Ctx} {op : BitOp} {s : State} (h : MemWF s.mem) :
    MemWF (afterRmw c op s).mem := by
  rw [afterRmw_mem]; exact h.writeByte _ _

theorem afterRmw_readByte_ne (c : Ctx) (op : BitOp) (s : State) {a : Nat}
    (h : a ≠ regAddr s.cfg (regOf s.cfg op.kind op.pin)) :
    readByte (afterRmw c op s).mem a = readByte s.mem a := by
  rw [afterRmw_mem]; exact readByte_writeByte_ne _ _ h

theorem afterRmw_stored_same {c : Ctx} {op : BitOp} {s : State} (h : MemWF s.mem) :
    stored (afterRmw c op s) (regOf s.cfg op.kind op.pin) =
      writtenByte s (regOf s.cfg op.kind op.pin)
        (setBit (readReg s (regOf s.cfg op.kind op.pin)) (bitOf s.cfg op.pin) op.v) := by
  rw [stored, afterRmw_mem, afterRmw_cfg]; exact readByte_writeByte_same h _ _

theorem afterRmw_stored_ne {c : Ctx} {op : BitOp} {s : State} (hc : ConfigWF s.cfg)
    (hp : op.pin < s.cfg.pinCount) {r : Reg} (hr : r ∈ regs s.cfg) (h : r ≠ regOf s.cfg op.kind op.pin) :
    stored (afterRmw c op s) r = stored s r := by
  rw [stored, afterRmw_cfg]
  exact afterRmw_readByte_ne _ _ _ fun e => h (regAddr_inj hc hr (regOf_mem _ hp) e)

/-- On a storage kind a read-modify-write stores the byte with the pin's bit replaced (R128). -/
theorem afterRmw_stored_plain {c : Ctx} {op : BitOp} {s : State} (h : MemWF s.mem) (h1 : op.kind ≠ .sts)
    (h2 : op.kind ≠ .lvl) :
    stored (afterRmw c op s) (regOf s.cfg op.kind op.pin) =
      setBit (stored s (regOf s.cfg op.kind op.pin)) (bitOf s.cfg op.pin) op.v := by
  rw [afterRmw_stored_same h, writtenByte_of_plain h1 h2, readReg_of_not_lvl h2]

/-- The pin's bit is among the pins of its well (R23). -/
theorem bit_in_well {c : Config} {p : Nat} (hp : p < c.pinCount) :
    8 * (pinInWell c p / 8) + bitOf c p < pinsIn c (wellOf c p) := by
  simp only [bitOf, wellOf, pinInWell]
  split <;> simp only [pinsIn] <;> omega

/-- On `LVL` a read-modify-write reaches the pin's latch exactly when the pin is an output, and leaves every
other latch and every reserved bit of the byte as it was (R26, R144, R261). -/
theorem afterRmw_lvl_bit {c : Ctx} {s : State} (h : MemWF s.mem) {p : Nat} (hp : p < s.cfg.pinCount) (v : Bool)
    (j : Nat) :
    (stored (afterRmw c ⟨p, .lvl, v⟩ s) (regOf s.cfg .lvl p)).getLsbD j =
      if j = bitOf s.cfg p ∧ pinBit s .dir p = false then v
      else (stored s (regOf s.cfg .lvl p)).getLsbD j := by
  by_cases hj : j < 8
  · rw [afterRmw_stored_same (op := ⟨p, .lvl, v⟩) h]
    rw [show regOf s.cfg .lvl p = ⟨.lvl, wellOf s.cfg p, pinInWell s.cfg p / 8⟩ from rfl,
      writtenByte_lvl_bit _ _ _ _ _ hj, setBit_bit _ _ _ (bitOf_lt _ _), readReg_lvl_bit _ _ _ _ hj]
    have hin := bit_in_well hp
    have hd : pinBit s .dir p = (stored s ⟨.dir, wellOf s.cfg p, pinInWell s.cfg p / 8⟩).getLsbD (bitOf s.cfg p) :=
      rfl
    by_cases hjp : j = bitOf s.cfg p
    · subst hjp
      cases hdir : pinBit s .dir p <;> simp [← hd, hdir, hin]
    · simp only [hjp, if_false, false_and]
      split <;> rfl
  · simp only [BitVec.getLsbD_of_ge _ _ (Nat.le_of_not_lt hj)]
    have := bitOf_lt s.cfg p
    rw [if_neg (by rintro ⟨rfl, -⟩; omega)]

/-- `BitRMW`s of valid pins complete one after the other. -/
theorem bitRmws_quiet (c : Ctx) (ops : List BitOp) {s : State} (hc : ConfigWF s.cfg) (hw : s.windows = [])
    (hp : ∀ op ∈ ops, op.pin < s.cfg.pinCount) :
    bitRmws c ops s = .next (ops.foldl (fun s op => afterRmw c op s) s) := by
  induction ops generalizing s with
  | nil => rfl
  | cons op ops ih =>
    rw [bitRmws, bitRmw_quiet hc hw c (hp op (by simp)), andThen_next, List.foldl_cons]
    exact ih (by rwa [afterRmw_cfg]) (by simpa using hw) fun q hq => by
      rw [afterRmw_cfg]; exact hp q (by simp [hq])

theorem foldl_afterRmw_cfg (c : Ctx) (ops : List BitOp) (s : State) :
    (ops.foldl (fun s op => afterRmw c op s) s).cfg = s.cfg := by
  induction ops generalizing s with
  | nil => rfl
  | cons op ops ih => rw [List.foldl_cons, ih, afterRmw_cfg]

/-- `LOCK` plays no part in what a read-modify-write leaves. -/
theorem afterRmw_withLock (c : Ctx) (op : BitOp) (s : State) (l : Lock) :
    afterRmw c op { s with lock := l } = { afterRmw c op s with lock := l } := by
  rw [afterRmw_frame, afterRmw_frame c op s]
  simp only [afterRmw_mem]
  rw [readReg_congr (s := s) (t := { s with lock := l }) rfl rfl rfl,
    writtenByte_congr (s := s) (t := { s with lock := l }) rfl rfl]

theorem foldl_afterRmw_withLock (c : Ctx) (ops : List BitOp) (s : State) (l : Lock) :
    ops.foldl (fun s op => afterRmw c op s) { s with lock := l } =
      { ops.foldl (fun s op => afterRmw c op s) s with lock := l } := by
  induction ops generalizing s with
  | nil => rfl
  | cons op ops ih => rw [List.foldl_cons, afterRmw_withLock, ih, List.foldl_cons]

theorem foldl_afterRmw_lock (c : Ctx) (ops : List BitOp) (s : State) :
    (ops.foldl (fun s op => afterRmw c op s) s).lock = s.lock := by
  induction ops generalizing s with
  | nil => rfl
  | cons op ops ih => rw [List.foldl_cons, ih, afterRmw_lock]

/-- The read-modify-write piece of a command when no other agent acts. -/
theorem doAction_rmw_quiet (c : Ctx) (ops : List BitOp) (bit : Bool) {s : State} (hc : ConfigWF s.cfg)
    (hl : s.lock = .free) (hw : s.windows = []) (hp : ∀ op ∈ ops, op.pin < s.cfg.pinCount) :
    doAction c (.rmw ops) bit s = .next (bit, ops.foldl (fun s op => afterRmw c op s) s) := by
  rw [doAction, atomicDo_free hl, bitRmws_quiet c ops (s := { s with lock := .held c }) hc hw hp, andThen_next,
    foldl_afterRmw_withLock]
  have h := foldl_afterRmw_lock c ops s
  rw [hl] at h
  exact congrArg (fun t => Host.Outcome.next (bit, t)) (lock_eta h)

/-! ## Acknowledge -/

/-- The state after an acknowledge in a quiet state (R154). -/
def afterAck (c : Ctx) (p : Nat) (s : State) : State :=
  record (.write c (regOff s.cfg (regOf s.cfg .sts p)) (oneHot (bitOf s.cfg p)))
    (writeReg s (regOf s.cfg .sts p) (oneHot (bitOf s.cfg p)))

theorem afterAck_frame (c : Ctx) (p : Nat) (s : State) :
    afterAck c p s = { s with
      mem := (afterAck c p s).mem
      log := s.log ++ [.write c (regOff s.cfg (regOf s.cfg .sts p)) (oneHot (bitOf s.cfg p))] } := rfl

@[simp] theorem afterAck_cfg (c : Ctx) (p : Nat) (s : State) : (afterAck c p s).cfg = s.cfg := rfl
@[simp] theorem afterAck_windows (c : Ctx) (p : Nat) (s : State) : (afterAck c p s).windows = s.windows := rfl
@[simp] theorem afterAck_lock (c : Ctx) (p : Nat) (s : State) : (afterAck c p s).lock = s.lock := rfl

theorem afterAck_mem (c : Ctx) (p : Nat) (s : State) :
    (afterAck c p s).mem = writeByte s.mem (regAddr s.cfg (regOf s.cfg .sts p))
      (stored s (regOf s.cfg .sts p) &&& ~~~(oneHot (bitOf s.cfg p))) := rfl

theorem afterAck_keeps_wf {c : Ctx} {p : Nat} {s : State} (h : MemWF s.mem) : MemWF (afterAck c p s).mem :=
  h.writeByte _ _

theorem afterAck_readByte_ne (c : Ctx) (p : Nat) (s : State) {a : Nat}
    (h : a ≠ regAddr s.cfg (regOf s.cfg .sts p)) : readByte (afterAck c p s).mem a = readByte s.mem a :=
  readByte_writeByte_ne _ _ h

theorem afterAck_stored_same {c : Ctx} {p : Nat} {s : State} (h : MemWF s.mem) :
    stored (afterAck c p s) (regOf s.cfg .sts p) = setBit (stored s (regOf s.cfg .sts p)) (bitOf s.cfg p) false :=
  readByte_writeByte_same h _ _

theorem ackWrite_eq_afterAck {s : State} (hc : ConfigWF s.cfg) (hw : s.windows = []) (c : Ctx) {p : Nat}
    (hp : p < s.cfg.pinCount) : ackWrite c p s = .next (afterAck c p s) := ackWrite_quiet hc hw c hp

/-- The acknowledge piece of a command when no other agent acts. -/
theorem doAction_ack_quiet (c : Ctx) {p : Nat} (bit : Bool) {s : State} (hc : ConfigWF s.cfg)
    (hl : s.lock = .free) (hw : s.windows = []) (hp : p < s.cfg.pinCount) :
    doAction c (.ack p) bit s = .next (bit, afterAck c p s) := by
  rw [doAction, atomicDo_free hl, ackWrite_eq_afterAck (s := { s with lock := .held c }) hc hw c hp, andThen_next]
  exact congrArg (fun t => Host.Outcome.next (bit, t)) (lock_eta (s := afterAck c p s) hl)

/-- The level test of `GET` when no other agent acts. -/
theorem doAction_test_quiet (c : Ctx) {p : Nat} (bit : Bool) {s : State} (hc : ConfigWF s.cfg)
    (hl : s.lock = .free) (hw : s.windows = []) (hp : p < s.cfg.pinCount) :
    doAction c (.test p) bit s = .next (level s p,
      record (.read c (regOff s.cfg (regOf s.cfg .lvl p)) (readReg s (regOf s.cfg .lvl p))) s) := by
  rw [doAction, atomic_free hl, bitTest_quiet (s := { s with lock := .held c }) hc hw c .lvl hp, andThen_next]
  rw [← level_eq_read_bit s hp]
  exact congrArg (fun t => Host.Outcome.next (_, t))
    (lock_eta (s := record (.read c (regOff s.cfg (regOf s.cfg .lvl p)) (readReg s (regOf s.cfg .lvl p))) s) hl)

/-! ## Sequences of writes -/

/-- The state after writes, each to a register of the bank, in a quiet state. -/
def afterWrites (c : Ctx) (ws : List (Reg × Byte)) (s : State) : State :=
  ws.foldl (fun s w => record (.write c (regOff s.cfg w.1) w.2) (writeReg s w.1 w.2)) s

theorem afterWrites_frame (c : Ctx) (ws : List (Reg × Byte)) (s : State) :
    afterWrites c ws s = { s with
      mem := (afterWrites c ws s).mem
      log := s.log ++ ws.map fun w => .write c (regOff s.cfg w.1) w.2 } := by
  induction ws generalizing s with
  | nil => simp [afterWrites]
  | cons w ws ih =>
    have := ih (record (.write c (regOff s.cfg w.1) w.2) (writeReg s w.1 w.2))
    simp only [afterWrites, List.foldl_cons] at this ⊢
    rw [this, writeReg_eq_store]
    simp [record, store]

@[simp] theorem afterWrites_cfg (c : Ctx) (ws : List (Reg × Byte)) (s : State) :
    (afterWrites c ws s).cfg = s.cfg := by rw [afterWrites_frame]
@[simp] theorem afterWrites_windows (c : Ctx) (ws : List (Reg × Byte)) (s : State) :
    (afterWrites c ws s).windows = s.windows := by rw [afterWrites_frame]
@[simp] theorem afterWrites_lock (c : Ctx) (ws : List (Reg × Byte)) (s : State) :
    (afterWrites c ws s).lock = s.lock := by rw [afterWrites_frame]

theorem writeAll_quiet (c : Ctx) (ws : List (Reg × Byte)) {s : State} (hc : ConfigWF s.cfg)
    (hw : s.windows = []) (hr : ∀ w ∈ ws, w.1 ∈ regs s.cfg) :
    writeAll c (ws.map fun w => (regOff s.cfg w.1, w.2)) s = .next (afterWrites c ws s) := by
  induction ws generalizing s with
  | nil => rfl
  | cons w ws ih =>
    have hcfg : (record (.write c (regOff s.cfg w.1) w.2) (writeReg s w.1 w.2)).cfg = s.cfg := by
      rw [writeReg_eq_store]; rfl
    have hwin : (record (.write c (regOff s.cfg w.1) w.2) (writeReg s w.1 w.2)).windows = [] := by
      rw [writeReg_eq_store]; exact hw
    rw [List.map_cons, writeAll, regWrite_regOff hc (hr w (by simp)), envWindow_quiet hw, andThen_next]
    have := ih (s := record (.write c (regOff s.cfg w.1) w.2) (writeReg s w.1 w.2)) (by rwa [hcfg]) hwin
      (fun x hx => by rw [hcfg]; exact hr x (by simp [hx]))
    rw [hcfg] at this
    exact this

theorem afterWrites_keeps_wf {c : Ctx} (ws : List (Reg × Byte)) {s : State} (h : MemWF s.mem) :
    MemWF (afterWrites c ws s).mem := by
  induction ws generalizing s with
  | nil => exact h
  | cons w ws ih => exact ih (by show MemWF (writeReg s w.1 w.2).mem; rw [writeReg_eq_store]; exact h.writeByte _ _)

theorem afterWrites_readByte_ne (c : Ctx) (ws : List (Reg × Byte)) (s : State) {a : Nat}
    (h : ∀ w ∈ ws, a ≠ regAddr s.cfg w.1) : readByte (afterWrites c ws s).mem a = readByte s.mem a := by
  induction ws generalizing s with
  | nil => rfl
  | cons w ws ih =>
    rw [afterWrites, List.foldl_cons, ← afterWrites, ih _ (by
      intro x hx; rw [writeReg_eq_store]; exact h x (by simp [hx]))]
    rw [writeReg_eq_store]
    exact readByte_writeByte_ne _ _ (h w (by simp))

/-- `LOCK` plays no part in what a sequence of writes leaves. -/
theorem afterWrites_withLock (c : Ctx) (ws : List (Reg × Byte)) (s : State) (l : Lock) :
    afterWrites c ws { s with lock := l } = { afterWrites c ws s with lock := l } := by
  induction ws generalizing s with
  | nil => rfl
  | cons w ws ih =>
    have h : record (.write c (regOff s.cfg w.1) w.2) (writeReg { s with lock := l } w.1 w.2) =
        { record (.write c (regOff s.cfg w.1) w.2) (writeReg s w.1 w.2) with lock := l } := by
      simp only [writeReg_eq_store]
      rw [writtenByte_congr (s := s) (t := { s with lock := l }) rfl rfl]
      rfl
    have := ih (record (.write c (regOff s.cfg w.1) w.2) (writeReg s w.1 w.2))
    rw [← h] at this
    exact this

/-- A block of writes to registers of the bank when no other agent acts. -/
theorem atomicWrites_quiet (c : Ctx) (bit : Bool) (ws : List (Reg × Byte)) {s : State} (hc : ConfigWF s.cfg)
    (hl : s.lock = .free) (hw : s.windows = []) (hr : ∀ w ∈ ws, w.1 ∈ regs s.cfg) :
    atomicDo c bit (fun t => writeAll c (ws.map fun w => (regOff s.cfg w.1, w.2)) t) s =
      .next (bit, afterWrites c ws s) := by
  rw [atomicDo_free hl]
  have h := writeAll_quiet c ws (s := { s with lock := .held c }) hc hw hr
  simp only at h
  rw [h, andThen_next, afterWrites_withLock]
  exact congrArg (fun t => Host.Outcome.next (bit, t)) 
    (lock_eta (s := afterWrites c ws s) (by rw [afterWrites_lock]; exact hl))

/-- The registers `disable_all` writes and what it writes to each, in its order (R156). -/
def disableAllRegs (c : Config) : List (Reg × Byte) :=
  (clearedKinds.flatMap fun k => (regsOfKind c k).map fun r => (r, 0x00#8)) ++
    (regsOfKind c .sts).map fun r => (r, 0xFF#8)

theorem disableAllWrites_eq (c : Config) :
    disableAllWrites c = (disableAllRegs c).map fun w => (regOff c w.1, w.2) := by
  simp [disableAllWrites, disableAllRegs, List.map_flatMap, Function.comp_def]

theorem disableAllRegs_mem {c : Config} {w : Reg × Byte} (h : w ∈ disableAllRegs c) : w.1 ∈ regs c := by
  simp only [disableAllRegs, List.mem_append, List.mem_flatMap, List.mem_map] at h
  rcases h with ⟨k, -, r, hr, rfl⟩ | ⟨r, hr, rfl⟩ <;> exact mem_regs.2 (mem_regsOfKind.1 hr).2

theorem doAction_disableAll_quiet (c : Ctx) (bit : Bool) {s : State} (hc : ConfigWF s.cfg)
    (hl : s.lock = .free) (hw : s.windows = []) :
    doAction c .disableAll bit s = .next (bit, afterWrites c (disableAllRegs s.cfg) s) := by
  have h := atomicWrites_quiet c bit (disableAllRegs s.cfg) hc hl hw fun w => disableAllRegs_mem
  rw [← disableAllWrites_eq] at h
  rw [← h, doAction, atomicDo_free hl, atomicDo_free hl]

/-- The registers the write-back writes and what it writes to each, in its order (R183). -/
def restoreRegs (s : State) : List (Reg × Byte) := (savedBytes s.cfg).map fun b => (savedReg b, snapByte s b)

theorem restoreWrites_eq (s : State) :
    restoreWrites s = (restoreRegs s).map fun w => (regOff s.cfg w.1, w.2) := by
  simp [restoreWrites, restoreRegs]

theorem doAction_restore_quiet (c : Ctx) (bit : Bool) {s : State} (hc : ConfigWF s.cfg)
    (hl : s.lock = .free) (hw : s.windows = []) :
    doAction c .restore bit s = .next (bit, afterWrites c (restoreRegs s) s) := by
  have h := atomicWrites_quiet c bit (restoreRegs s) hc hl hw fun w hm => by
    simp only [restoreRegs, List.mem_map] at hm
    obtain ⟨b, hb, rfl⟩ := hm
    exact savedReg_mem hb
  rw [← restoreWrites_eq] at h
  rw [← h, doAction, atomicDo_free hl, atomicDo_free hl]
  rfl

/-! ## The capture -/

/-- The state after the capture of some bytes in a quiet state (R182). -/
def afterCapture (c : Ctx) (bs : List (Saved × Nat)) (s : State) : State :=
  bs.foldl (fun s b => setSnapByte b (readReg s (savedReg b))
    (record (.read c (regOff s.cfg (savedReg b)) (readReg s (savedReg b))) s)) s

theorem captureAll_quiet (c : Ctx) (bs : List (Saved × Nat)) {s : State} (hc : ConfigWF s.cfg)
    (hw : s.windows = []) (hr : ∀ b ∈ bs, savedReg b ∈ regs s.cfg) :
    captureAll c bs s = .next (afterCapture c bs s) := by
  induction bs generalizing s with
  | nil => rfl
  | cons b bs ih =>
    rw [captureAll, regRead_regOff hc (hr b (by simp)), envWindow_quiet hw, andThen_next]
    exact ih (s := setSnapByte b (readReg s (savedReg b))
      (record (.read c (regOff s.cfg (savedReg b)) (readReg s (savedReg b))) s)) hc hw
      fun x hx => hr x (by simp [hx])

/-- The capture changes the snapshot and the history; it reads every byte of the unchanged page. -/
theorem afterCapture_frame (c : Ctx) (bs : List (Saved × Nat)) (s : State) :
    afterCapture c bs s = { s with
      snap := (afterCapture c bs s).snap
      log := s.log ++ bs.map fun b => .read c (regOff s.cfg (savedReg b)) (readReg s (savedReg b)) } := by
  induction bs generalizing s with
  | nil => simp [afterCapture]
  | cons b bs ih =>
    have h := ih (setSnapByte b (readReg s (savedReg b))
      (record (.read c (regOff s.cfg (savedReg b)) (readReg s (savedReg b))) s))
    have hr : ∀ r, readReg (setSnapByte b (readReg s (savedReg b))
        (record (.read c (regOff s.cfg (savedReg b)) (readReg s (savedReg b))) s)) r = readReg s r :=
      fun r => readReg_congr rfl rfl rfl r
    simp only [hr] at h
    rw [afterCapture, List.foldl_cons]
    rw [afterCapture] at h
    rw [h]
    simp [setSnapByte, record]

/-- What the capture leaves in each byte of the snapshot. -/
theorem afterCapture_snapByte (c : Ctx) (bs : List (Saved × Nat)) (s : State)
    (hnd : (bs.map fun b => 8 * savedSlot b.1 + b.2).Nodup) (hlt : ∀ b ∈ bs, 8 * savedSlot b.1 + b.2 < 40)
    {b : Saved × Nat} (hb : b ∈ bs) : snapByte (afterCapture c bs s) b = readReg s (savedReg b) := by
  have keep : ∀ (l : List (Saved × Nat)) (s : State) (k : Nat),
      (∀ x ∈ l, 8 * savedSlot x.1 + x.2 ≠ k) → (afterCapture c l s).snap[k]? = s.snap[k]? := by
    intro l
    induction l with
    | nil => intro s k _; rfl
    | cons x l ih =>
      intro s k hk
      rw [afterCapture, List.foldl_cons, ← afterCapture, ih _ k fun y hy => hk y (by simp [hy])]
      have hx := hk x (by simp)
      simp only [setSnapByte, record]
      rw [Vector.getElem?_setIfInBounds]
      simp [hx]
  induction bs generalizing s with
  | nil => cases hb
  | cons x bs ih =>
    simp only [List.map_cons, List.nodup_cons] at hnd
    rw [afterCapture, List.foldl_cons, ← afterCapture]
    rcases List.mem_cons.1 hb with rfl | hb
    · have hk := keep bs (setSnapByte b (readReg s (savedReg b))
        (record (.read c (regOff s.cfg (savedReg b)) (readReg s (savedReg b))) s)) (8 * savedSlot b.1 + b.2)
        fun y hy e => hnd.1 (List.mem_map.2 ⟨y, hy, e⟩)
      have hlt' := hlt b (by simp)
      simp only [snapByte, hk]
      simp [setSnapByte, hlt']
    · rw [ih _ hnd.2 (fun y hy => hlt y (by simp [hy])) hb]
      exact readReg_congr rfl rfl rfl _

/-- `LOCK` plays no part in what the capture leaves. -/
theorem afterCapture_withLock (c : Ctx) (bs : List (Saved × Nat)) (s : State) (l : Lock) :
    afterCapture c bs { s with lock := l } = { afterCapture c bs s with lock := l } := by
  induction bs generalizing s with
  | nil => rfl
  | cons b bs ih =>
    have hr : readReg { s with lock := l } (savedReg b) = readReg s (savedReg b) := readReg_congr rfl rfl rfl _
    simp only [afterCapture, List.foldl_cons, hr] at ih ⊢
    exact ih (setSnapByte b (readReg s (savedReg b))
      (record (.read c (regOff s.cfg (savedReg b)) (readReg s (savedReg b))) s))

theorem doAction_capture_quiet (c : Ctx) (bit : Bool) {s : State} (hc : ConfigWF s.cfg)
    (hl : s.lock = .free) (hw : s.windows = []) :
    doAction c .capture bit s = .next (bit, afterCapture c (savedBytes s.cfg) s) := by
  rw [doAction, atomicDo_free hl,
    captureAll_quiet c (savedBytes s.cfg) (s := { s with lock := .held c }) hc hw fun b => savedReg_mem,
    andThen_next, afterCapture_withLock]
  exact congrArg (fun t => Host.Outcome.next (bit, t)) 
    (lock_eta (s := afterCapture c (savedBytes s.cfg) s) (by rw [afterCapture_frame]; exact hl))

/-! ## The dispatcher's scan -/

/-- The state after the dispatcher's three pieces for one pin in a quiet state (R157). -/
def afterScan (c : Ctx) (p : Nat) (s : State) : State :=
  let t := record (.read c (regOff s.cfg (regOf s.cfg .sts p)) (stored s (regOf s.cfg .sts p))) { s with scan := p }
  { (if pinBit s .sts p then notifyPin p (afterAck c p t) else t) with scan := p + 1 }

theorem doAction_probe_quiet (c : Ctx) {p : Nat} (bit : Bool) {s : State} (hc : ConfigWF s.cfg)
    (hl : s.lock = .free) (hw : s.windows = []) (hp : p < s.cfg.pinCount) :
    doAction c (.probe p) bit s = .next (pinBit s .sts p,
      record (.read c (regOff s.cfg (regOf s.cfg .sts p)) (stored s (regOf s.cfg .sts p))) { s with scan := p }) := by
  rw [doAction, atomic_free (s := { s with scan := p }) hl,
    bitTest_quiet (s := { s with scan := p, lock := .held c }) hc hw c .sts hp, andThen_next]
  exact congrArg (fun t => Host.Outcome.next (_, t)) (lock_eta
    (s := record (.read c (regOff s.cfg (regOf s.cfg .sts p)) (stored s (regOf s.cfg .sts p))) { s with scan := p }) hl)

/-! ## Pieces in a run

Each lemma takes the state with any command recorded as running, so that it applies after another piece. -/

theorem foldl_afterRmw_withRunning (c : Ctx) (ops : List BitOp) (s : State) (f : Option Flight) :
    ops.foldl (fun s op => afterRmw c op s) { s with running := f } =
      { ops.foldl (fun s op => afterRmw c op s) s with running := f } := by
  induction ops generalizing s with
  | nil => rfl
  | cons op ops ih =>
    have h : afterRmw c op { s with running := f } = { afterRmw c op s with running := f } := by
      rw [afterRmw_frame, afterRmw_frame c op s]
      simp only [afterRmw_mem]
      rw [readReg_congr (s := s) (t := { s with running := f }) rfl rfl rfl,
        writtenByte_congr (s := s) (t := { s with running := f }) rfl rfl]
    rw [List.foldl_cons, h, ih, List.foldl_cons]

theorem runPieces_rmw_quiet (c : Ctx) (ops : List BitOp) (todo : List Action) (bit : Bool) (f : Option Flight)
    {s : State} (hc : ConfigWF s.cfg) (hl : s.lock = .free) (hw : s.windows = [])
    (hp : ∀ op ∈ ops, op.pin < s.cfg.pinCount) :
    runPieces c (.rmw ops :: todo) bit { s with running := f } =
      runPieces c todo bit
        { ops.foldl (fun s op => afterRmw c op s) s with running := some ⟨c, .rmw ops :: todo, bit⟩ } := by
  rw [runPieces_quiet (s := { s with running := f }) hw,
    doAction_rmw_quiet c ops bit (s := { s with running := some ⟨c, .rmw ops :: todo, bit⟩ }) hc hl hw hp,
    andThen_next, foldl_afterRmw_withRunning]

theorem runPieces_ack_quiet (c : Ctx) {p : Nat} (todo : List Action) (bit : Bool) (f : Option Flight)
    {s : State} (hc : ConfigWF s.cfg) (hl : s.lock = .free) (hw : s.windows = []) (hp : p < s.cfg.pinCount) :
    runPieces c (.ack p :: todo) bit { s with running := f } =
      runPieces c todo bit { afterAck c p s with running := some ⟨c, .ack p :: todo, bit⟩ } := by
  rw [runPieces_quiet (s := { s with running := f }) hw,
    doAction_ack_quiet c bit (s := { s with running := some ⟨c, .ack p :: todo, bit⟩ }) hc hl hw hp, andThen_next]
  rfl

theorem runPieces_answer_quiet (c : Ctx) (bit : Bool) (f : Option Flight) {s : State} (hw : s.windows = []) :
    runPieces c [.answer] bit { s with running := f } =
      .next { respond c .ok false s with running := none } := by
  rw [runPieces_quiet (s := { s with running := f }) hw]
  rfl

/-- One pin of the dispatcher's scan when no other agent acts. -/
theorem runPieces_scan_quiet (c : Ctx) {p : Nat} (todo : List Action) (bit : Bool) (f : Option Flight)
    {s : State} (hc : ConfigWF s.cfg) (hl : s.lock = .free) (hw : s.windows = []) (hp : p < s.cfg.pinCount) :
    runPieces c (.probe p :: .serve p :: .notify p :: todo) bit { s with running := f } =
      runPieces c todo (pinBit s .sts p)
        { afterScan c p s with running := some ⟨c, .notify p :: todo, pinBit s .sts p⟩ } := by
  rw [runPieces_quiet (s := { s with running := f }) hw,
    doAction_probe_quiet c bit
      (s := { s with running := some ⟨c, .probe p :: .serve p :: .notify p :: todo, bit⟩ }) hc hl hw hp,
    andThen_next]
  have hb : pinBit { s with running := some ⟨c, .probe p :: .serve p :: .notify p :: todo, bit⟩ } .sts p =
      pinBit s .sts p := rfl
  simp only [hb]
  cases h : pinBit s .sts p with
  | false =>
    rw [runPieces_quiet (by exact hw)]
    simp only [doAction, Bool.false_eq_true, if_false, andThen_next]
    rw [runPieces_quiet (by exact hw)]
    simp only [doAction, Bool.false_eq_true, if_false, andThen_next, afterScan, h]
    rfl
  | true =>
    rw [runPieces_quiet (by exact hw)]
    simp only [doAction, if_true]
    rw [show (atomicDo c true (ackWrite c p) : State → _) = doAction c (.ack p) true from rfl,
      doAction_ack_quiet c true (by exact hc) (by exact hl) (by exact hw) (by exact hp), andThen_next]
    rw [runPieces_quiet (by exact hw)]
    simp only [doAction, if_true, andThen_next, afterScan, h]
    rfl

end Sys2Proof.Machine
end

