-- ==== Sys2Proof/Laws/Frames.lean ====
section
/-! SUPPORT. Everything a shared operation can do when it answers a next state, and that it answers one, for
every schedule of the other agents: the accesses, the atomic blocks, the pieces of a command. -/

namespace Sys2Proof.Machine

/-- What accesses and the environment's steps between them can change: the page (kept in canonical form), the
pads, `coreDark`, the history and the windows to come. -/
def AccessFrame (s t : State) : Prop :=
  t = { s with mem := t.mem, padin := t.padin, coreDark := t.coreDark, log := t.log, windows := t.windows } ∧
    (MemWF s.mem → MemWF t.mem) ∧ ∃ l, t.log = s.log ++ l

namespace AccessFrame

theorem refl (s : State) : AccessFrame s s := ⟨rfl, id, [], by simp⟩

theorem trans {s t u : State} (h : AccessFrame s t) (g : AccessFrame t u) : AccessFrame s u := by
  obtain ⟨l, hl⟩ := h.2.2
  obtain ⟨k, hk⟩ := g.2.2
  refine ⟨?_, fun hm => g.2.1 (h.2.1 hm), l ++ k, by rw [hk, hl, List.append_assoc]⟩
  rw [g.1, h.1]

theorem cfg {s t : State} (h : AccessFrame s t) : t.cfg = s.cfg := by rw [h.1]
theorem lock {s t : State} (h : AccessFrame s t) : t.lock = s.lock := by rw [h.1]
theorem snap {s t : State} (h : AccessFrame s t) : t.snap = s.snap := by rw [h.1]
theorem wake {s t : State} (h : AccessFrame s t) : t.wake = s.wake := by rw [h.1]
theorem pm {s t : State} (h : AccessFrame s t) : t.pm = s.pm := by rw [h.1]
theorem running {s t : State} (h : AccessFrame s t) : t.running = s.running := by rw [h.1]
theorem inflight {s t : State} (h : AccessFrame s t) : t.inflight = s.inflight := by rw [h.1]

theorem record (e : Event) (s : State) : AccessFrame s (Machine.record e s) := ⟨rfl, id, [e], rfl⟩

theorem store (s : State) (r : Reg) (v : Byte) : AccessFrame s (Machine.store s r v) :=
  ⟨rfl, fun h => h.writeByte _ _, [], by simp⟩

theorem writeReg (s : State) (r : Reg) (v : Byte) : AccessFrame s (Machine.writeReg s r v) := by
  rw [writeReg_eq_store]; exact store s r _

theorem envStep (e : EnvStep) (s : State) : AccessFrame s (Machine.envStep e s) :=
  ⟨by rw [envStep_frame], envStep_keeps_wf, envStep_log e s⟩

theorem envWindow (s : State) : AccessFrame s (Machine.envWindow s) :=
  ⟨by rw [envWindow_frame], envWindow_keeps_wf, envWindow_log s⟩

end AccessFrame

/-! ## Accesses -/

theorem regRead_next {c : Ctx} {off : Nat} {s t : State} {b : Byte} (h : regRead c off s = .next (b, t)) :
    AccessFrame s t := by
  unfold regRead at h
  split at h
  · cases h
  · simp only [Host.Outcome.next.injEq, Prod.mk.injEq] at h
    obtain ⟨-, rfl⟩ := h
    exact (AccessFrame.envWindow s).trans (AccessFrame.record _ _)

theorem regWrite_next {c : Ctx} {off : Nat} {v : Byte} {s t : State} (h : regWrite c off v s = .next t) :
    AccessFrame s t := by
  unfold regWrite at h
  split at h
  · cases h
  · simp only [Host.Outcome.next.injEq] at h
    subst h
    exact ((AccessFrame.envWindow s).trans (AccessFrame.writeReg _ _ _)).trans (AccessFrame.record _ _)

theorem withPin_next {α : Type} {cfg : Config} {p : Nat} {k : Kind} {f : Nat → Nat → Res α} {x : α}
    (h : withPin cfg p k f = .next x) : ∃ off j, f off j = .next x := by
  unfold withPin at h
  split at h
  · exact ⟨_, _, h⟩
  · cases h

theorem bitRmw_next {c : Ctx} {op : BitOp} {s t : State} (h : bitRmw c op s = .next t) : AccessFrame s t := by
  obtain ⟨off, j, h⟩ := withPin_next h
  obtain ⟨⟨b, u⟩, h1, h2⟩ := andThen_eq_next.1 h
  exact (regRead_next h1).trans (regWrite_next h2)

theorem bitRmws_next {c : Ctx} {ops : List BitOp} {s t : State} (h : bitRmws c ops s = .next t) :
    AccessFrame s t := by
  induction ops generalizing s with
  | nil => simp only [bitRmws, Host.Outcome.next.injEq] at h; subst h; exact .refl s
  | cons op ops ih =>
    obtain ⟨u, h1, h2⟩ := andThen_eq_next.1 h
    exact (bitRmw_next h1).trans (ih h2)

theorem bitTest_next {c : Ctx} {p : Nat} {k : Kind} {s t : State} {b : Bool}
    (h : bitTest c p k s = .next (b, t)) : AccessFrame s t := by
  obtain ⟨off, j, h⟩ := withPin_next h
  obtain ⟨⟨v, u⟩, h1, h2⟩ := andThen_eq_next.1 h
  simp only [Host.Outcome.next.injEq, Prod.mk.injEq] at h2
  obtain ⟨-, rfl⟩ := h2
  exact regRead_next h1

theorem ackWrite_next {c : Ctx} {p : Nat} {s t : State} (h : ackWrite c p s = .next t) : AccessFrame s t := by
  obtain ⟨off, j, h⟩ := withPin_next h
  exact regWrite_next h

theorem writeAll_next {c : Ctx} {ws : List (Nat × Byte)} {s t : State} (h : writeAll c ws s = .next t) :
    AccessFrame s t := by
  induction ws generalizing s with
  | nil => simp only [writeAll, Host.Outcome.next.injEq] at h; subst h; exact .refl s
  | cons w ws ih =>
    obtain ⟨u, h1, h2⟩ := andThen_eq_next.1 h
    exact (regWrite_next h1).trans (ih h2)

/-- What the capture can change: the snapshot besides. -/
def CaptureFrame (s t : State) : Prop := AccessFrame { s with snap := t.snap } t

theorem captureAll_next {c : Ctx} {bs : List (Saved × Nat)} {s t : State} (h : captureAll c bs s = .next t) :
    CaptureFrame s t := by
  induction bs generalizing s with
  | nil => simp only [captureAll, Host.Outcome.next.injEq] at h; subst h; exact .refl s
  | cons b bs ih =>
    obtain ⟨⟨v, u⟩, h1, h2⟩ := andThen_eq_next.1 h
    have hf := regRead_next h1
    have hg := ih h2
    obtain ⟨l, hl⟩ := hf.2.2
    obtain ⟨k, hk⟩ := hg.2.2
    refine ⟨?_, fun hm => hg.2.1 (hf.2.1 hm), l ++ k, by rw [hk]; show u.log ++ k = _; rw [hl]; simp⟩
    have e := hg.1
    rw [show setSnapByte b v u = { u with snap := (setSnapByte b v u).snap } from rfl] at e
    rw [hf.1] at e
    exact e

/-- A read of a register of the bank answers a next state. -/
theorem regRead_completes {s : State} (hc : ConfigWF s.cfg) {r : Reg} (hr : r ∈ regs s.cfg) (c : Ctx) :
    ∃ b t, regRead c (regOff s.cfg r) s = .next (b, t) ∧ AccessFrame s t :=
  ⟨_, _, regRead_regOff hc hr c, regRead_next (regRead_regOff hc hr c)⟩

theorem regWrite_completes {s : State} (hc : ConfigWF s.cfg) {r : Reg} (hr : r ∈ regs s.cfg) (c : Ctx)
    (v : Byte) : ∃ t, regWrite c (regOff s.cfg r) v s = .next t ∧ AccessFrame s t :=
  ⟨_, regWrite_regOff hc hr c v, regWrite_next (regWrite_regOff hc hr c v)⟩

theorem bitRmw_completes {s : State} (hc : ConfigWF s.cfg) (c : Ctx) {op : BitOp}
    (hp : op.pin < s.cfg.pinCount) : ∃ t, bitRmw c op s = .next t ∧ AccessFrame s t := by
  obtain ⟨b, t, h, hf⟩ := regRead_completes hc (regOf_mem op.kind hp) c
  have hct : ConfigWF t.cfg := by rw [hf.cfg]; exact hc
  obtain ⟨u, g, hg⟩ := regWrite_completes hct (r := regOf s.cfg op.kind op.pin)
    (by rw [hf.cfg]; exact regOf_mem _ hp) c (setBit b (bitOf s.cfg op.pin) op.v)
  rw [hf.cfg] at g
  exact ⟨u, by rw [bitRmw, withPin_of_lt hp, h, andThen_next]; exact g, hf.trans hg⟩

theorem bitRmws_completes (c : Ctx) (ops : List BitOp) {s : State} (hc : ConfigWF s.cfg)
    (hp : ∀ op ∈ ops, op.pin < s.cfg.pinCount) : ∃ t, bitRmws c ops s = .next t ∧ AccessFrame s t := by
  induction ops generalizing s with
  | nil => exact ⟨s, rfl, .refl s⟩
  | cons op ops ih =>
    obtain ⟨t, h, hf⟩ := bitRmw_completes hc c (hp op (by simp))
    obtain ⟨u, g, hg⟩ := ih (s := t) (by rw [hf.cfg]; exact hc) fun q hq => by
      rw [hf.cfg]; exact hp q (by simp [hq])
    exact ⟨u, by rw [bitRmws, h, andThen_next]; exact g, hf.trans hg⟩

theorem bitTest_completes {s : State} (hc : ConfigWF s.cfg) (c : Ctx) {p : Nat} (k : Kind)
    (hp : p < s.cfg.pinCount) : ∃ b t, bitTest c p k s = .next (b, t) ∧ AccessFrame s t := by
  obtain ⟨b, t, h, hf⟩ := regRead_completes hc (regOf_mem k hp) c
  exact ⟨_, t, by rw [bitTest, withPin_of_lt hp, h]; rfl, hf⟩

theorem ackWrite_completes {s : State} (hc : ConfigWF s.cfg) (c : Ctx) {p : Nat} (hp : p < s.cfg.pinCount) :
    ∃ t, ackWrite c p s = .next t ∧ AccessFrame s t := by
  obtain ⟨t, h, hf⟩ := regWrite_completes hc (regOf_mem .sts hp) c (oneHot (bitOf s.cfg p))
  exact ⟨t, by rw [ackWrite, withPin_of_lt hp]; exact h, hf⟩

theorem writeAll_completes (c : Ctx) (ws : List (Nat × Byte)) {s : State} (hc : ConfigWF s.cfg)
    (hr : ∀ w ∈ ws, ∃ r ∈ regs s.cfg, w.1 = regOff s.cfg r) :
    ∃ t, writeAll c ws s = .next t ∧ AccessFrame s t := by
  induction ws generalizing s with
  | nil => exact ⟨s, rfl, .refl s⟩
  | cons w ws ih =>
    obtain ⟨r, hr', e⟩ := hr w (by simp)
    obtain ⟨t, h, hf⟩ := regWrite_completes hc hr' c w.2
    obtain ⟨u, g, hg⟩ := ih (s := t) (by rw [hf.cfg]; exact hc) fun x hx => by
      rw [hf.cfg]; exact hr x (by simp [hx])
    exact ⟨u, by rw [writeAll, e, h, andThen_next]; exact g, hf.trans hg⟩

theorem captureAll_completes (c : Ctx) (bs : List (Saved × Nat)) {s : State} (hc : ConfigWF s.cfg)
    (hr : ∀ b ∈ bs, savedReg b ∈ regs s.cfg) : ∃ t, captureAll c bs s = .next t ∧ CaptureFrame s t := by
  suffices ∃ t, captureAll c bs s = .next t from this.imp fun t h => ⟨h, captureAll_next h⟩
  induction bs generalizing s with
  | nil => exact ⟨s, rfl⟩
  | cons b bs ih =>
    obtain ⟨v, t, h, hf⟩ := regRead_completes hc (hr b (by simp)) c
    have hcfg : (setSnapByte b v t).cfg = s.cfg := hf.cfg
    obtain ⟨u, g⟩ := ih (s := setSnapByte b v t) (by rw [hcfg]; exact hc) fun x hx => by
      rw [hcfg]; exact hr x (by simp [hx])
    exact ⟨u, by rw [captureAll, h, andThen_next]; exact g⟩

/-! ## Atomic blocks -/

/-- An atomic block whose body completes does, and leaves `LOCK` free. -/
theorem atomicDo_completes {s : State} (hl : s.lock = .free) (c : Ctx) (bit : Bool)
    {body : State → Res State} {t : State} (h : body { s with lock := .held c } = .next t) :
    atomicDo c bit body s = .next (bit, { t with lock := .free }) := by
  rw [atomicDo_free hl, h]; rfl

theorem atomic_completes {α : Type} {s : State} (hl : s.lock = .free) (c : Ctx)
    {body : State → Res (α × State)} {r : α × State} (h : body { s with lock := .held c } = .next r) :
    atomic c body s = .next (r.1, { r.2 with lock := .free }) := by
  rw [atomic_free hl, h]; rfl

/-- Taking and releasing `LOCK` around accesses leaves an access frame. -/
theorem AccessFrame.withLock {s t : State} (hl : s.lock = .free) {l : Lock}
    (h : AccessFrame { s with lock := l } t) : AccessFrame s { t with lock := .free } := by
  refine ⟨?_, h.2⟩
  rw [h.1]
  cases s; simp only at hl; subst hl; rfl

/-! ## Pieces -/

/-- What a piece of a command does to the control state. -/
def controlAfter (a : Action) (s : State) : State :=
  match a with
  | .wake p on => if on then wakeSet p s else wakeClear p s
  | .attachDone => { s with attached := true }
  | .detachDone => { s with wake := 0#64, snapValid := false, attached := false }
  | .suspendDone => { s with snapValid := true, pm := .suspended }
  | .resumeDone => { s with snapValid := false, lineMasked := false, pm := .active }
  | _ => s

/-- A piece's whole frame: the control state as `controlAfter` says, and besides it only what the accesses and
the environment change, the snapshot, the response and the dispatcher's cursor. -/
def ActionFrame (a : Action) (s t : State) : Prop :=
  t = { controlAfter a s with
    mem := t.mem, padin := t.padin, coreDark := t.coreDark, log := t.log, windows := t.windows
    snap := t.snap, resp := t.resp, scan := t.scan, handled := t.handled } ∧
  (MemWF s.mem → MemWF t.mem) ∧ (∃ l, t.log = s.log ++ l) ∧ (a ≠ .capture → t.snap = s.snap) ∧
  ((∀ p, a ≠ .probe p) → (∀ p, a ≠ .notify p) → t.scan = s.scan ∧ t.handled = s.handled)

theorem AccessFrame.toAction {a : Action} {s t : State} (h : AccessFrame s t) (ha : controlAfter a s = s) :
    ActionFrame a s t := by
  refine ⟨?_, h.2.1, h.2.2, fun _ => h.snap, fun _ _ => ⟨by rw [h.1], by rw [h.1]⟩⟩
  rw [ha]
  have := h.1
  rw [this]

theorem atomicDo_next {s : State} {c : Ctx} {bit : Bool} {body : State → Res State} {r : Bool × State}
    (h : atomicDo c bit body s = .next r) :
    s.lock = .free ∧ ∃ t, body { s with lock := .held c } = .next t ∧ r = (bit, { t with lock := .free }) := by
  obtain ⟨hl, -, t, hb, e⟩ := atomic_next h
  obtain ⟨u, hu, e'⟩ := andThen_eq_next.1 hb
  simp only [Host.Outcome.next.injEq, Prod.mk.injEq] at e'
  obtain ⟨e1, rfl⟩ := e'
  exact ⟨hl, u, hu, Prod.ext e1.symm e⟩

/-- Everything a piece of a command can do. -/
theorem doAction_next {c : Ctx} {a : Action} {bit b : Bool} {s t : State} (h : doAction c a bit s = .next (b, t)) :
    ActionFrame a s t := by
  cases a with
  | rmw ops =>
    obtain ⟨hl, u, hu, e⟩ := atomicDo_next h
    obtain ⟨-, rfl⟩ := Prod.mk.inj e
    exact ((bitRmws_next hu).withLock hl).toAction rfl
  | test p =>
    obtain ⟨hl, -, u, hu, e⟩ := atomic_next h
    simp only at e; subst e
    exact ((bitTest_next hu).withLock hl).toAction rfl
  | ack p =>
    obtain ⟨hl, u, hu, e⟩ := atomicDo_next h
    obtain ⟨-, rfl⟩ := Prod.mk.inj e
    exact ((ackWrite_next hu).withLock hl).toAction rfl
  | wake p on =>
    obtain ⟨hl, u, hu, e⟩ := atomicDo_next h
    obtain ⟨-, rfl⟩ := Prod.mk.inj e
    simp only [Host.Outcome.next.injEq] at hu
    subst hu
    cases s; simp only at hl; subst hl
    cases on <;> exact ⟨rfl, id, ⟨[], (List.append_nil _).symm⟩, fun _ => rfl, fun _ _ => ⟨rfl, rfl⟩⟩
  | disableAll =>
    obtain ⟨hl, u, hu, e⟩ := atomicDo_next h
    obtain ⟨-, rfl⟩ := Prod.mk.inj e
    exact ((writeAll_next hu).withLock hl).toAction rfl
  | capture =>
    obtain ⟨hl, u, hu, e⟩ := atomicDo_next h
    obtain ⟨-, rfl⟩ := Prod.mk.inj e
    have hf := captureAll_next hu
    refine ⟨?_, hf.2.1, hf.2.2, fun hn => absurd rfl hn, fun _ _ => ⟨by rw [hf.1], by rw [hf.1]⟩⟩
    have e := hf.1
    rw [e]
    cases s; simp only at hl; subst hl; rfl
  | restore =>
    obtain ⟨hl, u, hu, e⟩ := atomicDo_next h
    obtain ⟨-, rfl⟩ := Prod.mk.inj e
    exact ((writeAll_next hu).withLock hl).toAction rfl
  | probe p =>
    obtain ⟨hl, -, u, hu, e⟩ := atomic_next h
    simp only at e; subst e
    have hf := bitTest_next hu
    refine ⟨?_, hf.2.1, hf.2.2, fun _ => hf.snap, fun hn => absurd rfl (hn p)⟩
    have e := hf.1
    rw [e]
    cases s; simp only at hl; subst hl; rfl
  | serve p =>
    cases bit with
    | false =>
      simp only [doAction, Bool.false_eq_true, if_false, Host.Outcome.next.injEq, Prod.mk.injEq] at h
      obtain ⟨-, rfl⟩ := h
      exact (AccessFrame.refl s).toAction rfl
    | true =>
      obtain ⟨hl, u, hu, e⟩ := atomicDo_next (bit := true) h
      obtain ⟨-, rfl⟩ := Prod.mk.inj e
      exact ((ackWrite_next hu).withLock hl).toAction rfl
  | notify p =>
    cases bit <;>
      (simp only [doAction, Bool.false_eq_true, if_false, if_true, Host.Outcome.next.injEq, Prod.mk.injEq] at h
       obtain ⟨-, rfl⟩ := h)
    · exact ⟨rfl, id, ⟨[], (List.append_nil _).symm⟩, fun _ => rfl, fun _ hn => absurd rfl (hn p)⟩
    · exact ⟨rfl, id, ⟨_, rfl⟩, fun _ => rfl, fun _ hn => absurd rfl (hn p)⟩
  | attachDone | detachDone | suspendDone | resumeDone | answer | answerLevel | answerHandled =>
    simp only [doAction, Host.Outcome.next.injEq, Prod.mk.injEq] at h
    obtain ⟨-, rfl⟩ := h
    exact ⟨rfl, id, ⟨_, rfl⟩, fun _ => rfl, fun _ _ => ⟨rfl, rfl⟩⟩

theorem disableAllWrites_regs {c : Config} {w : Nat × Byte} (h : w ∈ disableAllWrites c) :
    ∃ r ∈ regs c, w.1 = regOff c r := by
  simp only [disableAllWrites, List.mem_append, List.mem_flatMap, List.mem_map] at h
  rcases h with ⟨k, -, r, hr, rfl⟩ | ⟨r, hr, rfl⟩
  · exact ⟨r, mem_regs.2 (mem_regsOfKind.1 hr).2, rfl⟩
  · exact ⟨r, mem_regs.2 (mem_regsOfKind.1 hr).2, rfl⟩

theorem restoreWrites_regs {s : State} {w : Nat × Byte} (h : w ∈ restoreWrites s) :
    ∃ r ∈ regs s.cfg, w.1 = regOff s.cfg r := by
  simp only [restoreWrites, List.mem_map] at h
  obtain ⟨b, hb, rfl⟩ := h
  exact ⟨savedReg b, savedReg_mem hb, rfl⟩

/-- Every piece of a command completes, whatever the environment does in it: no piece faults or is refused. -/
theorem doAction_completes (c : Ctx) (a : Action) (bit : Bool) {s : State} (hc : ConfigWF s.cfg)
    (hl : s.lock = .free) (ha : ActionOk s.cfg a) :
    ∃ b t, doAction c a bit s = .next (b, t) ∧ ActionFrame a s t := by
  suffices ∃ b t, doAction c a bit s = .next (b, t) by
    obtain ⟨b, t, h⟩ := this
    exact ⟨b, t, h, doAction_next h⟩
  cases a with
  | rmw ops =>
    obtain ⟨t, h, -⟩ := bitRmws_completes c ops (s := { s with lock := .held c }) hc fun op h => (ha op h).1
    exact ⟨_, _, atomicDo_completes hl c bit h⟩
  | test p =>
    obtain ⟨b, t, h, -⟩ := bitTest_completes (s := { s with lock := .held c }) hc c .lvl ha
    exact ⟨_, _, atomic_completes hl c h⟩
  | ack p =>
    obtain ⟨t, h, -⟩ := ackWrite_completes (s := { s with lock := .held c }) hc c ha
    exact ⟨_, _, atomicDo_completes hl c bit h⟩
  | wake p on => exact ⟨_, _, atomicDo_completes hl c bit rfl⟩
  | disableAll =>
    obtain ⟨t, h, -⟩ := writeAll_completes c (disableAllWrites s.cfg) (s := { s with lock := .held c }) hc
      fun w hw => disableAllWrites_regs hw
    exact ⟨_, _, atomicDo_completes hl c bit h⟩
  | capture =>
    obtain ⟨t, h, -⟩ := captureAll_completes c (savedBytes s.cfg) (s := { s with lock := .held c }) hc
      fun b hb => savedReg_mem hb
    exact ⟨_, _, atomicDo_completes hl c bit h⟩
  | restore =>
    obtain ⟨t, h, -⟩ := writeAll_completes c (restoreWrites { s with lock := .held c })
      (s := { s with lock := .held c }) hc fun w hw => restoreWrites_regs hw
    exact ⟨_, _, atomicDo_completes hl c bit h⟩
  | probe p =>
    obtain ⟨b, t, h, -⟩ := bitTest_completes (s := { s with scan := p, lock := .held c }) hc c .sts ha
    exact ⟨_, _, atomic_completes (s := { s with scan := p }) hl c h⟩
  | serve p =>
    cases bit with
    | false => exact ⟨_, _, rfl⟩
    | true =>
      obtain ⟨t, h, -⟩ := ackWrite_completes (s := { s with lock := .held c }) hc c ha
      exact ⟨_, _, atomicDo_completes hl c true h⟩
  | notify p => cases bit <;> exact ⟨_, _, rfl⟩
  | attachDone => exact ⟨_, _, rfl⟩
  | detachDone => exact ⟨_, _, rfl⟩
  | suspendDone => exact ⟨_, _, rfl⟩
  | resumeDone => exact ⟨_, _, rfl⟩
  | answer => exact ⟨_, _, rfl⟩
  | answerLevel => exact ⟨_, _, rfl⟩
  | answerHandled => exact ⟨_, _, rfl⟩

end Sys2Proof.Machine
end

