-- ==== Sys2Proof/Laws/History.lean ====
section
/-! SUPPORT. What no part of a step undoes, for every schedule of the other agents and from every state: the
configuration, `FATAL` and the history. -/

namespace Sys2Proof.Machine

/-- Every meaning is its command's beginning, carried out for the issuing context. -/
theorem exec_eq_carryOut (i : Instr) (s : State) : exec i s = carryOut s.ctx (beginInstr i s.ctx s.hs s) := by
  cases i <;> rfl

/-- The configuration is as before, `FATAL` is not cleared and the history has grown (R7, R41, R46). -/
def Grows (s t : State) : Prop :=
  t.cfg = s.cfg ∧ (s.fatal = true → t.fatal = true) ∧ ∃ l, t.log = s.log ++ l

theorem Grows.refl (s : State) : Grows s s := ⟨rfl, id, [], by simp⟩

theorem Grows.trans {s t u : State} (h : Grows s t) (g : Grows t u) : Grows s u := by
  obtain ⟨l, hl⟩ := h.2.2
  obtain ⟨k, hk⟩ := g.2.2
  exact ⟨g.1.trans h.1, fun x => g.2.1 (h.2.1 x), l ++ k, by rw [hk, hl, List.append_assoc]⟩

theorem doAction_grows {c : Ctx} {a : Action} {bit b : Bool} {s t : State}
    (h : doAction c a bit s = .next (b, t)) : Grows s t := by
  have := doAction_next h
  refine ⟨?_, ?_, this.2.2.1⟩
  · rw [this.1]; cases a <;> simp [controlAfter]; split <;> rfl
  · rw [this.1]; cases a <;> simp [controlAfter]; split <;> simp [wakeSet, wakeClear]

theorem beginInstr_grows {i : Instr} {c : Ctx} {hs : Handshake} {s : State} {b : Begun}
    (h : beginInstr i c hs s = .next b) :
    (∃ t, b = .answered t ∧ Grows s t) ∨ ∃ td t, b = .started td t ∧ Grows s t := by
  cases i <;> simp only [beginInstr, planDirin, planDirout, planGet, planSet, planSettype, planIrqen,
    planIrqdis, planAck, planSetwake, planDisall, planDispatch, planDetach, planAttach, planPmsuspend,
    planPmresume, planPmsuspendnoirq, planPmresumenoirq, entryChecksPin, entryChecks, whenAttached, pinCheck,
    raise, whenExclusive, whenResting, whenNoDispatch] at h
  all_goals
    repeat' split at h
  all_goals first | (cases h; done) | skip
  all_goals
    simp only [Host.Outcome.next.injEq] at h
    subst h
    first
    | exact .inl ⟨_, rfl, rfl, id, [_], rfl⟩
    | exact .inl ⟨_, rfl, rfl, fun _ => rfl, [_], rfl⟩
    | exact .inr ⟨_, _, rfl, rfl, id, [], by simp [dispatchEnter, attachInit]⟩

theorem startCommand_grows {r : Request} {s t : State} (h : startCommand r s = .next t) : Grows s t := by
  unfold startCommand at h
  split at h
  · split at h
    · unfold startInstr at h
      split at h
      · cases h; exact .refl _
      · obtain ⟨b, h1, h2⟩ := andThen_eq_next.1 h
        simp only [Host.Outcome.next.injEq] at h2
        subst h2
        have hr : Grows s (record (.command r.ctx r.word) s) := ⟨rfl, id, [_], rfl⟩
        rcases beginInstr_grows h1 with ⟨t, rfl, hg⟩ | ⟨td, t, rfl, hg⟩
        · exact hr.trans hg
        · exact hr.trans hg
    · cases h; exact ⟨rfl, id, [.command r.ctx r.word,
        .response r.ctx (respByte .illegalCommand false)], by simp [answerIllegal]⟩
  · cases h; exact .refl _

theorem advanceFlight_grows {c : Ctx} {s t : State} (h : advanceFlight c s = .next t) : Grows s t := by
  unfold advanceFlight at h
  split at h
  · cases h; exact .refl _
  · split at h
    · cases h; exact ⟨rfl, id, [], by simp⟩
    · obtain ⟨⟨b, u⟩, h1, h2⟩ := andThen_eq_next.1 h
      simp only [Host.Outcome.next.injEq] at h2
      subst h2
      have := doAction_grows h1
      exact this

theorem applyMoves_grows {ms : List Move} {s t : State} (h : applyMoves ms s = .next t) : Grows s t := by
  induction ms generalizing s with
  | nil => cases h; exact .refl _
  | cons m ms ih =>
    obtain ⟨u, h1, h2⟩ := andThen_eq_next.1 h
    refine Grows.trans ?_ (ih h2)
    cases m with
    | env e =>
      simp only [applyMove, Host.Outcome.next.injEq] at h1
      subst h1
      have := AccessFrame.envStep e s
      exact ⟨this.cfg, fun hf => by rw [this.1]; exact hf, this.2.2⟩
    | start r => exact startCommand_grows h1
    | advance c => exact advanceFlight_grows h1

theorem window_grows {s t : State} (h : window s = .next t) : Grows s t := by
  unfold window at h
  split at h
  · cases h; exact .refl _
  · have := applyMoves_grows h
    exact this

theorem runPieces_grows {c : Ctx} {td : List Action} {bit : Bool} {s t : State}
    (h : runPieces c td bit s = .next t) : Grows s t := by
  induction td generalizing s bit with
  | nil => cases h; exact ⟨rfl, id, [], by simp⟩
  | cons a td ih =>
    obtain ⟨u, h1, h2⟩ := andThen_eq_next.1 h
    obtain ⟨⟨b, v⟩, h3, h4⟩ := andThen_eq_next.1 h2
    exact ((window_grows (s := { s with running := _ }) h1).trans (doAction_grows h3)).trans (ih h4)

end Sys2Proof.Machine
end

