-- ==== Sys2Proof/Laws/Invariant.lean ====
section
/-! SUPPORT. The parts of the invariant of `Safety.lean` that hold inside a step too, and what each operation
of the world does to them, for every schedule of the other agents. -/

namespace Sys2Proof.Machine

/-- The invariant as it holds inside a step, while a command is being carried out. -/
def Steady (s : State) : Prop :=
  ConfigWF s.cfg ∧ MemWF s.mem ∧ s.lock = .free ∧ WakeOk s ∧
    (∀ f ∈ allFlights s, ∀ a ∈ f.todo, ActionOk s.cfg a) ∧ PmAgrees s ∧ DispatchOk s

theorem dispatchInFlight_iff {s : State} :
    dispatchInFlight s = true ↔ ∃ f ∈ allFlights s, Action.answerHandled ∈ f.todo := by
  simp [dispatchInFlight]

/-- `DispatchOk` survives when no `DISPATCH` is added and the line does not close. -/
theorem DispatchOk.mono {s u : State} (h : DispatchOk s)
    (hf : ∀ f ∈ allFlights u, Action.answerHandled ∈ f.todo → dispatchInFlight s = true)
    (ho : lineOpen s = true → lineOpen u = true) : DispatchOk u := by
  intro hu
  obtain ⟨f, hm, ha⟩ := dispatchInFlight_iff.1 hu
  exact ho (h (hf f hm ha))

/-- A part of a step answers a next state with `Q`, or stops with the model-level fault of R219. -/
def NextOrContract (o : Res State) (Q : State → Prop) : Prop :=
  (∃ t, o = .next t ∧ Q t) ∨ o = .fault .undefinedByContract

theorem NextOrContract.bind {o : Res State} {Q : State → Prop} {f : State → Res State} {R : State → Prop}
   (h : NextOrContract o Q) (g : ∀ t, Q t → NextOrContract (f t) R) : NextOrContract (andThen o f) R := by
  rcases h with ⟨t, rfl, hq⟩ | rfl
  · exact g t hq
  · exact .inr rfl

/-- What `Steady` does not look at. -/
theorem Steady.congr {s u : State} (h : Steady s)
    (hu : u = { s with
      running := u.running, inflight := u.inflight, log := u.log, resp := u.resp, port := u.port, ctx := u.ctx
      hs := u.hs, windows := u.windows, padin := u.padin, coreDark := u.coreDark, fatal := u.fatal, scan := u.scan, handled := u.handled })
    (hf : allFlights u = allFlights s) : Steady u := by
  obtain ⟨h1, h2, h3, h4, h5, h6, h7⟩ := h
  refine ⟨by rw [hu]; exact h1, by rw [hu]; exact h2, by rw [hu]; exact h3, by rw [hu]; exact h4, ?_, ?_,
    h7.mono (fun f hm ha => dispatchInFlight_iff.2 ⟨f, hf ▸ hm, ha⟩) fun ho => ?_⟩
  · rw [hf, show u.cfg = s.cfg by rw [hu]]; exact h5
  · unfold PmAgrees at *
    rw [hf, show u.pm = s.pm by rw [hu], show u.snapValid = s.snapValid by rw [hu],
      show u.lineMasked = s.lineMasked by rw [hu], show u.attached = s.attached by rw [hu]]
    exact h6
  · rw [lineOpen, show u.cfg = s.cfg by rw [hu], show u.lineMasked = s.lineMasked by rw [hu],
      show u.delivOff = s.delivOff by rw [hu]]
    exact ho

/-- Moving `DELIV_OFF` keeps what holds, unless it is set over a `DISPATCH` in flight (R223). -/
theorem Steady.deliv {s : State} (h : Steady s) (v : Bool) (hv : v = true → dispatchInFlight s = false) :
    Steady { s with delivOff := v } := by
  obtain ⟨h1, h2, h3, h4, h5, h6, h7⟩ := h
  refine ⟨h1, h2, h3, h4, h5, h6, fun hd => ?_⟩
  have hds : dispatchInFlight s = true := hd
  have ho := h7 hds
  cases v with
  | true => exact absurd (hv rfl) (by rw [hds]; decide)
  | false => simp only [lineOpen, Bool.and_eq_true] at ho ⊢; exact ⟨ho.1, rfl⟩

/-- The environment keeps what holds. -/
theorem Steady.envStep {s : State} (e : EnvStep) (h : Steady s) : Steady (Machine.envStep e s) := by
  have hf := AccessFrame.envStep e s
  obtain ⟨h1, h2, h3, h4, h5, h6, h7⟩ := h
  have e := hf.1
  generalize Machine.envStep _ s = t at *
  exact ⟨by rw [e]; exact h1, hf.2.1 h2, by rw [e]; exact h3, by rw [e]; exact h4, by rw [e]; exact h5,
    by rw [e]; exact h6, by rw [e]; exact h7⟩

/-- One piece of a command in flight keeps what holds: the command becomes the rest of it, or is done. -/
theorem Steady.piece {s t : State} {a : Action} {c : Ctx} {todo : List Action} {bit b : Bool} {pre post : List Flight}
    (hs : allFlights s = pre ++ ⟨c, a :: todo, bit⟩ :: post)
    (hf : ActionFrame a s t) (u : State)
    (hu : u = { t with running := u.running, inflight := u.inflight })
    (hu' : allFlights u = pre ++ (if todo = [] then [] else [⟨c, todo, b⟩]) ++ post)
    (h : Steady s) : Steady u := by
  obtain ⟨h1, h2, h3, h4, h5, h6, h7⟩ := h
  have hact : ActionOk s.cfg a := h5 ⟨c, a :: todo, bit⟩ (by rw [hs]; simp) a (by simp)
  have e := hf.1
  have ecfg : u.cfg = s.cfg := by rw [hu, e]; cases a <;> simp [controlAfter]; split <;> rfl
  refine ⟨by rw [ecfg]; exact h1, ?_, ?_, ?_, ?_, ?_, h7.mono (fun f hm ha => ?_) fun ho => ?_⟩
  · rw [hu]; exact hf.2.1 h2
  · have : u.lock = s.lock := by rw [hu, e]; cases a <;> simp [controlAfter]; split <;> rfl
    rw [this]; exact h3
  · intro p hp
    rw [ecfg]
    have hw : u.wake = (controlAfter a s).wake := by rw [hu, e]
    rw [hw] at hp
    cases a with
    | wake q on =>
      cases on with
      | true =>
        simp only [controlAfter, if_true, wakeSet, BitVec.getLsbD_or, Bool.or_eq_true] at hp
        rcases hp with hp | hp
        · exact h4 p hp
        · simp at hp
          have : p = q := by
             obtain ⟨⟨_, h2⟩, h3⟩ := hp
             omega
          subst this; exact hact
      | false =>
        simp only [controlAfter, Bool.false_eq_true, if_false, wakeClear, BitVec.getLsbD_and, Bool.and_eq_true] at hp
        exact h4 p hp.1
    | detachDone => simp [controlAfter] at hp
    | _ => exact h4 p hp
  · intro f hf' x hx
    rw [ecfg]
    rw [hu'] at hf'
    simp only [List.mem_append] at hf'
    rcases hf' with (hf' | hf') | hf'
    · exact h5 f (by rw [hs]; simp [hf']) x hx
    · split at hf'
      · simp at hf'
      · simp only [List.mem_singleton] at hf'
        subst hf'
        exact h5 ⟨c, a :: todo, bit⟩ (by rw [hs]; simp) x (by simp [show x ∈ todo from hx])
    · exact h5 f (by rw [hs]; simp [hf']) x hx
  · have hpm : u.pm = (controlAfter a s).pm := by rw [hu, e]
    have hsv : u.snapValid = (controlAfter a s).snapValid := by rw [hu, e]
    have hlm : u.lineMasked = (controlAfter a s).lineMasked := by rw [hu, e]
    have hat : u.attached = (controlAfter a s).attached := by rw [hu, e]
    -- case on s.pm
    cases hp : s.pm with
    | active =>
      simp only [PmAgrees, hp] at h6
      have hna : pmPiece a = false := h6.2.2 ⟨c, a :: todo, bit⟩ (by rw [hs]; simp) a (by simp)
      have hup : u.pm = .active := by
        rw [hpm, ← hp]; cases a <;> simp [controlAfter, pmPiece] at * ; split <;> rfl
      simp only [PmAgrees, hup]
      obtain ⟨k1, k2, k3⟩ := h6
      have h6 : True ∧ True ∧ _ := ⟨trivial, trivial, k3⟩
      refine ⟨?_, ?_, ?_⟩
      · rw [hsv]; clear * - hna k1; cases a <;> simp [controlAfter, pmPiece] at * <;> (try exact k1)
        split <;> exact k1
      · rw [hlm]; clear * - hna k2; cases a <;> simp [controlAfter, pmPiece] at * <;> (try exact k2)
        split <;> exact k2
      · intro f hf' x hx
        rw [hu'] at hf'
        simp only [List.mem_append] at hf'
        rcases hf' with (hf' | hf') | hf'
        · exact h6.2.2 f (by rw [hs]; simp [hf']) x hx
        · split at hf'
          · simp at hf'
          · simp only [List.mem_singleton] at hf'
            subst hf'
            exact h6.2.2 ⟨c, a :: todo, bit⟩ (by rw [hs]; simp) x (by simp [show x ∈ todo from hx])
        · exact h6.2.2 f (by rw [hs]; simp [hf']) x hx
    | suspended =>
      simp only [PmAgrees, hp] at h6
      have := h6.2.2.2
      rw [hs] at this; simp at this
    | suspending =>
      simp only [PmAgrees, hp] at h6
      obtain ⟨ha, hlm', c', b', hh | hh⟩ := h6
      · rw [hs] at hh
        have hpre : pre = [] := by cases pre with | nil => rfl | cons x pre => simp at hh
        subst hpre
        simp at hh
        obtain ⟨⟨rfl, ⟨rfl, rfl⟩, rfl⟩, rfl⟩ := hh
        have : u.pm = .suspending := by rw [hpm]; simp [controlAfter, hp]
        simp only [PmAgrees, this]
        refine ⟨by rw [hat]; exact ha, by rw [hlm]; exact hlm', c, b, .inr ?_⟩
        rw [hu']; simp
      · rw [hs] at hh
        have hpre : pre = [] := by cases pre with | nil => rfl | cons x pre => simp at hh
        subst hpre
        simp at hh
        obtain ⟨⟨rfl, ⟨rfl, rfl⟩, rfl⟩, rfl⟩ := hh
        have : u.pm = .suspended := by rw [hpm]; simp [controlAfter]
        simp only [PmAgrees, this]
        refine ⟨by rw [hat]; exact ha, by rw [hsv]; simp [controlAfter], by rw [hlm]; exact hlm', ?_⟩
        rw [hu']; simp
    | resuming =>
      simp only [PmAgrees, hp] at h6
      obtain ⟨ha, hsv', hlm', c', b', hh | hh⟩ := h6
      · rw [hs] at hh
        have hpre : pre = [] := by cases pre with | nil => rfl | cons x pre => simp at hh
        subst hpre
        simp at hh
        obtain ⟨⟨rfl, ⟨rfl, rfl⟩, rfl⟩, rfl⟩ := hh
        have : u.pm = .resuming := by rw [hpm]; simp [controlAfter, hp]
        simp only [PmAgrees, this]
        refine ⟨by rw [hat]; exact ha, by rw [hsv]; exact hsv', by rw [hlm]; exact hlm', c, b, .inr ?_⟩
        rw [hu']; simp
      · rw [hs] at hh
        have hpre : pre = [] := by cases pre with | nil => rfl | cons x pre => simp at hh
        subst hpre
        simp at hh
        obtain ⟨⟨rfl, ⟨rfl, rfl⟩, rfl⟩, rfl⟩ := hh
        have : u.pm = .active := by rw [hpm]; simp [controlAfter]
        simp only [PmAgrees, this]
        refine ⟨by rw [hsv]; simp [controlAfter], by rw [hlm]; simp [controlAfter], ?_⟩
        rw [hu']; simp
  · refine dispatchInFlight_iff.2 ?_
    rw [hu'] at hm
    simp only [List.mem_append] at hm
    rcases hm with (hm | hm) | hm
    · exact ⟨f, by rw [hs]; simp [hm], ha⟩
    · split at hm
      · simp at hm
      · simp only [List.mem_singleton] at hm
        subst hm
        exact ⟨⟨c, a :: todo, bit⟩, by rw [hs]; simp, List.mem_cons_of_mem _ ha⟩
    · exact ⟨f, by rw [hs]; simp [hm], ha⟩
  · have hd : u.delivOff = (controlAfter a s).delivOff := by rw [hu, e]
    have hlm : u.lineMasked = (controlAfter a s).lineMasked := by rw [hu, e]
    simp only [lineOpen, ecfg, hd, hlm, Bool.and_eq_true] at ho ⊢
    cases a with
    | wake p on => cases on <;> exact ho
    | resumeDone => exact ⟨⟨ho.1.1, rfl⟩, ho.2⟩
    | _ => exact ho

/-! ## Beginnings -/

/-- A beginning that answers at once keeps what holds. -/
def BeginAnswers (s : State) (o : Res Begun) : Prop :=
  ∃ t, o = .next (.answered t) ∧ Steady t ∧ t.running = s.running ∧ t.inflight = s.inflight ∧
    t.windows = s.windows

/-- A beginning with pieces to do keeps what holds, once the command is counted among those in flight. -/
def BeginStarts (s : State) (c : Ctx) (o : Res Begun) : Prop :=
  ∃ todo t, o = .next (.started todo t) ∧ todo ≠ [] ∧ t.running = s.running ∧ t.inflight = s.inflight ∧
    t.windows = s.windows ∧
    ∀ u, u = { t with running := u.running, inflight := u.inflight } →
      (allFlights u = allFlights s ++ [⟨c, todo, false⟩] ∨ allFlights u = ⟨c, todo, false⟩ :: allFlights s) →
      Steady u

/-- What a beginning can come to. -/
def BeginOk (s : State) (c : Ctx) (o : Res Begun) : Prop :=
  BeginAnswers s o ∨ BeginStarts s c o ∨ o = .fault .undefinedByContract

theorem raise_answers {s : State} (h : Steady s) (c : Ctx) (st : Status) : BeginAnswers s (raise c st s) :=
  ⟨_, rfl, h.congr rfl rfl, rfl, rfl, rfl⟩

/-- A command begun in `Active` that has no power-management piece. -/
theorem started_of_active {s : State} (h : Steady s) {c : Ctx} {todo : List Action} {t : State}
    (hne : todo ≠ []) (hr : t.running = s.running) (hi : t.inflight = s.inflight) (hwi : t.windows = s.windows)
    (hc : t.cfg = s.cfg) (hm : MemWF t.mem) (hl : t.lock = .free) (hp : t.pm = .active) (hsp : s.pm = .active)
    (hw : t.wake = s.wake ∨ t.wake = 0#64) (hsv : t.snapValid = false) (hlm : t.lineMasked = false)
    (hdo : t.delivOff = s.delivOff ∨ t.delivOff = false)
    (hda : Action.answerHandled ∈ todo → lineOpen s = true)
    (ha : ∀ a ∈ todo, ActionOk s.cfg a ∧ pmPiece a = false) :
    BeginStarts s c (.next (.started todo t)) := by
  refine ⟨todo, t, rfl, hne, hr, hi, hwi, fun u hu hfl => ?_⟩
  obtain ⟨h1, h2, h3, h4, h5, h6, h7⟩ := h
  have hfl' : ∀ f ∈ allFlights u, f ∈ allFlights s ∨ f = ⟨c, todo, false⟩ := by
    intro f hf
    rcases hfl with hfl | hfl <;> rw [hfl] at hf <;> simp at hf <;> tauto
  simp only [PmAgrees, hsp] at h6
  refine ⟨by rw [hu]; simpa [hc] using h1, by rw [hu]; exact hm, by rw [hu]; exact hl, ?_, ?_, ?_, ?_⟩
  · intro p hpp
    rw [hu] at hpp
    rw [show u.cfg = s.cfg by rw [hu]; exact hc]
    rcases hw with hw | hw
    · exact h4 p (by simpa [hw] using hpp)
    · simp [hw] at hpp
  · intro f hf a haa
    rw [show u.cfg = s.cfg by rw [hu]; exact hc]
    rcases hfl' f hf with hf | rfl
    · exact h5 f hf a haa
    · exact (ha a haa).1
  · have : u.pm = .active := by rw [hu]; exact hp
    simp only [PmAgrees, this]
    refine ⟨by rw [hu]; exact hsv, by rw [hu]; exact hlm, ?_⟩
    intro f hf a haa
    rcases hfl' f hf with hf | rfl
    · exact h6.2.2 f hf a haa
    · exact (ha a haa).2
  · intro hd
    obtain ⟨f, hm, hx⟩ := dispatchInFlight_iff.1 hd
    have ho : lineOpen s = true := by
      rcases hfl' f hm with hm | rfl
      · exact h7 (dispatchInFlight_iff.2 ⟨f, hm, hx⟩)
      · exact hda hx
    simp only [lineOpen, Bool.and_eq_true] at ho ⊢
    rw [show u.cfg = s.cfg by rw [hu]; exact hc, show u.lineMasked = false by rw [hu]; exact hlm,
      show u.delivOff = t.delivOff by rw [hu]]
    exact ⟨⟨ho.1.1, rfl⟩, by rcases hdo with e | e <;> rw [e]; exacts [ho.2, rfl]⟩

theorem started_simple {s : State} (h : Steady s) {c : Ctx} {todo : List Action} (hne : todo ≠ [])
    (hp : s.pm = .active) (hd : Action.answerHandled ∉ todo)
    (ha : ∀ a ∈ todo, ActionOk s.cfg a ∧ pmPiece a = false) : BeginStarts s c (.next (.started todo s)) := by
  have h6 := h.2.2.2.2.2.1
  simp only [PmAgrees, hp] at h6
  exact started_of_active h hne rfl rfl rfl rfl h.2.1 h.2.2.1 hp hp (.inl rfl) h6.1 h6.2.1 (.inl rfl)
    (fun hx => absurd hx hd) ha

theorem entryChecks_steady {s : State} (h : Steady s) {c : Ctx} {go : Res Begun}
    (hgo : s.attached = true → s.pm = .active → BeginOk s c go) : BeginOk s c (entryChecks c s go) := by
  unfold entryChecks whenAttached
  by_cases ha : s.attached = true
  · by_cases hp : s.pm = .active
    · rw [if_pos ha, if_pos hp]; exact hgo ha hp
    · rw [if_pos ha, if_neg hp]; exact .inr (.inr rfl)
  · rw [if_neg ha]; exact .inl (raise_answers h _ _)

theorem entryChecksPin_steady {s : State} (h : Steady s) {c : Ctx} {p : Nat} {go : Res Begun}
    (hgo : s.pm = .active → p < s.cfg.pinCount → BeginOk s c go) : BeginOk s c (entryChecksPin c p s go) := by
  refine entryChecks_steady h fun _ hp => ?_
  unfold pinCheck
  by_cases hpc : p < s.cfg.pinCount
  · rw [if_pos hpc]; exact hgo hp hpc
  · rw [if_neg hpc]; exact .inl (raise_answers h _ _)

/-- What the beginning of any command can come to. A `DISPATCH` that may not start has no step. -/
theorem beginInstr_steady {s : State} (h : Steady s) (i : Instr) (c : Ctx) (hs : Handshake) :
    BeginOk s c (beginInstr i c hs s) ∨
      (i = .dispatch ∧ s.attached = true ∧ dispatchMayStart s = false ∧ beginInstr i c hs s = .fault .dispatchHasNoStep) := by
  have simple : ∀ (todo : List Action), todo ≠ [] ∧ Action.answerHandled ∉ todo → s.pm = .active →
      (∀ a ∈ todo, ActionOk s.cfg a ∧ pmPiece a = false) → BeginOk s c (.next (.started todo s)) :=
    fun todo hne hp ha => .inr (.inl (started_simple h hne.1 hp hne.2 ha))
  have fails : ∀ st, BeginOk s c (raise c st s) := fun st => .inl (raise_answers h c st)
  by_cases hd : i = .dispatch
  · subst hd
    simp only [beginInstr, planDispatch]
    by_cases hm : dispatchMayStart s = true
    · left
      rw [if_pos hm]
      refine entryChecks_steady h fun _ hp => .inr (.inl ?_)
      have h6 := h.2.2.2.2.2.1
      simp only [PmAgrees, hp] at h6
      have ho : lineOpen s = true := by simp only [dispatchMayStart, Bool.and_eq_true] at hm; exact hm.1
      refine started_of_active h (by simp) rfl rfl rfl rfl h.2.1 h.2.2.1 hp hp (.inl rfl) h6.1 h6.2.1 (.inl rfl)
        (fun _ => ho) ?_
      intro a haa
      simp [scanPieces] at haa
      rcases haa with ⟨p, hp, rfl | rfl | rfl⟩ | rfl <;> simp [ActionOk, pmPiece, *]
    · rw [if_neg hm]
      unfold entryChecks whenAttached
      by_cases ha : s.attached = true
      · by_cases hp : s.pm = .active
        · rw [if_pos ha, if_pos hp]; exact .inr ⟨trivial, ha, by simpa using hm, rfl⟩
        · rw [if_pos ha, if_neg hp]; exact .inl (.inr (.inr rfl))
      · rw [if_neg ha]; exact .inl (fails _)
  left
  have h6 := h.2.2.2.2.2.1
  cases i with
  | dirin p => exact entryChecksPin_steady h fun hp hpc => simple _ (by simp) hp (by simp [ActionOk, pmPiece, hpc])
  | dirout p v =>
    exact entryChecksPin_steady h fun hp hpc => simple _ (by simp) hp (by simp [ActionOk, pmPiece, hpc])
  | get p => exact entryChecksPin_steady h fun hp hpc => simple _ (by simp) hp (by simp [ActionOk, pmPiece, hpc])
  | set p v => exact entryChecksPin_steady h fun hp hpc => simple _ (by simp) hp (by simp [ActionOk, pmPiece, hpc])
  | settype p t =>
    refine entryChecksPin_steady h fun hp hpc => ?_
    unfold trigBits
    by_cases ht : t < 4
    · simp only [ht, if_true]
      exact simple _ (by simp) hp (by simp [ActionOk, pmPiece, hpc])
    · simp only [ht, if_false]
      exact fails _
  | irqen p => exact entryChecksPin_steady h fun hp hpc => simple _ (by simp) hp (by simp [ActionOk, pmPiece, hpc])
  | irqdis p =>
    exact entryChecksPin_steady h fun hp hpc => simple _ (by simp) hp (by simp [ActionOk, pmPiece, hpc])
  | ack p => exact entryChecksPin_steady h fun hp hpc => simple _ (by simp) hp (by simp [ActionOk, pmPiece, hpc])
  | setwake p v =>
    refine entryChecksPin_steady h fun hp hpc => ?_
    by_cases hb : p < s.cfg.resumeBoundary
    · rw [if_pos hb]; exact fails _
    · rw [if_neg hb]
      exact simple _ (by simp) hp (by simp [ActionOk, pmPiece, hpc]; omega)
  | disall => exact entryChecks_steady h fun _ hp => simple _ (by simp) hp (by simp [ActionOk, pmPiece])
  | dispatch => exact absurd rfl hd
  | attach =>
    simp only [beginInstr, planAttach]
    by_cases ha : s.attached = true
    · rw [if_pos ha]; exact fails _
    · have hp : s.pm = .active := by
        cases hp : s.pm <;> simp only [PmAgrees, hp] at h6 <;> tauto
      rw [if_neg ha]
      split
      · exact fails _
      · split
        · exact fails _
        · split
          · exact fails _
          · exact .inr (.inl (started_of_active h (by simp) rfl rfl rfl rfl h.2.1 rfl rfl hp (.inr rfl) rfl rfl
              (.inr rfl) (by simp) (by simp [ActionOk, pmPiece])))
  | detach => exact entryChecks_steady h fun _ hp => simple _ (by simp) hp (by simp [ActionOk, pmPiece])
  | pmsuspend | pmresume =>
    simp only [beginInstr, planPmsuspend, planPmresume, whenAttached, whenResting, whenNoDispatch]
    by_cases ha : s.attached = true
    · rw [if_pos ha]
      split
      · first
        | exact .inl ⟨_, rfl, (h.deliv false (by simp)).congr rfl rfl, rfl, rfl, rfl⟩
        | (split
           · exact .inr (.inr rfl)
           · rename_i hd
             exact .inl ⟨_, rfl, (h.deliv true fun _ => by simpa using hd).congr rfl rfl, rfl, rfl, rfl⟩)
      · exact .inr (.inr rfl)
    · rw [if_neg ha]; exact fails _
  | pmsuspendnoirq =>
    simp only [beginInstr, planPmsuspendnoirq, whenAttached, whenResting, whenExclusive]
    by_cases ha : s.attached = true
    · rw [if_pos ha]
      split
      · exact .inr (.inr rfl)
      · rename_i hfl
        have hfl : allFlights s = [] := by simpa [someInFlight] using hfl
        split
        · split
          · exact fails _
          · refine .inr (.inl ⟨_, _, rfl, by simp, rfl, rfl, rfl, ?_⟩)
            obtain ⟨h1, h2, h3, h4, h5, -, -⟩ := h
            intro u hu hf
            rw [hfl] at hf
            have hf : allFlights u = [⟨c, [.capture, .suspendDone], false⟩] := by simpa using hf
            refine ⟨by rw [hu]; exact h1, by rw [hu]; exact h2, by rw [hu]; exact h3, by rw [hu]; exact h4, ?_, ?_,
              fun hd => ?_⟩
            · rw [hf]; simp [ActionOk]
            · have : u.pm = .suspending := by rw [hu]
              simp only [PmAgrees, this]
              exact ⟨by rw [hu]; exact ha, by rw [hu], _, _, .inl hf⟩
            · obtain ⟨f, hm, hx⟩ := dispatchInFlight_iff.1 hd
              rw [hf] at hm; simp at hm; subst hm; simp at hx
        · exact .inr (.inr rfl)
    · rw [if_neg ha]; exact fails _
  | pmresumenoirq =>
    simp only [beginInstr, planPmresumenoirq, whenAttached, whenExclusive]
    by_cases ha : s.attached = true
    · rw [if_pos ha]
      split
      · exact .inr (.inr rfl)
      · rename_i hfl
        have hfl : allFlights s = [] := by simpa [someInFlight] using hfl
        split
        · split
          · rename_i hsv hp
            simp only [PmAgrees, hp] at h6
            refine .inr (.inl ⟨_, _, rfl, by simp, rfl, rfl, rfl, ?_⟩)
            obtain ⟨h1, h2, h3, h4, h5, -, -⟩ := h
            intro u hu hf
            rw [hfl] at hf
            have hf : allFlights u = [⟨c, [.restore, .resumeDone], false⟩] := by simpa using hf
            refine ⟨by rw [hu]; exact h1, by rw [hu]; exact h2, by rw [hu]; exact h3, by rw [hu]; exact h4, ?_, ?_,
              fun hd => ?_⟩
            · rw [hf]; simp [ActionOk]
            · have : u.pm = .resuming := by rw [hu]
              simp only [PmAgrees, this]
              exact ⟨by rw [hu]; exact ha, by rw [hu]; exact hsv, by rw [hu]; exact h6.2.2.1, _, _, .inl hf⟩
            · obtain ⟨f, hm, hx⟩ := dispatchInFlight_iff.1 hd
              rw [hf] at hm; simp at hm; subst hm; simp at hx
          · exact .inr (.inr rfl)
        · exact .inl ⟨_, rfl, h.congr rfl rfl, rfl, rfl, rfl⟩
    · rw [if_neg ha]; exact fails _

/-! ## The world's moves -/

/-- What `putFlight` does to the first flight of a context. -/
theorem putFlight_spec (c : Ctx) (f : Flight) (todo : List Action) (b : Bool) (l : List Flight) (a : Action)
    (hf : l.find? (fun g => g.ctx == c) = some f) (ht : f.todo = a :: todo) :
    ∃ pre post bit, l = pre ++ ⟨c, a :: todo, bit⟩ :: post ∧
      putFlight ⟨c, todo, b⟩ l = pre ++ (if todo = [] then [] else [⟨c, todo, b⟩]) ++ post := by
  induction l with
  | nil => simp at hf
  | cons g l ih =>
    by_cases hg : g.ctx = c
    · simp [List.find?, hg] at hf
      subst hf
      refine ⟨[], l, g.bit, ?_, ?_⟩
      · obtain ⟨gc, gt, gb⟩ := g; simp_all
      · simp [putFlight, hg]; split <;> simp_all
    · rw [List.find?_cons_of_neg (by simpa using hg)] at hf
      obtain ⟨pre, post, bit, e1, e2⟩ := ih hf
      refine ⟨g :: pre, post, bit, by simp [e1], ?_⟩
      simp [putFlight, hg, e2]

theorem putFlight_nil (c : Ctx) (f : Flight) (l : List Flight)
    (hf : l.find? (fun g => g.ctx == c) = some f) (ht : f.todo = []) :
    ∃ pre post, l = pre ++ f :: post ∧ putFlight f l = pre ++ post := by
  induction l with
  | nil => simp at hf
  | cons g l ih =>
    by_cases hg : g.ctx = c
    · simp [List.find?, hg] at hf
      subst hf
      exact ⟨[], l, by simp, by simp [putFlight, ht]⟩
    · rw [List.find?_cons_of_neg (by simpa using hg)] at hf
      obtain ⟨pre, post, e1, e2⟩ := ih hf
      have : f.ctx = c := by have := List.find?_some hf; simpa using this
      exact ⟨g :: pre, post, by simp [e1], by simp [putFlight, this, hg, e2]⟩

theorem Steady.drop {s u : State} {pre post : List Flight} {f : Flight} (h : Steady s)
    (hs : allFlights s = pre ++ f :: post) (hf : f.todo = [])
    (hu : u = { s with inflight := u.inflight }) (hu' : allFlights u = pre ++ post) : Steady u := by
  obtain ⟨h1, h2, h3, h4, h5, h6, h7⟩ := h
  refine ⟨by rw [hu]; exact h1, by rw [hu]; exact h2, by rw [hu]; exact h3, by rw [hu]; exact h4, ?_, ?_,
    h7.mono (fun g hm ha => dispatchInFlight_iff.2 ⟨g, ?_, ha⟩) fun ho => by rw [hu]; exact ho⟩
  · rw [hu', show u.cfg = s.cfg by rw [hu]]
    intro g hg; exact h5 g (by rw [hs]; simp at *; tauto)
  · unfold PmAgrees at *
    rw [hu', show u.pm = s.pm by rw [hu], show u.snapValid = s.snapValid by rw [hu],
      show u.lineMasked = s.lineMasked by rw [hu], show u.attached = s.attached by rw [hu]]
    rw [hs] at h6
    split <;> rename_i hp <;> rw [hp] at h6 <;> simp only at h6
    · refine ⟨h6.1, h6.2.1, ?_⟩
      intro g hg; exact h6.2.2 g (by simp at *; tauto)
    · simp at h6
    · obtain ⟨_, _, c, b, hh | hh⟩ := h6 <;>
      · cases pre <;> simp at hh
        obtain ⟨rfl, rfl⟩ := hh
        simp at hf
    · obtain ⟨_, _, _, c, b, hh | hh⟩ := h6 <;>
      · cases pre <;> simp at hh
        obtain ⟨rfl, rfl⟩ := hh
        simp at hf
  · rw [hu'] at hm
    rw [hs]
    simp only [List.mem_append, List.mem_cons] at hm ⊢
    tauto

theorem advanceFlight_steady {s : State} (h : Steady s) (c : Ctx) :
    NextOrContract (advanceFlight c s) fun t => Steady t ∧ t.running = s.running := by
  unfold advanceFlight
  split
  · exact .inl ⟨s, rfl, h, rfl⟩
  · rename_i f hf
    split
    · rename_i ht
      refine .inl ⟨_, rfl, ?_, rfl⟩
      obtain ⟨pre, post, e1, e2⟩ := putFlight_nil c f _ hf ht
      refine Steady.drop (pre := s.running.toList ++ pre) (post := post) (f := f) h ?_ ht rfl ?_
      · simp [allFlights, e1]
      · simp [allFlights, e2]
    · rename_i a todo ht
      obtain ⟨pre, post, bit, e1, -⟩ := putFlight_spec c f todo false _ a hf ht
      have hs : allFlights s = (s.running.toList ++ pre) ++ ⟨c, a :: todo, bit⟩ :: post := by simp [allFlights, e1]
      obtain ⟨b, t, hd, hfr⟩ := doAction_completes c a f.bit h.1 h.2.2.1
        (h.2.2.2.2.1 ⟨c, a :: todo, bit⟩ (by rw [hs]; simp) a (by simp))
      rw [hd, andThen_next]
      have hru : t.running = s.running := by rw [hfr.1]; cases a <;> simp [controlAfter]; split <;> rfl
      have hin : t.inflight = s.inflight := by rw [hfr.1]; cases a <;> simp [controlAfter]; split <;> rfl
      obtain ⟨pre', post', bit', e1', e2'⟩ := putFlight_spec c f todo b _ a hf ht
      have hs' : allFlights s = (s.running.toList ++ pre') ++ ⟨c, a :: todo, bit'⟩ :: post' := by
        simp [allFlights, e1']
      refine .inl ⟨_, rfl, Steady.piece (b := b) hs' hfr _ rfl ?_ h, hru⟩
      simp only [allFlights, hin, e2', hru]; simp

theorem startCommand_steady {s : State} (h : Steady s) (r : Request) :
    NextOrContract (startCommand r s) fun t => Steady t ∧ t.running = s.running := by
  unfold startCommand
  split
  · split
    · rename_i i hi
      unfold startInstr
      split
      · exact .inl ⟨_, rfl, h, rfl⟩
      · rename_i hnd
        have h' : Steady (record (.command r.ctx r.word) s) := Steady.congr h rfl rfl
        rcases beginInstr_steady h' i r.ctx r.hs with
          (⟨t, ht, hm, hr, hif, hw⟩ | ⟨todo, t, ht, hne, hr, hif, hw, hm⟩ | ht) | ⟨hi, hat, hdd, ht⟩
        · simp only [ht, andThen_next, launch]
          exact .inl ⟨_, rfl, hm, hr⟩
        · simp only [ht, andThen_next, launch]
          refine .inl ⟨_, rfl, hm _ rfl (.inl ?_), hr⟩
          simp [allFlights, hr, hif]
        · simp only [ht]; exact .inr rfl
        · exact absurd ⟨hi, hat, hdd⟩ hnd
    · exact .inl ⟨_, rfl, Steady.congr h rfl rfl, rfl⟩
  · exact .inl ⟨_, rfl, h, rfl⟩

theorem applyMoves_steady (ms : List Move) {s : State} (h : Steady s) :
    NextOrContract (applyMoves ms s) fun t => Steady t ∧ t.running = s.running := by
  induction ms generalizing s with
  | nil => exact .inl ⟨_, rfl, h, rfl⟩
  | cons m ms ih =>
    have hm : NextOrContract (applyMove m s) fun t => Steady t ∧ t.running = s.running := by
      cases m with
      | env e => exact .inl ⟨_, rfl, Steady.envStep e h, (AccessFrame.envStep e s).running⟩
      | start r => exact startCommand_steady h r
      | advance c => exact advanceFlight_steady h c
    refine NextOrContract.bind hm fun t ht => ?_
    rcases ih ht.1 with ⟨u, hu, h1, h2⟩ | hu
    · exact .inl ⟨u, hu, h1, h2.trans ht.2⟩
    · exact .inr hu

theorem window_steady {s : State} (h : Steady s) :
    NextOrContract (window s) fun t => Steady t ∧ t.running = s.running := by
  unfold window
  split
  · exact .inl ⟨_, rfl, h, rfl⟩
  · exact applyMoves_steady _ (Steady.congr h rfl rfl)

/-- The pieces of a command, each with its window of the world. -/
theorem runPieces_steady (c : Ctx) (todo : List Action) (bit : Bool) {s : State}
    (h : Steady { s with running := if todo = [] then none else some ⟨c, todo, bit⟩ }) :
    NextOrContract (runPieces c todo bit s) fun t => Steady t ∧ t.running = none := by
  induction todo generalizing s bit with
  | nil => exact .inl ⟨_, rfl, h, rfl⟩
  | cons a todo ih =>
    rw [runPieces]
    simp only [List.cons_ne_nil, if_false] at h
    refine NextOrContract.bind (window_steady h) fun t ht => ?_
    obtain ⟨ht, hr⟩ := ht
    have hs : allFlights t = [] ++ ⟨c, a :: todo, bit⟩ :: t.inflight := by simp [allFlights, hr]
    obtain ⟨b, u, hd, hfr⟩ := doAction_completes c a bit ht.1 ht.2.2.1
      (ht.2.2.2.2.1 ⟨c, a :: todo, bit⟩ (by rw [hs]; simp) a (by simp))
    rw [hd, andThen_next]
    refine ih b (Steady.piece (b := b) hs hfr _ rfl ?_ ht)
    have hin : u.inflight = t.inflight := by rw [hfr.1]; cases a <;> simp [controlAfter]; split <;> rfl
    simp only [allFlights, hin]
    split <;> simp

end Sys2Proof.Machine
end

