-- ==== Sys2Proof/Laws/PerInstr.lean ====
section
/-! SUPPORT. A law of every command as syntax: the word of a well-formed command belongs to the command's own
row of the opcode table (30_encoding.md R99, R107). -/

namespace Sys2Proof.Laws

/-- A word given as a number belongs to a row when its bits above the operand fields are the row's. -/
theorem inRow_of_mod {n m b : Nat} {k : Nat} (hk : k ≤ 16) (hm : m = 2 ^ 16 - 2 ^ k) (hb : b < 2 ^ 16)
    (hn : n < 2 ^ 16) (h : n / 2 ^ k * 2 ^ k = b) :
    inRow ⟨BitVec.ofNat 16 m, BitVec.ofNat 16 b⟩ (BitVec.ofNat 16 n) := by
  apply BitVec.eq_of_toNat_eq
  have hmlt : m < 2 ^ 16 := by have := Nat.two_pow_pos k; omega
  simp only [BitVec.toNat_and, BitVec.toNat_ofNat, Nat.mod_eq_of_lt hn, Nat.mod_eq_of_lt hb,
    Nat.mod_eq_of_lt hmlt]
  subst hm h
  apply Nat.eq_of_testBit_eq
  intro i
  rw [Nat.testBit_and, show 2 ^ 16 - 2 ^ k = (2 ^ (16 - k) - 1) * 2 ^ k by
      rw [Nat.sub_mul, ← pow_add, Nat.sub_add_cancel hk, one_mul],
    Nat.testBit_mul_two_pow, Nat.testBit_mul_two_pow, Nat.testBit_div_two_pow, Nat.testBit_two_pow_sub_one]
  by_cases hi : k ≤ i
  · rw [Nat.sub_add_cancel hi]
    by_cases h16 : i < 16
    · simp [hi, show i - k < 16 - k by omega]
    · have : n.testBit i = false := Nat.testBit_lt_two_pow (lt_of_lt_of_le hn (Nat.pow_le_pow_right (by omega) (by omega)))
      simp [this]
  · simp [hi]

namespace EncodeInRow

/-- The word of a well-formed command belongs to the command's row. -/
def Statement (i : Instr) : Prop := i.WellFormed → inRow (tableRow i) (encode i)

theorem of_p {op p : Nat} (hp : p < 256) (hop : op < 16) :
    inRow ⟨0xFF00#16, BitVec.ofNat 16 (0x1000 * op)⟩ (BitVec.ofNat 16 (0x1000 * op + p)) :=
  inRow_of_mod (k := 8) (m := 0xFF00) (by decide) rfl (by omega) (by omega) (by omega)

theorem of_pv {op p : Nat} (v : Bool) (hp : p < 256) (hop : op < 16) :
    inRow ⟨0xFE00#16, BitVec.ofNat 16 (0x1000 * op)⟩
      (BitVec.ofNat 16 (0x1000 * op + 0x100 * v.toNat + p)) := by
  have := Bool.toNat_le v
  exact inRow_of_mod (k := 9) (m := 0xFE00) (by decide) rfl (by omega) (by omega) (by omega)

theorem dirin (pin : Nat) : Statement (.dirin pin) := fun h =>
  of_p (op := 0) (of_decide_eq_true h) (by decide)
theorem dirout (pin : Nat) (v : Bool) : Statement (.dirout pin v) := fun h =>
  of_pv (op := 1) v (of_decide_eq_true h) (by decide)
theorem get (pin : Nat) : Statement (.get pin) := fun h =>
  of_p (op := 2) (of_decide_eq_true h) (by decide)
theorem set (pin : Nat) (v : Bool) : Statement (.set pin v) := fun h =>
  of_pv (op := 3) v (of_decide_eq_true h) (by decide)
theorem settype (pin t : Nat) : Statement (.settype pin t) := fun h => by
  have h : pin < 256 ∧ t < 16 := by
    simpa [Instr.WellFormed, Instr.wellFormed] using h
  exact inRow_of_mod (n := 0x4000 + 0x100 * t + pin) (k := 12) (m := 0xF000) (b := 0x4000) (by decide) rfl
    (by omega) (by omega) (by omega)
theorem irqen (pin : Nat) : Statement (.irqen pin) := fun h =>
  of_p (op := 5) (of_decide_eq_true h) (by decide)
theorem irqdis (pin : Nat) : Statement (.irqdis pin) := fun h =>
  of_p (op := 6) (of_decide_eq_true h) (by decide)
theorem ack (pin : Nat) : Statement (.ack pin) := fun h =>
  of_p (op := 7) (of_decide_eq_true h) (by decide)
theorem setwake (pin : Nat) (v : Bool) : Statement (.setwake pin v) := fun h =>
  of_pv (op := 8) v (of_decide_eq_true h) (by decide)
theorem disall : Statement .disall := fun _ => by decide
theorem dispatch : Statement .dispatch := fun _ => by decide
theorem attach : Statement .attach := fun _ => by decide
theorem detach : Statement .detach := fun _ => by decide
theorem pmsuspend : Statement .pmsuspend := fun _ => by decide
theorem pmsuspendnoirq : Statement .pmsuspendnoirq := fun _ => by decide
theorem pmresumenoirq : Statement .pmresumenoirq := fun _ => by decide
theorem pmresume : Statement .pmresume := fun _ => by decide

end EncodeInRow

end Sys2Proof.Laws
end

