-- ==== Sys2Proof/Tests/Slice0.lean ====
section
/-! SUPPORT. Tests of the model against 95_test_vectors.md, and for every statement with hypotheses one concrete
state and operands that meet them all. Expected values are the spec's, named by their vector. -/

namespace Sys2Proof.Tests

-- one theorem after the other: a hundred kernel evaluations at once ask for more threads than memory allows
set_option Elab.async false

open Sys2Proof.Machine

/-! ## Decoding: words written out from R99, and V-ENC -/

/-- The command a word decodes to, if any. -/
def decoded (w : Word) : Option Instr := match decode w with | .ok i => some i | .error _ => none

-- op 0000, arg 0000, pin 00001100
theorem test_decode_dirin : decoded 0b0000_0000_00001100#16 = some (.dirin 12) := by decide +kernel
-- op 0001, 000 and v = 1, pin 00001001
theorem test_decode_dirout : decoded 0b0001_0001_00001001#16 = some (.dirout 9 true) := by decide +kernel
theorem test_decode_get : decoded 0b0010_0000_00001001#16 = some (.get 9) := by decide +kernel
theorem test_decode_set : decoded 0b0011_0001_00001001#16 = some (.set 9 true) := by decide +kernel
-- op 0100, t = 0011, pin 00001100
theorem test_decode_settype : decoded 0b0100_0011_00001100#16 = some (.settype 12 3) := by decide +kernel
theorem test_decode_irqen : decoded 0b0101_0000_00001100#16 = some (.irqen 12) := by decide +kernel
theorem test_decode_irqdis : decoded 0b0110_0000_00001100#16 = some (.irqdis 12) := by decide +kernel
theorem test_decode_ack : decoded 0b0111_0000_00000011#16 = some (.ack 3) := by decide +kernel
theorem test_decode_setwake : decoded 0b1000_0001_00001100#16 = some (.setwake 12 true) := by decide +kernel
theorem test_decode_disall : decoded 0b1001_0000_00000000#16 = some .disall := by decide +kernel
theorem test_decode_dispatch : decoded 0b1010_0000_00000000#16 = some .dispatch := by decide +kernel
-- op 1111, sub, then zeros
theorem test_decode_attach : decoded 0b1111_0000_00000000#16 = some .attach := by decide +kernel
theorem test_decode_detach : decoded 0b1111_0001_00000000#16 = some .detach := by decide +kernel
theorem test_decode_pmsuspend : decoded 0b1111_0010_00000000#16 = some .pmsuspend := by decide +kernel
theorem test_decode_pmsuspendnoirq : decoded 0b1111_0011_00000000#16 = some .pmsuspendnoirq := by decide +kernel
theorem test_decode_pmresumenoirq : decoded 0b1111_0100_00000000#16 = some .pmresumenoirq := by decide +kernel
theorem test_decode_pmresume : decoded 0b1111_0101_00000000#16 = some .pmresume := by decide +kernel

/-- The legal words of V-ENC whose operands the block later rejects. -/
theorem test_decode_wide_operands : decoded 0x4FFF#16 = some (.settype 255 15) ∧
    decoded 0x440C#16 = some (.settype 12 4) ∧ decoded 0x00FF#16 = some (.dirin 255) := by decide +kernel

/-- The illegal words of V-ENC. -/
theorem test_decode_illegal :
    [0x0100#16, 0x1209#16, 0x2109#16, 0x9001#16, 0xA100#16, 0xB000#16, 0xC123#16, 0xD000#16, 0xEFFF#16, 0xF600#16,
      0xFF00#16, 0xF001#16, 0x5F0C#16, 0x8209#16].map decoded = List.replicate 14 none := by decide +kernel

/-- A word of the table, as the table numbers it. -/
theorem test_decodeTableWord : decodeTableWord 16 0x810C = some (.setwake 12 true) := by decide +kernel

/-! ## Well-formedness: one ill-formed term per check -/

theorem test_wellFormed_pin : ¬ (Instr.dirin 256).WellFormed ∧ ¬ (Instr.dirout 256 true).WellFormed ∧
    ¬ (Instr.get 256).WellFormed ∧ ¬ (Instr.set 256 true).WellFormed ∧ ¬ (Instr.settype 256 0).WellFormed ∧
    ¬ (Instr.irqen 256).WellFormed ∧ ¬ (Instr.irqdis 256).WellFormed ∧ ¬ (Instr.ack 256).WellFormed ∧
    ¬ (Instr.setwake 256 true).WellFormed := by decide +kernel
theorem test_wellFormed_type : ¬ (Instr.settype 0 16).WellFormed ∧ (Instr.settype 255 15).WellFormed := by decide +kernel

/-- A pin boundary above the pin count, more than 64 pins, two kinds at one offset, an address past `2^ADDR_W`,
no calling context (R8, V-MAP2; R7). -/
theorem test_config_ill_formed :
    ¬ ConfigWF { Config.scenario with resumeBoundary := 11, pinCount := 10 } ∧
    ¬ ConfigWF { Config.scenario with pinCount := 65 } ∧
    ¬ ConfigWF { Config.scenario with base := { Bases.reference with dir := 0x01 } } ∧
    ¬ ConfigWF { Config.scenario with ioBase := 0xFFFF } ∧ ¬ ConfigWF { Config.scenario with nCtx := 0 } := by
  decide +kernel
theorem test_config_scenario : ConfigWF Config.scenario ∧ pageEnd Config.scenario = 0xC1 ∧
    (usedOffsets Config.scenario).length = 27 := by decide +kernel

/-- V-MAP rows 9, 10 and 12. -/
theorem test_mapping :
    offset? Config.scenario 9 .lvl = some 0x11 ∧ bitOf Config.scenario 9 = 1 ∧
    offset? Config.scenario 12 .lvl = some 0x90 ∧ bitOf Config.scenario 12 = 2 ∧
    offset? Config.scenario 10 .sts = some 0xC0 ∧ bitOf Config.scenario 10 = 0 ∧
    offset? Config.scenario 14 .lvl = none := by decide +kernel

/-- V-MAP2: 64 pins, boundary 32. -/
theorem test_mapping_wide :
    offset? { Config.scenario with pinCount := 64, resumeBoundary := 32 } 63 .sts = some 0xC3 ∧
    bitOf { Config.scenario with pinCount := 64, resumeBoundary := 32 } 63 = 7 := by decide +kernel

/-! ## States -/

/-- Attached and `Active`, registers and latches 0: the scenario after an `ATTACH` from the reset state. -/
def live : State := { State.reset with attached := true }

/-- `live` with bytes of the register page at offsets from `IO_BASE` 0x1000, ascending, none 0. -/
def liveWith (cells : List (Nat × Byte)) : State := { live with mem := cells.map fun c => (0x1000 + c.1, c.2) }

/-- `live` in the low-power window: `Suspended`, line masked, a snapshot of zeros. -/
def asleep : State := { live with pm := .suspended, snapValid := true, lineMasked := true }

/-- `live` with pin 12 triggered by a rising edge, enabled, pending and marked as a wake source. -/
def calling : State := { liveWith [(0x98, 0x04), (0xA8, 0x04), (0xC0, 0x04)] with wake := 0x1000#64 }

/-- The state a command leaves; the reset state when it leaves none. -/
def result (o : Res State) : State := match o with | .next t => t | .fault _ => State.reset | .refused _ => State.reset

/-- The response byte a command gets. -/
def response (o : Res State) : Option Byte := (result o).resp.map Prod.snd

/-- The bytes of the page a command leaves, by offset. -/
def page (o : Res State) : List (Nat × Byte) := (result o).mem.map fun c => (c.1 - 0x1000, c.2)

/-- The fault a command ends in. -/
def faultOf (o : Res State) : Option Fault := match o with | .fault f => some f | .next _ => none | .refused _ => none

/-- The register accesses of a command, reads as `(false, offset, value)`, writes as `(true, offset, value)`. -/
def accesses (o : Res State) : List (Bool × Nat × Byte) :=
  (result o).log.filterMap fun e =>
    match e with
    | .read _ off v => some (false, off, v)
    | .write _ off v => some (true, off, v)
    | _ => none

/-! ## One step of each command (95_test_vectors.md) -/

-- the example of R141: byte 0x88 from 0x00
theorem test_dirin : page (exec (.dirin 12) live) = [(0x88, 0x04)] ∧
    accesses (exec (.dirin 12) live) = [(false, 0x88, 0x00), (true, 0x88, 0x04)] := by decide +kernel
-- V-GPIO row 1: the write happens though nothing changes
theorem test_dirin_again : accesses (exec (.dirin 12) (liveWith [(0x88, 0xFF)])) =
    [(false, 0x88, 0xFF), (true, 0x88, 0xFF)] := by decide +kernel
-- V-GPIO row 2: all inputs, latches 0, reserved level bits 1
theorem test_dirout : accesses (exec (.dirout 12 true) (liveWith [(0x88, 0xFF), (0x90, 0xF0)])) =
    [(false, 0x88, 0xFF), (true, 0x88, 0xFB), (false, 0x90, 0xF0), (true, 0x90, 0xF4)] := by decide +kernel
theorem test_dirout_out_of_range : response (exec (.dirout 255 true) live) = some 0x01 := by decide +kernel
-- V-GPIO rows 3 and 5
theorem test_get_output : response (exec (.get 12) (liveWith [(0x88, 0xFB), (0x90, 0xF4)])) = some 0x10 := by decide +kernel
theorem test_get_input :
    response (exec (.get 13) { liveWith [(0x88, 0xFB), (0x90, 0xF4)] with padin := 0x2000#64 }) = some 0x10 := by
  decide +kernel
-- V-GPIO row 6: a set of an input pin changes no latch
theorem test_set_input :
    page (exec (.set 13 false) { liveWith [(0x88, 0xFB), (0x90, 0xF4)] with padin := 0x2000#64 }) =
      [(0x88, 0xFB), (0x90, 0xF4)] := by decide +kernel
-- V-GPIO row 7
theorem test_set_output :
    accesses (exec (.set 12 false) { liveWith [(0x88, 0xFB), (0x90, 0xF4)] with padin := 0x2000#64 }) =
      [(false, 0x90, 0xFC), (true, 0x90, 0xF8)] := by decide +kernel
-- V-TYPE, both
theorem test_settype_both : accesses (exec (.settype 12 3) live) =
    [(false, 0x98, 0x00), (true, 0x98, 0x04), (false, 0xA0, 0x00), (true, 0xA0, 0x04)] := by decide +kernel
-- V-TYPE, falling
theorem test_settype_falling : page (exec (.settype 12 2) (liveWith [(0x98, 0x04)])) = [(0xA0, 0x04)] ∧
    response (exec (.settype 12 4) live) = some 0x01 := by decide +kernel
-- V-IRQ rows 2 and 3
theorem test_irqen : page (exec (.irqen 13) (liveWith [(0xA8, 0x04)])) = [(0xA8, 0x0C)] := by decide +kernel
theorem test_irqdis : page (exec (.irqdis 12) (liveWith [(0xA8, 0x0C)])) = [(0xA8, 0x08)] := by decide +kernel
-- V-IRQ rows 4 and 7
theorem test_ack : page (exec (.ack 3) (liveWith [(0x40, 0x88)])) = [(0x40, 0x80)] ∧
    accesses (exec (.ack 3) (liveWith [(0x40, 0x88)])) = [(true, 0x40, 0x08)] := by decide +kernel
theorem test_ack_reserved : page (exec (.ack 9) (liveWith [(0x41, 0xFF)])) = [(0x41, 0xFD)] := by decide +kernel
-- V-WAKE
theorem test_setwake : (result (exec (.setwake 12 true) live)).wake = 0x1000#64 ∧
    (result (exec (.setwake 10 false) { live with wake := 0x1400#64 })).wake = 0x1000#64 := by decide +kernel
theorem test_setwake_core : response (exec (.setwake 9 true) live) = some 0x03 ∧
    response (exec (.setwake 9 false) live) = some 0x03 ∧ response (exec (.setwake 14 true) live) = some 0x01 := by
  decide +kernel
-- V-DISALL
theorem test_disall : accesses (exec .disall live) =
    [0x18, 0x19, 0x98, 0x20, 0x21, 0xA0, 0x28, 0x29, 0xA8, 0x30, 0x31, 0xB0, 0x38, 0x39, 0xB8].map
        (fun off => (true, off, 0x00#8)) ++
      [0x40, 0x41, 0xC0].map fun off => (true, off, 0xFF#8) := by decide +kernel
-- the example of R157: the document's pins 3, 7 and 11, the accesses from pin 7 on; then a spurious call
theorem test_dispatch : (result (exec .dispatch (liveWith [(0x40, 0x88), (0xC0, 0x02)]))).log.filterMap notified =
    [35, 39, 43] ∧ response (exec .dispatch (liveWith [(0x40, 0x88), (0xC0, 0x02)])) = some 0x10 ∧
    (accesses (exec .dispatch (liveWith [(0x40, 0x88), (0xC0, 0x02)]))).drop 8 =
      [(false, 0x40, 0x80), (true, 0x40, 0x80), (false, 0x41, 0x00), (false, 0x41, 0x00), (false, 0xC0, 0x02),
        (false, 0xC0, 0x02), (true, 0xC0, 0x02), (false, 0xC0, 0x00), (false, 0xC0, 0x00)] ∧
    response (exec .dispatch live) = some 0x00 ∧ (accesses (exec .dispatch live)).length = 14 := by decide +kernel
-- V-LIFE
theorem test_attach : response (exec .attach State.reset) = some 0x00 ∧
    (result (exec .attach State.reset)).attached = true ∧ response (exec .attach live) = some 0x02 := by decide +kernel
theorem test_attach_fails :
    response (exec .attach { State.reset with hs := ⟨false, true, true, true⟩ }) = some 0x04 ∧
    response (exec .attach { State.reset with hs := ⟨true, false, true, true⟩ }) = some 0x02 ∧
    response (exec .attach { State.reset with hs := ⟨true, true, false, true⟩ }) = some 0x02 := by decide +kernel
theorem test_detach : (result (exec .detach { live with wake := 0x1000#64 })).wake = 0#64 ∧
    (result (exec .detach { live with wake := 0x1000#64 })).attached = false ∧
    response (exec .detach State.reset) = some 0x03 := by decide +kernel
-- V-PM rows 1, 5 and 10
theorem test_pmsuspend : (result (exec .pmsuspend live)).delivOff = true ∧
    (result (exec .pmsuspend asleep)).pm = .suspended := by decide +kernel
theorem test_pmresume : (result (exec .pmresume { live with delivOff := true })).delivOff = false := by decide +kernel
-- V-PM rows 2 and 3
theorem test_pmsuspendnoirq :
    (accesses (exec .pmsuspendnoirq live)).map (fun a => a.2.1) =
      [0x00, 0x01, 0x08, 0x09, 0x10, 0x11, 0x30, 0x31, 0x38, 0x39] ∧
    (result (exec .pmsuspendnoirq live)).pm = .suspended := by decide +kernel
theorem test_pmsuspendnoirq_busy :
    response (exec .pmsuspendnoirq { live with hs := ⟨true, true, true, false⟩ }) = some 0x05 ∧
    (result (exec .pmsuspendnoirq { live with hs := ⟨true, true, true, false⟩ })).pm = .active := by decide +kernel
-- V-PM rows 4 and 6
theorem test_pmresumenoirq :
    (accesses (exec .pmresumenoirq asleep)).map (fun a => a.2.1) =
      [0x00, 0x01, 0x08, 0x09, 0x10, 0x11, 0x30, 0x31, 0x38, 0x39] ∧
    (result (exec .pmresumenoirq asleep)).pm = .active := by decide +kernel
theorem test_pmresumenoirq_missing : response (exec .pmresumenoirq live) = some 0x06 ∧
    (result (exec .pmresumenoirq live)).fatal = true := by decide +kernel

/-- V-PM row 9, V-PRIO row 4. -/
theorem test_window : faultOf (exec (.get 255) asleep) = some .undefinedByContract ∧
    faultOf (exec .dispatch asleep) = some .undefinedByContract := by decide +kernel
/-- V-LIFE row 2, `DISPATCH` after `PMSUSPEND`, and (R204) the dispatch context's on a detached Controller. -/
theorem test_dispatch_masked : response (exec .dispatch State.reset) = some 0x03 ∧
    faultOf (exec .dispatch { live with delivOff := true }) = some .dispatchHasNoStep ∧
    response (startCommand ⟨.dispatch, 0xA000#16, live.hs⟩ { State.reset with delivOff := true }) = some 0x03 := by
  decide +kernel
/-- R223: the mask flag is not set over a `DISPATCH` in flight. -/
theorem test_pmsuspend_over_dispatch :
    faultOf (exec .pmsuspend { live with inflight := [⟨.dispatch, [.answerHandled], false⟩] }) =
      some .undefinedByContract := by decide +kernel
/-- R229: a receiver's `ACK` falls into the scan, between the test of pin 3 and its notification. -/
theorem test_receiver_acks :
    response (applyMoves [.start ⟨.receiver, 0x7003#16, live.hs⟩, .advance .receiver, .advance .receiver]
      { liveWith [(0x40, 0x88)] with inflight := [⟨.dispatch, [.notify 3, .answerHandled], true⟩] }) = some 0x00 ∧
    page (applyMoves [.start ⟨.receiver, 0x7003#16, live.hs⟩, .advance .receiver]
      { liveWith [(0x40, 0x88)] with inflight := [⟨.dispatch, [.notify 3, .answerHandled], true⟩] }) =
      [(0x40, 0x80)] := by decide +kernel
/-- R73 (b): a command of a context that has one in flight waits. -/
theorem test_port_waits :
    (result (step ({ live with inflight := [⟨.ordinary 0, [.answer], false⟩] }.withFetchWord 16 0x7003))).port.length =
      1 := by decide +kernel
/-- V-PRIO row 1: an illegal word wins over everything. -/
theorem test_illegal : response (step (State.reset.withFetchWord 16 0x21FF)) = some 0x07 := by decide +kernel
/-- V-LIFE row 6 through the step. -/
theorem test_step_attach : response (step (State.reset.withFetchWord 16 0xF000)) = some 0x00 := by decide +kernel

/-- V-EDGE: rising type, a rising and a falling edge; the last row of the table. -/
theorem test_edge : (envStep (.edge 12 .rising) (liveWith [(0x98, 0x04)])).mem = [(0x1098, 0x04), (0x10C0, 0x04)] ∧
    (envStep (.edge 12 .falling) (liveWith [(0x98, 0x04)])).mem = [(0x1098, 0x04)] ∧
    (envStep (.edge 12 .rising) { asleep with mem := [(0x1098, 0x04)] }).mem =
      [(0x1098, 0x04), (0x10C0, 0x04)] := by decide +kernel
/-- R45: an input pin drives nothing, an output pin its latch, and there is no pin 14. -/
theorem test_padOut : padOut (liveWith [(0x88, 0x04), (0x90, 0x08)]) 12 = some .released ∧
    padOut (liveWith [(0x88, 0x04), (0x90, 0x08)]) 13 = some (.drives true) ∧ padOut live 14 = none := by decide +kernel
/-- R224 and R174 on the vectors of V-EDGE and V-WAKE. -/
theorem test_outputs : lineOut (liveWith [(0xA8, 0x04), (0xC0, 0x04)]) = true ∧
    lineOut (liveWith [(0xA8, 0x08), (0xC0, 0x04)]) = false ∧
    wakeOut { liveWith [(0xC0, 0x04)] with wake := 0x1000#64 } = true ∧
    wakeOut { liveWith [(0xC0, 0x08)] with wake := 0x1000#64 } = false := by decide +kernel

/-! ## Witnesses: for every statement with hypotheses, a state and operands that meet them together

Where a statement has several clauses over one input, each clause has its witness, at the ends of its range. -/

theorem live_ready : Ready live := by unfold Ready; decide +kernel
theorem live_live : Live live := by unfold Live; decide +kernel
theorem asleep_ready : Ready asleep := by unfold Ready; decide +kernel

theorem live_inv : StateInv live :=
  ⟨by decide +kernel, by decide +kernel, rfl, rfl, fun p h => by simp [live, State.reset] at h,
    fun f h => by simp [live, State.reset] at h,
    by show _ ∧ _; exact ⟨rfl, rfl, fun f h => by simp [allFlights, live, State.reset] at h⟩, fun _ => rfl⟩

theorem asleep_inv : StateInv asleep :=
  ⟨by decide +kernel, by decide +kernel, rfl, rfl, fun p h => by simp [asleep, live, State.reset] at h,
    fun f h => by simp [asleep, live, State.reset] at h, by show _ ∧ _; exact ⟨rfl, rfl, rfl, rfl⟩,
    fun h => absurd h (by decide +kernel)⟩

-- DecodeOfEncode: a command with each operand at its largest, and one without operands
theorem witness_DecodeOfEncode : (Instr.settype 255 15).WellFormed ∧ (Instr.setwake 255 true).WellFormed ∧
    (Instr.dirin 0).WellFormed ∧ Instr.pmresume.WellFormed := by decide +kernel
-- EncodeOfDecode
theorem witness_EncodeOfDecode : decode 0x430C#16 = .ok (.settype 12 3) := by rfl
-- LegalWordsMatchOneRow
theorem witness_LegalWordsMatchOneRow : decode 0x810C#16 = .ok (.setwake 12 true) ∧
    tableRow (.setwake 0 false) ∈ opcodeTable ∧ inRow (tableRow (.setwake 0 false)) 0x810C#16 :=
  ⟨rfl, by decide +kernel, by decide +kernel⟩
-- IllegalWordsAreAnswered: each clause of R100 at both ends
theorem witness_IllegalWordsAreAnswered :
    decode 0xB000#16 = .error (.reservedOpcode 0xB) ∧ decode 0xEFFF#16 = .error (.reservedOpcode 0xE) ∧
    decode 0xF600#16 = .error (.reservedSubOpcode 6) ∧ decode 0xFFFF#16 = .error (.reservedSubOpcode 15) ∧
    decode 0x0100#16 = .error .reservedField ∧ decode 0x7FFF#16 = .error .reservedField ∧
    decode 0x1200#16 = .error .reservedField ∧ decode 0x8FFF#16 = .error .reservedField ∧
    decode 0x9001#16 = .error .reservedField ∧ decode 0xAFFF#16 = .error .reservedField ∧
    decode 0xF001#16 = .error .reservedField ∧ decode 0xF5FF#16 = .error .reservedField :=
  ⟨rfl, rfl, rfl, rfl, rfl, rfl, rfl, rfl, rfl, rfl, rfl, rfl⟩
-- StepRunsTheDecodedCommand
theorem witness_StepRunsTheDecodedCommand :
    ConfigWF (live.withFetchWord 16 0x810C).cfg ∧
    (∃ r, (live.withFetchWord 16 0x810C).port = [r] ∧ decode r.word = .ok (.setwake 12 true)) ∧
    ctxBusy (live.withFetchWord 16 0x810C) (.ordinary 0) = false ∧
    (∃ r, (live.withFetchWord 16 0xB000).port = [r] ∧ decode r.word = .error (.reservedOpcode 0xB)) ∧
    ctxBusy (live.withFetchWord 16 0xB000) (.ordinary 0) = false ∧
    (∃ (s : State) (r : Request), ConfigWF s.cfg ∧ s.port = [r] ∧ ctxBusy s r.ctx = true) ∧
    ConfigWF live.cfg ∧ live.port = [] :=
  ⟨by decide +kernel, ⟨_, rfl, rfl⟩, by decide +kernel, ⟨_, rfl, rfl⟩, by decide +kernel,
    ⟨{ live with inflight := [⟨.power, [.answer], false⟩], port := [⟨.power, 0x9000#16, live.hs⟩] },
      ⟨.power, 0x9000#16, live.hs⟩, live_ready.1, rfl, by decide +kernel⟩, by decide +kernel, rfl⟩
-- IllFormedConfigurationIsRefused: each of its three clauses, one step outside the bound
theorem witness_IllFormedConfigurationIsRefused :
    ¬ (11 ≤ 10 ∧ 10 ≤ 64) ∧ ¬ (10 ≤ 65 ∧ 65 ≤ 64) ∧
    ¬ (usedOffsets { Config.scenario with stride := 0 }).Nodup ∧
    ¬ ((2 ^ 16 - 0xC0) + pageEnd { Config.scenario with ioBase := 2 ^ 16 - 0xC0 } ≤ 2 ^ 16) := by
  decide +kernel
-- ConfigurationWithoutContextIsRefused
theorem witness_ConfigurationWithoutContextIsRefused :
    ({ live with cfg := { Config.scenario with nCtx := 0 } } : State).cfg.nCtx = 0 := by rfl
-- EveryStepKeepsInv, StepsFromInvAreNeverRefused
theorem witness_EveryStepKeepsInv : StateInv live ∧ StateInv asleep ∧ (∃ t, step live = .next t) ∧
    ∃ t, step (asleep.withFetchWord 16 0xF400) = .next t :=
  ⟨live_inv, asleep_inv, ⟨_, rfl⟩, ⟨result (step (asleep.withFetchWord 16 0xF400)), by rfl⟩⟩
-- StepKeepsConfigFatalAndHistory
theorem witness_StepKeepsConfigFatalAndHistory :
    ({ live with fatal := true } : State).fatal = true ∧ ∃ t, step { live with fatal := true } = .next t :=
  ⟨rfl, _, rfl⟩
-- DetachedControllerIsBlank: a detached state, an attached one, and an environment step to come
theorem witness_DetachedControllerIsBlank :
    DetachedBlank { live with attached := false, windows := [[.env (.pad 3 true)]] } ∧
    StateInv { live with attached := false, windows := [[.env (.pad 3 true)]] } ∧ DetachedBlank live ∧
    ∃ t, step { live with attached := false, windows := [[.env (.pad 3 true)]] } = .next t :=
  ⟨⟨rfl, by decide +kernel, fun _ => ⟨rfl, rfl, rfl⟩⟩,
    ⟨by decide +kernel, by decide +kernel, rfl, rfl, fun p h => by simp [live, State.reset] at h,
      fun f h => by simp [live, State.reset] at h,
      by show _ ∧ _; exact ⟨rfl, rfl, fun f h => by simp [allFlights, live, State.reset] at h⟩, fun _ => rfl⟩,
    ⟨rfl, by decide +kernel, fun _ => ⟨rfl, rfl, rfl⟩⟩, _, rfl⟩
-- MappingLaws: the first and the last pin; two pins 8 apart in a well; two wells
theorem witness_MappingLaws : ConfigWF Config.scenario ∧ 0 < Config.scenario.pinCount ∧
    13 < Config.scenario.pinCount ∧ 1 + 8 < Config.scenario.pinCount ∧
    wellOf Config.scenario (1 + 8) = wellOf Config.scenario 1 ∧
    wellOf Config.scenario 10 ≠ wellOf Config.scenario 9 := by decide +kernel
-- RegisterBankDomain: both ends of the core well, of the resume well and of what lies beyond
theorem witness_RegisterBankDomain : 0 < Config.scenario.resumeBoundary ∧ 0 < Config.scenario.pinCount ∧
    9 < Config.scenario.resumeBoundary ∧ 9 < Config.scenario.pinCount ∧ Config.scenario.resumeBoundary ≤ 10 ∧
    10 < Config.scenario.pinCount ∧ Config.scenario.resumeBoundary ≤ 13 ∧ 13 < Config.scenario.pinCount ∧
    Config.scenario.pinCount ≤ 14 ∧ Config.scenario.pinCount ≤ 255 := by decide +kernel
-- EveryPinHasItsOwnBits
theorem witness_EveryPinHasItsOwnBits : ConfigWF Config.scenario ∧ 13 < Config.scenario.pinCount ∧
    offset? Config.scenario 13 .sts = offset? Config.scenario 13 .sts := by decide +kernel
-- LevelPathPinByPin: the last pin bit and the first reserved bit of each well
theorem witness_LevelPathPinByPin : ConfigWF live.cfg ∧ MemWF live.mem ∧
    1 < bytesIn live.cfg .core ∧ 8 * 1 + 1 < pinsIn live.cfg .core ∧ pinsIn live.cfg .core ≤ 8 * 1 + 2 ∧
    0 < bytesIn live.cfg .resume ∧ 8 * 0 + 3 < pinsIn live.cfg .resume ∧ pinsIn live.cfg .resume ≤ 8 * 0 + 4 := by
  decide +kernel
-- RegisterWritePerKind
theorem witness_RegisterWritePerKind : MemWF (liveWith [(0x40, 0x88)]).mem ∧
    (Reg.mk .sts .core 0).kind = .sts ∧ (Reg.mk .nmi .resume 0).kind ≠ .sts ∧
    (Reg.mk .nmi .resume 0).kind ≠ .lvl ∧ ConfigWF (liveWith [(0x40, 0x88)]).cfg ∧
    Reg.mk .sts .core 0 ∈ regs (liveWith [(0x40, 0x88)]).cfg ∧
    Reg.mk .nmi .resume 0 ∈ regs (liveWith [(0x40, 0x88)]).cfg ∧
    0xC1 ∉ usedOffsets (liveWith [(0x40, 0x88)]).cfg ∧ 0x42 ∉ usedOffsets (liveWith [(0x40, 0x88)]).cfg := by
  decide +kernel
-- PlainBitCommands, DiroutDrivesTheLevel, GetReportsTheLevel, SetWritesOutputLatchesOnly, InputLevelIsReadOnly,
-- AckClearsOnePendingBit: the first pin, the last core pin, the first resume pin, the last pin
theorem witness_PinCommands : Ready live ∧ Live live ∧ 0 < live.cfg.pinCount ∧ 9 < live.cfg.pinCount ∧
    10 < live.cfg.pinCount ∧ 13 < live.cfg.pinCount :=
  ⟨live_ready, live_live, by decide +kernel, by decide +kernel, by decide +kernel, by decide +kernel⟩
theorem witness_PlainBitCommands : Ready live ∧ Live live ∧ 13 < live.cfg.pinCount ∧
    (Instr.irqen 13, Kind.gpe, true) ∈
      [(Instr.dirin 13, Kind.dir, true), (.irqen 13, .gpe, true), (.irqdis 13, .gpe, false)] :=
  ⟨live_ready, live_live, by decide +kernel, by decide +kernel⟩
-- LevelRoundTrip: an output pin
theorem witness_LevelRoundTrip : Ready live ∧ Live live ∧ 12 < live.cfg.pinCount ∧ pinBit live .dir 12 = false :=
  ⟨live_ready, live_live, by decide +kernel, by decide +kernel⟩
-- PadsShowDirectionAndLatch: a pin with power in each of the three ways, one that does not exist, the three commands
theorem witness_PadsShowDirectionAndLatch : Ready live ∧ Live live ∧ 9 < live.cfg.pinCount ∧
    live.cfg.resumeBoundary ≤ 10 ∧ 10 < live.cfg.pinCount ∧ live.pm ≠ .suspended ∧ asleep.coreDark = false ∧
    live.cfg.pinCount ≤ 14 ∧
    (Instr.dirin 9, some Pad.released) ∈ [(Instr.dirout 9 true, some (Pad.drives true)), (.dirin 9, some .released),
      (.set 9 true, if pinBit live .dir 9 then padOut live 9 else some (.drives true))] :=
  ⟨live_ready, live_live, by decide +kernel, by decide +kernel, by decide +kernel, by decide +kernel,
    by decide +kernel, by decide +kernel, .tail _ (.head _)⟩
-- SettypeNamesTheType: the first and the last type
theorem witness_SettypeNamesTheType : Ready live ∧ Live live ∧ 12 < live.cfg.pinCount ∧ 0 < 4 ∧ 3 < 4 :=
  ⟨live_ready, live_live, by decide +kernel, by decide +kernel, by decide +kernel⟩
-- DiroutTransientIsObservable: context 1 reads pin 9 while context 0 drives it
theorem witness_DiroutTransientIsObservable :
    ∃ (s : State) (r : Request), ConfigWF s.cfg ∧ MemWF s.mem ∧ s.lock = .free ∧ s.inflight = [] ∧ Live s ∧
      9 < s.cfg.pinCount ∧ decode r.word = .ok (.get 9) ∧ ctxExists s.cfg r.ctx = true ∧ r.ctx ≠ s.ctx ∧
      s.windows = [[], [], [], [.start r, .advance r.ctx, .advance r.ctx]] :=
  ⟨{ live with windows := [[], [], [], [.start ⟨.ordinary 1, 0x2009#16, ⟨true, true, true, true⟩⟩,
      .advance (.ordinary 1), .advance (.ordinary 1)]] },
    ⟨.ordinary 1, 0x2009#16, ⟨true, true, true, true⟩⟩, by decide +kernel, by decide +kernel, rfl, rfl, live_live,
    by decide +kernel, rfl, by decide +kernel, by decide +kernel, rfl⟩
-- SetwakePerPin, WakeSetMarksOnePin, WakeClearUnmarksOnePin: each clause at both ends of its range
theorem witness_SetwakePerPin : Ready live ∧ Live live ∧ 0 < live.cfg.resumeBoundary ∧
    9 < live.cfg.resumeBoundary ∧ live.cfg.resumeBoundary ≤ 10 ∧ 10 < live.cfg.pinCount ∧
    live.cfg.resumeBoundary ≤ 13 ∧ 13 < live.cfg.pinCount ∧ live.cfg.pinCount ≤ 14 ∧ live.cfg.pinCount ≤ 255 :=
  ⟨live_ready, live_live, by decide +kernel⟩
theorem witness_WakeSet : ConfigWF live.cfg ∧ live.cfg.resumeBoundary ≤ 10 ∧ 10 < live.cfg.pinCount ∧
    live.wake.getLsbD 10 = false ∧ live.cfg.resumeBoundary ≤ 13 ∧ 13 < live.cfg.pinCount := by decide +kernel
-- LineAndWakeOutFollowTheirCauses: each of its clauses, pin 12 being pending, enabled, marked and triggered alone
theorem witness_LineAndWakeOutFollowTheirCauses : Ready calling ∧ Live calling ∧ 12 < calling.cfg.pinCount ∧
    calling.cfg.hasLine = true ∧ calling.cfg.resumeBoundary ≤ 12 ∧ pinBit calling .sts 12 = true ∧
    pinBit calling .gpe 12 = true ∧ pinBit calling (triggerKind .rising) 12 = true ∧
    calling.wake.getLsbD 12 = true ∧
    (∀ q, q < calling.cfg.pinCount → q ≠ 12 → (pinBit calling .sts q && pinBit calling .gpe q) = false) ∧
    (∀ q, q < calling.cfg.pinCount → q ≠ 12 → (calling.wake.getLsbD q && pinBit calling .sts q) = false) :=
  ⟨by unfold Ready; decide +kernel, by unfold Live; decide +kernel, by decide +kernel⟩
-- DisallClearsEverySource, DetachRetiresTheController
theorem witness_DisallClearsEverySource : Ready live ∧ Live live ∧ (Reg.mk .sts .resume 0) ∈ regs live.cfg :=
  ⟨live_ready, live_live, by decide +kernel⟩
-- DispatchServesEveryPendingPin
theorem witness_DispatchServesEveryPendingPin : Ready live ∧ Live live ∧ lineOpen live = true ∧
    dispatchInFlight live = false := ⟨live_ready, live_live, by decide +kernel, by decide +kernel⟩
-- DispatchHasNoStepWhileMasked: each of the four conditions, and its last clause under the fourth
theorem witness_DispatchHasNoStepWhileMasked :
    Live { live with cfg := { Config.scenario with hasLine := false } } ∧ Live { live with lineMasked := true } ∧
    Live { live with delivOff := true } ∧ Live { live with inflight := [⟨.dispatch, [.answerHandled], false⟩] } ∧
    dispatchInFlight { live with inflight := [⟨.dispatch, [.answerHandled], false⟩] } = true ∧
    decode 0xA000#16 = .ok .dispatch :=
  ⟨live_live, live_live, live_live, live_live, by decide +kernel, rfl⟩
-- AttachLeavesAllClear: with an edge and a pad change inside, and with nobody else acting
theorem witness_AttachLeavesAllClear :
    (∃ s : State, ConfigWF s.cfg ∧ MemWF s.mem ∧ s.attached = false ∧ s.inflight = [] ∧ s.windows ≠ [] ∧
      (∀ ms ∈ s.windows, ∀ m ∈ ms, harmlessMove m = true) ∧
      s.hs.variantOk = true ∧ s.hs.ioOk = true ∧ s.hs.virqOk = true) ∧
    ∃ s : State, ConfigWF s.cfg ∧ MemWF s.mem ∧ s.attached = false ∧ s.inflight = [] ∧ s.windows = [] ∧
      (∀ ms ∈ s.windows, ∀ m ∈ ms, harmlessMove m = true) ∧
      s.hs.variantOk = true ∧ s.hs.ioOk = true ∧ s.hs.virqOk = true :=
  ⟨⟨{ liveWith [(0x18, 0xFF)] with attached := false, windows := [[.env (.edge 3 .rising)], [.env (.pad 3 true)]] },
      by decide +kernel, by decide +kernel, rfl, rfl, by decide +kernel, by decide +kernel, rfl, rfl, rfl⟩,
    ⟨State.reset, by decide +kernel, by decide +kernel, rfl, rfl, rfl, by decide +kernel, rfl, rfl, rfl⟩⟩
-- SuspendAndResumeMoveDelivery: both resting states
theorem witness_SuspendAndResumeMoveDelivery :
    live.attached = true ∧ live.pm = .active ∧ dispatchInFlight live = false ∧ asleep.attached = true ∧
    asleep.pm = .suspended ∧ dispatchInFlight asleep = false := by
  decide +kernel
-- SuspendNoirqCaptures: both resting states, and without a line
theorem witness_SuspendNoirqCaptures : Ready live ∧ Ready asleep ∧ someInFlight live = false ∧
    someInFlight asleep = false ∧ live.hs.maskOk = true ∧ asleep.attached = true ∧
    ({ live with cfg := { Config.scenario with hasLine := false } } : State).cfg.hasLine = false :=
  ⟨live_ready, asleep_ready, by decide +kernel⟩
-- ResumeNoirqRestores
theorem witness_ResumeNoirqRestores : Ready asleep ∧ asleep.attached = true ∧ someInFlight asleep = false ∧
    asleep.snapValid = true ∧ asleep.pm = .suspended :=
  ⟨asleep_ready, by decide +kernel⟩
-- SuspendResumeRoundTrip: with a power loss in between
theorem witness_SuspendResumeRoundTrip : Ready live ∧ Live live ∧ someInFlight live = false ∧
    live.hs.maskOk = true ∧ (∀ e ∈ [EnvStep.powerLoss 0#576], harmlessMove (.env e) = true) ∧
    pinBit live .dir 0 = false := ⟨live_ready, live_live, by decide +kernel⟩
-- MaskFailureChangesNothing
theorem witness_MaskFailureChangesNothing :
    ∃ s : State, s.attached = true ∧ someInFlight s = false ∧ s.pm = .suspended ∧ s.cfg.hasLine = true ∧
      s.hs.maskOk = false :=
  ⟨{ asleep with hs := ⟨true, true, true, false⟩ }, by decide +kernel⟩
-- MissingSnapshotIsReported
theorem witness_MissingSnapshotIsReported : live.attached = true ∧ someInFlight live = false ∧
    live.snapValid = false := by decide +kernel
-- PowerLossTakesTheCoreWell: where it happens, and where it does not
theorem witness_PowerLossTakesTheCoreWell : ConfigWF asleep.cfg ∧ MemWF asleep.mem ∧ asleep.pm = .suspended ∧
    allFlights asleep = [] ∧ ¬ (live.pm = .suspended ∧ allFlights live = []) := by decide +kernel
-- FaultCauses: both causes
theorem witness_FaultCauses : Live live ∧ ConfigWF live.cfg ∧ 9 < live.cfg.resumeBoundary ∧
    State.reset.attached = false ∧ Instr.detach ≠ .attach := ⟨live_live, by decide +kernel⟩
-- InvalidArgumentCauses: both causes, at the ends of their ranges
theorem witness_InvalidArgumentCauses : Live live ∧ pinOperand (.get 14) = some 14 ∧ live.cfg.pinCount ≤ 14 ∧
    pinOperand (.ack 255) = some 255 ∧ live.cfg.pinCount ≤ 255 ∧ 4 ≤ 4 ∧ 4 ≤ 15 := ⟨live_live, by decide +kernel⟩
-- UndefinedByContractUses: each of its five clauses
theorem witness_UndefinedByContractUses :
    asleep.attached = true ∧ activeOnly .detach = true ∧ asleep.pm ≠ .active ∧
    allFlights { live with inflight := [⟨.ordinary 1, [.answer], false⟩] } ≠ [] ∧
    ({ live with pm := .suspending } : State).attached = true ∧
    PmAgrees { asleep with pm := .resuming, inflight := [⟨.power, [.resumeDone], false⟩] } ∧
    ({ live with snapValid := true } : State).snapValid = true ∧ live.pm ≠ .suspended :=
  ⟨rfl, rfl, by decide +kernel, by decide +kernel, rfl,
    by show _ ∧ _; exact ⟨rfl, rfl, rfl, .power, false, .inr rfl⟩, rfl, by decide +kernel⟩
-- FirstConditionDecides: every outcome of the list
theorem witness_FirstConditionDecides : Ready live ∧ Ready asleep ∧ verdict (.get 9) asleep = .contract ∧
    verdict .dispatch { live with delivOff := true } = .noStep ∧ verdict (.get 13) live = .status .ok ∧
    verdict (.get 14) live = .status .invalidArgument ∧ verdict (.setwake 9 true) live = .status .fault ∧
    verdict .attach live = .status .resourceBusy ∧ verdict .pmresumenoirq live = .status .logicError ∧
    decode 0xB000#16 = .error (.reservedOpcode 0xB) :=
  ⟨live_ready, asleep_ready, by decide +kernel, by decide +kernel, by decide +kernel, by decide +kernel,
    by decide +kernel, by decide +kernel, by decide +kernel, rfl⟩
-- ErrorsChangeNothing: the class that sets `FATAL`, another one, and an illegal word
theorem witness_ErrorsChangeNothing :
    (∃ t, runRequest ⟨live.ctx, 0xF400#16, live.hs⟩ live = .next t ∧ Answered live t .logicError false) ∧
    (∃ t, runRequest ⟨live.ctx, 0x200E#16, live.hs⟩ live = .next t ∧ Answered live t .invalidArgument false) ∧
    (∃ t, runRequest ⟨live.ctx, 0xB000#16, live.hs⟩ live = .next t ∧ Answered live t .illegalCommand false) ∧
    Status.logicError ≠ .ok ∧ Status.invalidArgument ≠ .ok ∧ Status.illegalCommand ≠ .ok :=
  ⟨⟨_, rfl, rfl⟩, ⟨_, rfl, rfl⟩, ⟨_, rfl, rfl⟩, by decide⟩
-- ControlStateWriters
theorem witness_ControlStateWriters : Ready live ∧
    ∃ t, exec (.setwake 12 true) live = .next t ∧ t.wake ≠ live.wake :=
  ⟨live_ready, result (exec (.setwake 12 true) live), by rfl, by decide +kernel⟩
-- OtherContextsActAsAtThePort: a command that is answered at the end of its pieces, and an illegal word
theorem witness_OtherContextsActAsAtThePort : Ready live ∧ live.running = none ∧
    ctxExists live.cfg (.ordinary 1) = true ∧ ctxBusy live (.ordinary 1) = false ∧
    (∃ t, runRequest ⟨.ordinary 1, 0x310C#16, live.hs⟩ (loadRequest ⟨.ordinary 1, 0x310C#16, live.hs⟩ live.port live) =
      .next t) ∧
    ∃ t, runRequest ⟨.ordinary 1, 0xB000#16, live.hs⟩ (loadRequest ⟨.ordinary 1, 0xB000#16, live.hs⟩ live.port live) =
      .next t :=
  ⟨live_ready, by decide +kernel, by decide +kernel, by decide +kernel,
    ⟨result (runRequest ⟨.ordinary 1, 0x310C#16, live.hs⟩
      (loadRequest ⟨.ordinary 1, 0x310C#16, live.hs⟩ live.port live)), by rfl⟩, ⟨_, rfl⟩⟩
-- AtomicBlocksDoNotOverlap: a block that finds `LOCK` held, and one that runs
theorem witness_AtomicBlocksDoNotOverlap : isBlock (.wake 12 true) false = true ∧ isBlock (.serve 3) true = true ∧
    ({ live with lock := .held .power } : State).lock ≠ .free ∧
    ∃ r, doAction (.ordinary 0) (.wake 12 true) false live = .next r :=
  ⟨rfl, rfl, by decide +kernel, _, rfl⟩
-- EnvPadMovesOneInput: the last pin, the first that does not exist, and a pad with power in each of the three ways
theorem witness_EnvPadMovesOneInput : ConfigWF live.cfg ∧ 13 < live.cfg.pinCount ∧ live.cfg.pinCount ≤ 14 ∧
    live.cfg.resumeBoundary ≤ 10 ∧ live.pm ≠ .suspended ∧ ConfigWF asleep.cfg ∧ asleep.coreDark = false := by
  decide +kernel
-- EdgeSetsPending: a powered pin of each well, the trigger on and off
theorem witness_EdgeSetsPending : ConfigWF asleep.cfg ∧ MemWF asleep.mem ∧ 12 < asleep.cfg.pinCount ∧
    asleep.cfg.resumeBoundary ≤ 12 ∧ live.pm ≠ .suspended ∧ asleep.coreDark = false ∧
    pinBit live (triggerKind .rising) 3 = false ∧
    pinBit (liveWith [(0x18, 0x08)]) (triggerKind .rising) 3 = true := by decide +kernel
-- ExternalWriteInsideRmwIsLost: each clause, each of its windows
theorem witness_ExternalWriteInsideRmwIsLost :
    (∀ k ∈ [Kind.dir, .gpe, .lvl, .rte], ∃ s : State, ConfigWF s.cfg ∧ MemWF s.mem ∧ s.lock = .free ∧ Live s ∧
      12 < s.cfg.pinCount ∧ s.windows = [[], [], [.env (.regWrite (regOff s.cfg (regOf s.cfg k 12)) 0xFF#8)]]) ∧
    (∃ s : State, ConfigWF s.cfg ∧ MemWF s.mem ∧ s.lock = .free ∧ Live s ∧ 12 < s.cfg.pinCount ∧
      s.windows = [[], [], [], [], [], [.env (.regWrite (regOff s.cfg (regOf s.cfg .lvl 12)) 0xFF#8)]]) ∧
    (∃ s : State, ConfigWF s.cfg ∧ MemWF s.mem ∧ s.lock = .free ∧ Live s ∧ 12 < s.cfg.pinCount ∧ 3 < 4 ∧
      s.windows = [[], [], [], [], [.env (.regWrite (regOff s.cfg (regOf s.cfg .fte 12)) 0xFF#8)]]) ∧
    (Instr.irqdis 12, Kind.gpe, false) ∈
      [(Instr.dirin 12, Kind.dir, true), (.irqen 12, .gpe, true), (.irqdis 12, .gpe, false)] :=
  ⟨fun k _ => ⟨{ live with windows := [[], [], [.env (.regWrite (regOff live.cfg (regOf live.cfg k 12)) 0xFF#8)]] },
      live_ready.1, live_ready.2.1, rfl, live_live, (by decide +kernel : 12 < live.cfg.pinCount), rfl⟩,
    ⟨{ live with windows := [[], [], [], [], [], [.env (.regWrite 0x90 0xFF#8)]] },
      by decide +kernel, by decide +kernel, rfl, live_live, by decide +kernel, by decide +kernel⟩,
    ⟨{ live with windows := [[], [], [], [], [.env (.regWrite 0xA0 0xFF#8)]] },
      by decide +kernel, by decide +kernel, rfl, live_live, by decide +kernel, by decide, by decide +kernel⟩,
    by decide +kernel⟩
-- EdgeInsideSettypeSeesMixedType: both points of the window
theorem witness_EdgeInsideSettypeSeesMixedType :
    (∃ s : State, ConfigWF s.cfg ∧ MemWF s.mem ∧ s.lock = .free ∧ Live s ∧ 12 < s.cfg.pinCount ∧ 3 < 4 ∧
      pinBit s .sts 12 = false ∧ s.windows = [[], [], [], [.env (.edge 12 .falling)]]) ∧
    ∃ s : State, ConfigWF s.cfg ∧ MemWF s.mem ∧ s.lock = .free ∧ Live s ∧ 12 < s.cfg.pinCount ∧ 3 < 4 ∧
      pinBit s .sts 12 = false ∧ s.windows = [[], [], [], [], [.env (.edge 12 .falling)]] :=
  ⟨⟨{ liveWith [(0xA0, 0x04)] with windows := [[], [], [], [.env (.edge 12 .falling)]] }, by decide +kernel,
      by decide +kernel, rfl, live_live, by decide +kernel, by decide +kernel, by decide +kernel, rfl⟩,
    ⟨{ liveWith [(0xA0, 0x04)] with windows := [[], [], [], [], [.env (.edge 12 .falling)]] }, by decide +kernel,
      by decide +kernel, rfl, live_live, by decide +kernel, by decide +kernel, by decide +kernel, rfl⟩⟩

end Sys2Proof.Tests
end

section
/-! The refusal of a configuration that is not well formed (R8). -/

namespace Sys2Proof.Proofs
open Sys2Proof Sys2Proof.Machine

/-- R8: outside the well-formed configurations the machine has no behaviour, whatever stands at the port. -/
theorem step_of_not_configWF {s : State} (h : ¬ ConfigWF s.cfg) : step s = .refused .illFormedConfig :=
  if_neg h

/-- Settles O8: each clause of R8 is a conjunct of `ConfigWF`, so violating one already makes the step a refusal. -/
theorem illFormedConfigurationIsRefused : Obligations.IllFormedConfigurationIsRefused := by
  intro s violated
  apply step_of_not_configWF
  rintro ⟨pinsBounded, offsetsDistinct, pageFits, -⟩
  rcases violated with notBounded | notDistinct | notFits
  · exact notBounded pinsBounded
  · exact notDistinct offsetsDistinct
  · exact notFits pageFits

end Sys2Proof.Proofs
end

section
/-! The opcode table read field by field (R90 to R96, R99, R107), the illegal words (R100) and the response byte
(R97, R98). -/

namespace Sys2Proof.Proofs
open Sys2Proof Sys2Proof.Machine

/-! ## The fields of a command word -/

theorem slice_lt (w : Word) (lo len : Nat) : slice w lo len < 2 ^ len := Nat.mod_lt _ (Nat.two_pow_pos len)

/-- The formats of R91 to R95 and the reserved opcodes, told apart by `op = cmd[15:12]`. -/
theorem op_formats (w : Word) :
    (slice w 12 4 = 0 ∨ slice w 12 4 = 2 ∨ slice w 12 4 = 5 ∨ slice w 12 4 = 6 ∨ slice w 12 4 = 7) ∨
    (slice w 12 4 = 1 ∨ slice w 12 4 = 3 ∨ slice w 12 4 = 8) ∨ slice w 12 4 = 4 ∨
    (slice w 12 4 = 9 ∨ slice w 12 4 = 0xA) ∨
    (slice w 12 4 = 0xB ∨ slice w 12 4 = 0xC ∨ slice w 12 4 = 0xD ∨ slice w 12 4 = 0xE) ∨
    slice w 12 4 = 0xF := by
  have opBounded := slice_lt w 12 4
  omega

/-- R92: `cmd[11:8]` is a level or on/off operand exactly when the must-be-zero bits `cmd[11:9]` are zero. -/
theorem arg_lt_two_iff (w : Word) : slice w 8 4 < 2 ↔ slice w 9 3 = 0 := by
  simp only [slice]
  omega

/-- R100 on the fields of the word, clause by clause. -/
def IllegalFields (w : Word) : Prop :=
  slice w 12 4 ∈ [0xB, 0xC, 0xD, 0xE] ∨ (slice w 12 4 = 0xF ∧ 6 ≤ slice w 8 4) ∨
  (slice w 12 4 ∈ [0, 2, 5, 6, 7] ∧ slice w 8 4 ≠ 0) ∨
  (slice w 12 4 ∈ [1, 3, 8] ∧ slice w 9 3 ≠ 0) ∨
  (slice w 12 4 ∈ [9, 0xA] ∧ slice w 0 12 ≠ 0) ∨
  (slice w 12 4 = 0xF ∧ slice w 0 8 ≠ 0)

/-! ## When the decoder rejects -/

/-- The decoder's answer is a rejection. -/
def Rejects (o : Except IllegalWord Instr) : Prop := ∃ e, o = .error e

@[simp] theorem rejects_error (e : IllegalWord) : Rejects (.error e) := ⟨e, rfl⟩

@[simp] theorem not_rejects_ok (i : Instr) : ¬ Rejects (.ok i) := nofun

@[simp] theorem rejects_whenZero (n : Nat) (i : Instr) : Rejects (whenZero n i) ↔ n ≠ 0 := by
  unfold whenZero
  split <;> simp [*]

@[simp] theorem rejects_withValue (n : Nat) (mk : Bool → Instr) : Rejects (withValue n mk) ↔ ¬ n < 2 := by
  unfold withValue
  split <;> simp [*]

@[simp] theorem rejects_decodeSystem (sub low : Nat) : Rejects (decodeSystem sub low) ↔ 6 ≤ sub ∨ low ≠ 0 := by
  match sub with
  | 0 | 1 | 2 | 3 | 4 | 5 => simp [decodeSystem]
  | n + 6 => simp [decodeSystem]

/-- Format P (R91): `cmd[11:8]` must be zero. -/
theorem rejects_decode_pin {w : Word}
    (h : slice w 12 4 = 0 ∨ slice w 12 4 = 2 ∨ slice w 12 4 = 5 ∨ slice w 12 4 = 6 ∨ slice w 12 4 = 7) :
    Rejects (decode w) ↔ slice w 8 4 ≠ 0 := by
  rcases h with op | op | op | op | op <;> simp [decode, op]

/-- Format PV (R92): `cmd[11:9]` must be zero. -/
theorem rejects_decode_pinValue {w : Word} (h : slice w 12 4 = 1 ∨ slice w 12 4 = 3 ∨ slice w 12 4 = 8) :
    Rejects (decode w) ↔ slice w 9 3 ≠ 0 := by
  rcases h with op | op | op <;> simp only [decode, op, rejects_withValue, arg_lt_two_iff, ne_eq]

/-- Format PT (R93): every word is legal. -/
theorem not_rejects_decode_pinType {w : Word} (h : slice w 12 4 = 4) : ¬ Rejects (decode w) := by
  simp [decode, h]

/-- Format N (R94): `cmd[11:0]` must be zero. -/
theorem rejects_decode_noOperand {w : Word} (h : slice w 12 4 = 9 ∨ slice w 12 4 = 0xA) :
    Rejects (decode w) ↔ slice w 0 12 ≠ 0 := by
  rcases h with op | op <;> simp [decode, op]

theorem rejects_decode_reserved {w : Word}
    (h : slice w 12 4 = 0xB ∨ slice w 12 4 = 0xC ∨ slice w 12 4 = 0xD ∨ slice w 12 4 = 0xE) :
    Rejects (decode w) := by
  rcases h with op | op | op | op <;> simp [decode, op]

/-- Format S (R95): `cmd[11:8]` names one of six commands and `cmd[7:0]` must be zero. -/
theorem rejects_decode_system {w : Word} (h : slice w 12 4 = 0xF) :
    Rejects (decode w) ↔ 6 ≤ slice w 8 4 ∨ slice w 0 8 ≠ 0 := by
  simp [decode, h]

/-- The decoder rejects exactly the words R100 lists. -/
theorem rejects_decode_iff (w : Word) : Rejects (decode w) ↔ IllegalFields w := by
  simp only [IllegalFields, List.mem_cons, List.not_mem_nil, or_false]
  rcases op_formats w with pin | pinValue | pinType | noOperand | reserved | system
  · rw [rejects_decode_pin pin]; omega
  · rw [rejects_decode_pinValue pinValue]; omega
  · simp [not_rejects_decode_pinType pinType, pinType]
  · rw [rejects_decode_noOperand noOperand]; omega
  · simp [rejects_decode_reserved reserved, reserved]
  · rw [rejects_decode_system system]; omega

/-! ## When no row of the table matches -/

/-- A row whose `k` low bits are operand bits fixes the bits above them. -/
theorem inRow_iff_high_bits {k b : Nat} (hk : k ≤ 16) (hb : b < 2 ^ (16 - k)) (w : Word) :
    inRow ⟨BitVec.ofNat 16 (2 ^ 16 - 2 ^ k), BitVec.ofNat 16 (b * 2 ^ k)⟩ w ↔ slice w k (16 - k) = b := by
  have wordBits : w.toNat / 2 ^ k < 2 ^ (16 - k) := by
    rw [Nat.div_lt_iff_lt_mul (Nat.two_pow_pos k), Nat.pow_sub_mul_pow 2 hk]
    exact w.isLt
  have shifted {n : Nat} (hn : n < 2 ^ (16 - k)) : n * 2 ^ k < 2 ^ 16 :=
    (Nat.mul_lt_mul_of_pos_right hn (Nat.two_pow_pos k)).trans_eq (Nat.pow_sub_mul_pow 2 hk)
  have ownRow := Laws.inRow_of_mod hk rfl (shifted wordBits) w.isLt rfl
  rw [BitVec.ofNat_toNat, BitVec.setWidth_eq] at ownRow
  simp only [inRow] at ownRow ⊢
  rw [ownRow, slice, Nat.mod_eq_of_lt wordBits, ← BitVec.toNat_inj, BitVec.toNat_ofNat, BitVec.toNat_ofNat,
    Nat.mod_eq_of_lt (shifted wordBits), Nat.mod_eq_of_lt (shifted hb),
    Nat.mul_left_inj (Nat.two_pow_pos k).ne']

/-- What the command's format (R91 to R95) and its line in R99 ask of the fields of its word. -/
def FieldsOf (w : Word) : Instr → Prop
  | .dirin _ => slice w 12 4 = 0 ∧ slice w 8 4 = 0
  | .dirout _ _ => slice w 12 4 = 1 ∧ slice w 9 3 = 0
  | .get _ => slice w 12 4 = 2 ∧ slice w 8 4 = 0
  | .set _ _ => slice w 12 4 = 3 ∧ slice w 9 3 = 0
  | .settype _ _ => slice w 12 4 = 4
  | .irqen _ => slice w 12 4 = 5 ∧ slice w 8 4 = 0
  | .irqdis _ => slice w 12 4 = 6 ∧ slice w 8 4 = 0
  | .ack _ => slice w 12 4 = 7 ∧ slice w 8 4 = 0
  | .setwake _ _ => slice w 12 4 = 8 ∧ slice w 9 3 = 0
  | .disall => slice w 12 4 = 9 ∧ slice w 0 12 = 0
  | .dispatch => slice w 12 4 = 0xA ∧ slice w 0 12 = 0
  | .attach => slice w 12 4 = 0xF ∧ slice w 8 4 = 0 ∧ slice w 0 8 = 0
  | .detach => slice w 12 4 = 0xF ∧ slice w 8 4 = 1 ∧ slice w 0 8 = 0
  | .pmsuspend => slice w 12 4 = 0xF ∧ slice w 8 4 = 2 ∧ slice w 0 8 = 0
  | .pmsuspendnoirq => slice w 12 4 = 0xF ∧ slice w 8 4 = 3 ∧ slice w 0 8 = 0
  | .pmresumenoirq => slice w 12 4 = 0xF ∧ slice w 8 4 = 4 ∧ slice w 0 8 = 0
  | .pmresume => slice w 12 4 = 0xF ∧ slice w 8 4 = 5 ∧ slice w 0 8 = 0

theorem inRow_pin_iff {op : Nat} (hop : op < 16) (w : Word) :
    inRow ⟨0xFF00#16, BitVec.ofNat 16 (op * 16 * 2 ^ 8)⟩ w ↔ slice w 12 4 = op ∧ slice w 8 4 = 0 := by
  refine (inRow_iff_high_bits (k := 8) (by decide) (by omega) w).trans ?_
  simp only [slice]
  omega

theorem inRow_pinValue_iff {op : Nat} (hop : op < 16) (w : Word) :
    inRow ⟨0xFE00#16, BitVec.ofNat 16 (op * 8 * 2 ^ 9)⟩ w ↔ slice w 12 4 = op ∧ slice w 9 3 = 0 := by
  refine (inRow_iff_high_bits (k := 9) (by decide) (by omega) w).trans ?_
  simp only [slice]
  omega

theorem inRow_noOperand_iff {op : Nat} (hop : op < 16) (w : Word) :
    inRow ⟨0xFFFF#16, BitVec.ofNat 16 (op * 4096 * 2 ^ 0)⟩ w ↔ slice w 12 4 = op ∧ slice w 0 12 = 0 := by
  refine (inRow_iff_high_bits (k := 0) (by decide) (by omega) w).trans ?_
  simp only [slice]
  omega

theorem inRow_system_iff {sub : Nat} (hsub : sub < 16) (w : Word) :
    inRow ⟨0xFFFF#16, BitVec.ofNat 16 ((0xF000 + sub * 256) * 2 ^ 0)⟩ w ↔
      slice w 12 4 = 0xF ∧ slice w 8 4 = sub ∧ slice w 0 8 = 0 := by
  refine (inRow_iff_high_bits (k := 0) (by decide) (by omega) w).trans ?_
  simp only [slice]
  omega

/-- A word belongs to a command's row exactly when its fields are the command's. -/
theorem inRow_tableRow_iff (w : Word) (i : Instr) : inRow (tableRow i) w ↔ FieldsOf w i := by
  cases i with
  | dirin => exact inRow_pin_iff (op := 0) (by decide) w
  | dirout => exact inRow_pinValue_iff (op := 1) (by decide) w
  | get => exact inRow_pin_iff (op := 2) (by decide) w
  | set => exact inRow_pinValue_iff (op := 3) (by decide) w
  | settype => exact inRow_iff_high_bits (k := 12) (b := 4) (by decide) (by decide) w
  | irqen => exact inRow_pin_iff (op := 5) (by decide) w
  | irqdis => exact inRow_pin_iff (op := 6) (by decide) w
  | ack => exact inRow_pin_iff (op := 7) (by decide) w
  | setwake => exact inRow_pinValue_iff (op := 8) (by decide) w
  | disall => exact inRow_noOperand_iff (op := 9) (by decide) w
  | dispatch => exact inRow_noOperand_iff (op := 0xA) (by decide) w
  | attach => exact inRow_system_iff (sub := 0) (by decide) w
  | detach => exact inRow_system_iff (sub := 1) (by decide) w
  | pmsuspend => exact inRow_system_iff (sub := 2) (by decide) w
  | pmsuspendnoirq => exact inRow_system_iff (sub := 3) (by decide) w
  | pmresumenoirq => exact inRow_system_iff (sub := 4) (by decide) w
  | pmresume => exact inRow_system_iff (sub := 5) (by decide) w

/-- The words of R100 are the words no row of the table matches. -/
theorem noRow_iff_illegalFields (w : Word) : (∀ r ∈ opcodeTable, ¬ inRow r w) ↔ IllegalFields w := by
  simp only [IllegalFields, opcodeTable, List.cons_append, List.nil_append, List.forall_mem_cons,
    inRow_tableRow_iff, FieldsOf]
  rcases op_formats w with pin | pinValue | pinType | noOperand | reserved | system
  · rcases pin with op | op | op | op | op <;> simp [op]
  · rcases pinValue with op | op | op <;> simp [op]
  · simp [pinType]
  · rcases noOperand with op | op <;> simp [op]
  · rcases reserved with op | op | op | op <;> simp [op]
  · simp only [system, OfNat.ofNat_ne_zero, OfNat.ofNat_ne_one, Nat.reduceEqDiff, Nat.succ_ne_self, List.mem_cons,
      List.not_mem_nil, IsEmpty.forall_iff, implies_true, false_and, true_and, and_true, not_and, not_false_eq_true,
      ne_eq, or_self, false_or]
    omega

/-! ## The answer to an illegal word -/

/-- R100: an illegal word is answered in every state, with no look at `ATTACHED` or `PM`. -/
theorem runRequest_of_illegal {r : Request} {e : IllegalWord} (h : decode r.word = .error e) (s : State) :
    runRequest r s = .next (respond r.ctx .illegalCommand false s) := by
  simp [runRequest, h, answerIllegal]

/-- Settles O4: decoder and opcode table both single out the words R100 lists, each compared format by format. -/
theorem illegalWordsAreAnswered : Obligations.IllegalWordsAreAnswered :=
  ⟨rejects_decode_iff, fun w => (rejects_decode_iff w).trans (noRow_iff_illegalFields w).symm,
    fun _ s _ illegal => runRequest_of_illegal illegal s⟩

/-! ## The response byte -/

/-- R98: the numbers 8 to 15 are never produced. -/
theorem statusCode_lt (st : Status) : statusCode st < 8 := by cases st <;> decide

/-- R97: the data bit stands just above the four status bits, and nothing above it. -/
theorem respByte_toNat (st : Status) (d : Bool) : (respByte st d).toNat = 2 ^ 4 * d.toNat + statusCode st := by
  have codeBounded := statusCode_lt st
  have dataBounded := Bool.toNat_le d
  simp only [respByte, BitVec.toNat_ofNat]
  omega

theorem respByte_data (st : Status) (d : Bool) : (respByte st d).getLsbD 4 = d := by
  have codeBounded := statusCode_lt st
  rw [BitVec.getLsbD, respByte_toNat, Nat.testBit_two_pow_mul_add _ (by omega)]
  cases d <;> rfl

/-- Settles O6: the layout of the response byte as a number gives the status back. -/
theorem statusNumbers : Obligations.StatusNumbers := by
  refine ⟨fun st d => ?_, rfl⟩
  have layout := respByte_toNat st d
  have codeBounded := statusCode_lt st
  have dataBounded := Bool.toNat_le d
  exact ⟨by omega, respByte_data st d, by omega, codeBounded⟩

end Sys2Proof.Proofs
end

section
/-! The arithmetic laws of the pin mapping (R126). -/

namespace Sys2Proof.Proofs
open Sys2Proof Sys2Proof.Machine

/-! ## Bounds -/

theorem pinInWell_le (c : Config) (p : Nat) : pinInWell c p ≤ p := by
  simp only [pinInWell]
  split <;> omega

/-- R8 (c): every register of the bank stands at an address of the bus. -/
theorem regAddr_lt {c : Config} (h : ConfigWF c) {r : Reg} (hr : r ∈ regs c) : regAddr c r < 2 ^ c.addrW := by
  obtain ⟨-, -, pageFits, -⟩ := h
  exact (Nat.add_lt_add_left (regOff_lt_pageEnd hr) c.ioBase).trans_le pageFits

/-! ## A pin and the pin eight above it in the same well -/

/-- The wells' boundary does not lie between the two pins, so both places count from the same first pin. -/
theorem pinInWell_add_eight {c : Config} {p : Nat} (sameWell : wellOf c (p + 8) = wellOf c p) :
    pinInWell c (p + 8) = pinInWell c p + 8 := by
  by_cases core : p + 8 < c.resumeBoundary
  · simp only [pinInWell, core, show p < c.resumeBoundary by omega, if_true]
  · have resume : ¬ p < c.resumeBoundary := fun hp => by simp [wellOf, core, hp] at sameWell
    simp only [pinInWell, core, resume, if_false]
    omega

theorem bitOf_add_eight {c : Config} {p : Nat} (sameWell : wellOf c (p + 8) = wellOf c p) :
    bitOf c (p + 8) = bitOf c p := by
  rw [bitOf, pinInWell_add_eight sameWell, Nat.add_mod_right, bitOf]

theorem regOff_regOf_add_eight {c : Config} {p : Nat} (k : Kind) (sameWell : wellOf c (p + 8) = wellOf c p) :
    regOff c (regOf c k (p + 8)) = regOff c (regOf c k p) + 1 := by
  have nextByte : pinInWell c (p + 8) / 8 = pinInWell c p / 8 + 1 := by
    rw [pinInWell_add_eight sameWell, Nat.add_div_right _ (by decide)]
  simp only [regOff, regOf_kind, regOf_well, regOf_idx, sameWell, nextByte, Nat.add_assoc]

/-! ## Pins that share a byte -/

/-- Two pins and kinds have one offset exactly when they have one register. -/
theorem offset?_eq_iff_regOf_eq {c : Config} (h : ConfigWF c) {p q : Nat} (hp : p < c.pinCount)
    (hq : q < c.pinCount) (k l : Kind) : offset? c p k = offset? c q l ↔ regOf c k p = regOf c l q := by
  rw [offset?_of_lt k hp, offset?_of_lt l hq, Option.some_inj]
  exact ⟨regOff_inj h (regOf_mem k hp) (regOf_mem l hq), congrArg (regOff c)⟩

/-- R126: pins of different wells never share a byte, even when the core well's last byte is not full. -/
theorem wellOf_eq_of_offset?_eq {c : Config} (h : ConfigWF c) {p q : Nat} (hp : p < c.pinCount)
    (hq : q < c.pinCount) {k l : Kind} (e : offset? c p k = offset? c q l) : wellOf c p = wellOf c q :=
  congrArg Reg.well ((offset?_eq_iff_regOf_eq h hp hq k l).1 e)

/-- Settles O16: a pin that exists has a register of the bank, which gives the bounds and the wells' separation;
the pin eight above it in its well has the same bit of the next byte. -/
theorem mappingLaws : Obligations.MappingLaws := by
  intro c wf p k hp
  have registerExists := regOf_mem k hp
  have pinBounded : p ≤ 63 := by
    obtain ⟨⟨-, atMost64⟩, -⟩ := wf
    omega
  have placeBounded : pinInWell c p ≤ 63 := (pinInWell_le c p).trans pinBounded
  have placeSplits : pinInWell c p = 8 * (pinInWell c p / 8) + bitOf c p := (Nat.div_add_mod _ 8).symm
  refine ⟨pinBounded, placeBounded, by omega,
    ⟨_, offset?_of_lt k hp, regOff_lt_pageEnd registerExists, regAddr_lt wf registerExists,
      locate_regOff wf registerExists⟩,
    placeSplits, fun off hoff hp8 sameWell => ⟨(bitOf_add_eight sameWell).symm, ?_⟩,
    fun q hq otherWell sameOffset => otherWell (wellOf_eq_of_offset?_eq wf hq hp sameOffset)⟩
  rw [offset?_of_lt k hp, Option.some_inj] at hoff
  rw [offset?_of_lt k hp8, regOff_regOf_add_eight k sameWell, hoff]

end Sys2Proof.Proofs
end

section
/-! The wake set (43_wakeset.md R170 to R175) and `SETWAKE` (R155). -/

namespace Sys2Proof.Proofs
open Sys2Proof Sys2Proof.Machine

/-! ## One bit of `WAKE` -/

/-- The one-hot word of a pin that fits in the wake bitmap. -/
theorem oneHotWord_bit {p : Nat} (hp : p < 64) (q : Nat) : (1#64 <<< p).getLsbD q = decide (q = p) := by
  rw [← BitVec.twoPow_eq, BitVec.getLsbD_twoPow, decide_eq_true hp, Bool.true_and, decide_eq_decide]
  exact eq_comm

theorem lt_64_of_lt_pinCount {c : Config} (h : ConfigWF c) {p : Nat} (hp : p < c.pinCount) : p < 64 := by
  obtain ⟨⟨-, atMost64⟩, -⟩ := h
  omega

theorem wakeSet_bit {p : Nat} (hp : p < 64) (s : State) (q : Nat) :
    (wakeSet p s).wake.getLsbD q = (decide (q = p) || s.wake.getLsbD q) := by
  rw [wakeSet_wake, BitVec.getLsbD_or, oneHotWord_bit hp, Bool.or_comm]

theorem wakeClear_bit {p : Nat} (hp : p < 64) (s : State) (q : Nat) :
    (wakeClear p s).wake.getLsbD q = (!decide (q = p) && s.wake.getLsbD q) := by
  rw [wakeClear_wake, BitVec.getLsbD_and, BitVec.getLsbD_not, oneHotWord_bit hp, Bool.and_comm]
  by_cases hq : q < 64
  · rw [decide_eq_true hq, Bool.true_and]
  · rw [BitVec.getLsbD_of_ge _ _ (Nat.le_of_not_lt hq), Bool.and_false, Bool.and_false]

/-! ## Writing the value a bit already has -/

theorem wake_eta {s : State} {w : BitVec 64} (h : ∀ q, w.getLsbD q = s.wake.getLsbD q) :
    { s with wake := w } = s := by
  rw [BitVec.eq_of_getLsbD_eq fun q _ => h q]

theorem wakeSet_of_marked {p : Nat} (hp : p < 64) {s : State} (h : s.wake.getLsbD p = true) : wakeSet p s = s :=
  wake_eta fun q => (wakeSet_bit hp s q).trans (by by_cases hq : q = p <;> simp [hq, h])

theorem wakeClear_of_unmarked {p : Nat} (hp : p < 64) {s : State} (h : s.wake.getLsbD p = false) :
    wakeClear p s = s :=
  wake_eta fun q => (wakeClear_bit hp s q).trans (by by_cases hq : q = p <;> simp [hq, h])

/-- Settles O32: the bit law of the mask; a second mark finds the bit set. -/
theorem wakeSetMarksOnePin : Obligations.WakeSetMarksOnePin := by
  intro s p wf _ hp
  have hp64 := lt_64_of_lt_pinCount wf hp
  have marked : (wakeSet p s).wake.getLsbD p = true := (wakeSet_bit hp64 s p).trans (by simp)
  exact ⟨wakeSet_bit hp64 s, rfl, wakeSet_of_marked hp64 marked⟩

/-- Settles O33: the bit law of the mask; a second clear finds the bit clear, like a clear of a pin never marked. -/
theorem wakeClearUnmarksOnePin : Obligations.WakeClearUnmarksOnePin := by
  intro s p wf _ hp
  have hp64 := lt_64_of_lt_pinCount wf hp
  have unmarked : (wakeClear p s).wake.getLsbD p = false := (wakeClear_bit hp64 s p).trans (by simp)
  exact ⟨wakeClear_bit hp64 s, rfl, wakeClear_of_unmarked hp64 unmarked, wakeClear_of_unmarked hp64⟩

/-! ## The piece of `SETWAKE`, for both values -/

theorem controlAfter_wake_bit {p : Nat} (hp : p < 64) (v : Bool) (s : State) (q : Nat) :
    (controlAfter (.wake p v) s).wake.getLsbD q = if q = p then v else s.wake.getLsbD q := by
  cases v with
  | true => exact (wakeSet_bit hp s q).trans (by by_cases hq : q = p <;> simp [hq])
  | false => exact (wakeClear_bit hp s q).trans (by by_cases hq : q = p <;> simp [hq])

theorem controlAfter_wake_of_bit_eq {p : Nat} (hp : p < 64) {v : Bool} {s : State} (h : s.wake.getLsbD p = v) :
    controlAfter (.wake p v) s = s := by
  cases v with
  | true => exact wakeSet_of_marked hp h
  | false => exact wakeClear_of_unmarked hp h

/-- The block makes no access, so no window lies inside it and a free `LOCK` is all it needs. -/
theorem doAction_wake_free (c : Ctx) (p : Nat) (v bit : Bool) {s : State} (h : s.lock = .free) :
    doAction c (.wake p v) bit s = .next (bit, controlAfter (.wake p v) s) := by
  rw [doAction, atomicDo_free h, andThen_next]
  cases v with
  | true => exact congrArg (fun t => Host.Outcome.next (bit, t)) (lock_eta (s := wakeSet p s) h)
  | false => exact congrArg (fun t => Host.Outcome.next (bit, t)) (lock_eta (s := wakeClear p s) h)

/-- The piece in a run when no other agent acts. -/
theorem runPieces_wake_quiet (c : Ctx) (p : Nat) (v bit : Bool) (todo : List Action) {s : State}
    (hl : s.lock = .free) (hw : s.windows = []) :
    runPieces c (.wake p v :: todo) bit s =
      runPieces c todo bit { s with
        wake := (controlAfter (.wake p v) s).wake, running := some ⟨c, .wake p v :: todo, bit⟩ } := by
  rw [runPieces_quiet hw, doAction_wake_free c p v bit (by exact hl), andThen_next]
  cases v <;> rfl

/-! ## `SETWAKE` pin by pin -/

theorem entryChecksPin_outOfRange {s : State} (h : Live s) {p : Nat} (hp : s.cfg.pinCount ≤ p) (c : Ctx)
    (go : Res Begun) : entryChecksPin c p s go = raise c .invalidArgument s := by
  simp [entryChecksPin, entryChecks_live h, pinCheck, Nat.not_lt.2 hp]

/-- The state after a `SETWAKE` of a resume-well pin in a quiet state (R155). -/
def afterSetwake (p : Nat) (v : Bool) (s : State) : State :=
  respond s.ctx .ok false { s with wake := (controlAfter (.wake p v) s).wake, running := none }

theorem exec_setwake_outOfRange {s : State} (live : Live s) {p : Nat} (hp : s.cfg.pinCount ≤ p) (v : Bool) :
    exec (.setwake p v) s = .next (respond s.ctx .invalidArgument false s) := by
  rw [exec_eq_carryOut, beginInstr, planSetwake, entryChecksPin_outOfRange live hp, raise, carryOut_answered]

/-- R172: `WAKE` has no bit for a core-well pin, whichever value is asked for. -/
theorem exec_setwake_core {s : State} (live : Live s) {p : Nat} (hp : p < s.cfg.pinCount)
    (core : p < s.cfg.resumeBoundary) (v : Bool) :
    exec (.setwake p v) s = .next (respond s.ctx .fault false s) := by
  rw [exec_eq_carryOut, beginInstr, planSetwake, entryChecksPin_live live hp, if_pos core, raise, carryOut_answered]

theorem exec_setwake_resume {s : State} (ready : Ready s) (live : Live s) {p : Nat} (hp : p < s.cfg.pinCount)
    (resume : s.cfg.resumeBoundary ≤ p) (v : Bool) : exec (.setwake p v) s = .next (afterSetwake p v s) := by
  obtain ⟨-, -, lockFree, quiet⟩ := ready
  rw [exec_eq_carryOut, beginInstr, planSetwake, entryChecksPin_live live hp, if_neg (Nat.not_lt.2 resume),
    carryOut_started, runPieces_wake_quiet s.ctx p v false _ lockFree quiet]
  exact runPieces_answer_quiet s.ctx false _ (s := { s with wake := (controlAfter (.wake p v) s).wake }) quiet

theorem ready_afterSetwake {s : State} (h : Ready s) (p : Nat) (v : Bool) : Ready (afterSetwake p v s) := h

theorem live_afterSetwake {s : State} (h : Live s) (p : Nat) (v : Bool) : Live (afterSetwake p v s) := h

/-- Nothing is left for a second identical command to do but to answer. -/
theorem afterSetwake_twice {p : Nat} (hp : p < 64) (v : Bool) (s : State) :
    afterSetwake p v (afterSetwake p v s) = respond s.ctx .ok false (afterSetwake p v s) := by
  have alreadySet : (afterSetwake p v s).wake.getLsbD p = v := by
    rw [afterSetwake, respond_wake, controlAfter_wake_bit hp, if_pos rfl]
  rw [afterSetwake, controlAfter_wake_of_bit_eq hp alreadySet]
  rfl

/-- Settles O31: the answer by the pin's range, and the second command from the state of the first. -/
theorem setwakePerPin : Obligations.SetwakePerPin := by
  intro s p v ready live
  have ⟨wf, _⟩ := ready
  have ⟨⟨boundaryInRange, _⟩, _⟩ := wf
  refine ⟨fun core => exec_setwake_core live (by omega) core v, fun beyond => exec_setwake_outOfRange live beyond v,
    fun resume hp => ?_⟩
  have hp64 := lt_64_of_lt_pinCount wf hp
  exact ⟨afterSetwake p v s, afterSetwake p v (afterSetwake p v s), exec_setwake_resume ready live hp resume v,
    exec_setwake_resume (ready_afterSetwake ready p v) (live_afterSetwake live p v) hp resume v, rfl,
    controlAfter_wake_bit hp64 v s, afterSetwake_twice hp64 v s⟩

end Sys2Proof.Proofs
end

section
/-! PmContext (44_pmcontext.md): the failures of `PMSUSPENDNOIRQ` (R188) and `PMRESUMENOIRQ` (R189), and the loss of
the core well's power (R190). -/

namespace Sys2Proof.Proofs
open Sys2Proof Sys2Proof.Machine

/-! ## The entry checks, passed -/

theorem whenAttached_of_attached {s : State} (h : s.attached = true) (c : Ctx) (go : Res Begun) :
    whenAttached c s go = go := if_pos h

theorem whenExclusive_of_idle {s : State} (h : someInFlight s = false) (go : Res Begun) :
    whenExclusive s go = go := by rw [whenExclusive, h, if_neg Bool.false_ne_true]

theorem whenResting_of_resting {s : State} (h : s.pm = .active ∨ s.pm = .suspended) (go : Res Begun) :
    whenResting s go = go := if_pos (by simpa [pmResting] using h)

/-- Settles O45: the line's answer is asked for after every other check and before the first change. -/
theorem maskFailureChangesNothing : Obligations.MaskFailureChangesNothing := by
  intro s attached idle resting hasLine notMasked
  have fails : (s.cfg.hasLine && !s.hs.maskOk) = true := by simp [hasLine, notMasked]
  rw [exec_eq_carryOut, beginInstr, planPmsuspendnoirq, whenAttached_of_attached attached,
    whenExclusive_of_idle idle, whenResting_of_resting resting, if_pos fails, raise, carryOut_answered]

/-- Settles O46: the snapshot is asked for before `PM` is, so the answer is the same in every power state. -/
theorem missingSnapshotIsReported : Obligations.MissingSnapshotIsReported := by
  intro s attached idle noSnapshot
  rw [exec_eq_carryOut, beginInstr, planPmresumenoirq, whenAttached_of_attached attached,
    whenExclusive_of_idle idle, noSnapshot, if_neg Bool.false_ne_true, carryOut_answered]

/-! ## A byte stored in each of several registers -/

/-- Each register of a list takes the byte `v` gives it. -/
def storeAll (v : Reg → Byte) (l : List Reg) (s : State) : State := l.foldl (fun s r => store s r (v r)) s

theorem storeAll_cons (v : Reg → Byte) (r : Reg) (l : List Reg) (s : State) :
    storeAll v (r :: l) s = storeAll v l (store s r (v r)) := rfl

theorem storeAll_frame (v : Reg → Byte) (l : List Reg) (s : State) :
    storeAll v l s = { s with mem := (storeAll v l s).mem } := by
  induction l generalizing s with
  | nil => rfl
  | cons r l ih => rw [storeAll_cons, ih, store]

theorem readByte_storeAll_of_ne (v : Reg → Byte) {l : List Reg} {s : State} {a : Nat}
    (h : ∀ r ∈ l, a ≠ regAddr s.cfg r) : readByte (storeAll v l s).mem a = readByte s.mem a := by
  induction l generalizing s with
  | nil => rfl
  | cons r l ih =>
    obtain ⟨notFirst, notLater⟩ := List.forall_mem_cons.1 h
    exact (ih (s := store s r (v r)) notLater).trans (store_keepsOtherBytes s r (v r) a notFirst)

/-- The byte a register takes does not depend on the order, nor on how often the list names it. -/
theorem readByte_storeAll_of_mem (v : Reg → Byte) {l : List Reg} {s : State} (wf : ConfigWF s.cfg)
    (canonical : MemWF s.mem) (inBank : ∀ r ∈ l, r ∈ regs s.cfg) {q : Reg} (hq : q ∈ l) :
    readByte (storeAll v l s).mem (regAddr s.cfg q) = v q := by
  induction l generalizing s with
  | nil => exact absurd hq List.not_mem_nil
  | cons r l ih =>
    obtain ⟨rInBank, lInBank⟩ := List.forall_mem_cons.1 inBank
    by_cases later : q ∈ l
    · exact ih (s := store s r (v r)) wf (store_keeps_wf canonical r (v r)) lInBank later
    · obtain rfl : q = r := (List.mem_cons.1 hq).resolve_right later
      have untouched : ∀ p ∈ l, regAddr s.cfg q ≠ regAddr s.cfg p := fun p hp sameAddr =>
        later (regAddr_inj wf rInBank (lInBank p hp) sameAddr ▸ hp)
      exact (readByte_storeAll_of_ne v (s := store s q (v q)) untouched).trans (stored_store_same canonical q (v q))

/-! ## The loss of the core well -/

/-- The registers of the core well (R49). -/
def coreRegs (c : Config) : List Reg := (regs c).filter fun r => r.well == .core

theorem mem_coreRegs {c : Config} {r : Reg} : r ∈ coreRegs c ↔ r ∈ regs c ∧ r.well = .core := by
  simp [coreRegs]

theorem loseCore_eq_storeAll (draw : BitVec 576) (s : State) :
    loseCore draw s = storeAll (lostByte draw) (coreRegs s.cfg) s := rfl

theorem readByte_loseCore_core {s : State} (wf : ConfigWF s.cfg) (canonical : MemWF s.mem) (draw : BitVec 576) {r : Reg}
    (hr : r ∈ regs s.cfg) (core : r.well = .core) :
    readByte (loseCore draw s).mem (regAddr s.cfg r) = lostByte draw r :=
  readByte_storeAll_of_mem _ wf canonical (fun _ hp => (mem_coreRegs.1 hp).1) (mem_coreRegs.2 ⟨hr, core⟩)

theorem readByte_loseCore_of_ne (draw : BitVec 576) {s : State} {a : Nat}
    (h : ∀ r ∈ regs s.cfg, r.well = .core → a ≠ regAddr s.cfg r) :
    readByte (loseCore draw s).mem a = readByte s.mem a :=
  readByte_storeAll_of_ne _ fun r hr => h r (mem_coreRegs.1 hr).1 (mem_coreRegs.1 hr).2

/-- R190: when a power loss can happen. -/
theorem envEnabled_powerLoss_iff (s : State) (draw : BitVec 576) :
    envEnabled s (.powerLoss draw) = true ↔ s.pm = .suspended ∧ allFlights s = [] := by
  simp [envEnabled, someInFlight]

theorem envStep_powerLoss_of_not {s : State} (h : ¬ (s.pm = .suspended ∧ allFlights s = [])) (draw : BitVec 576) :
    envStep (.powerLoss draw) s = s := if_neg (mt (envEnabled_powerLoss_iff s draw).1 h)

/-- R190: a power loss that happens changes the page as `loseCore` does, and else the model's own record of it. -/
theorem envStep_powerLoss {s : State} (h : s.pm = .suspended ∧ allFlights s = []) (draw : BitVec 576) :
    envStep (.powerLoss draw) s = { s with
      mem := (loseCore draw s).mem, log := s.log ++ [.env (.powerLoss draw)], coreDark := true } := by
  rw [envStep, if_pos ((envEnabled_powerLoss_iff s draw).2 h), envEffect, loseCore_eq_storeAll, storeAll_frame]
  rfl

/-! ## A draw for every content of the core well -/

/-- The core register whose byte holds bit `n` of a draw: eight bytes of eight bits for each kind code. -/
def drawnReg (n : Nat) : Reg := ⟨Kind.all[n / 64]?.getD .en, .core, n / 8 % 8⟩

/-- The draw that holds the byte `v` gives each core register. -/
def drawOf (v : Reg → Byte) : BitVec 576 := BitVec.ofFnLE fun n => (v (drawnReg n)).getLsbD (n % 8)

theorem kindCode_lt (k : Kind) : kindCode k < 9 := by cases k <;> decide

/-- R22: the kinds stand in the order of their codes. -/
theorem kind_all_kindCode (k : Kind) : Kind.all[kindCode k]? = some k := by cases k <;> rfl

theorem drawnReg_of_place (k : Kind) {i j : Nat} (hi : i < 8) (hj : j < 8) :
    drawnReg (8 * (8 * kindCode k + i) + j) = ⟨k, .core, i⟩ := by
  have kindPlace : (8 * (8 * kindCode k + i) + j) / 64 = kindCode k := by omega
  have bytePlace : (8 * (8 * kindCode k + i) + j) / 8 % 8 = i := by omega
  rw [drawnReg, kindPlace, bytePlace, kind_all_kindCode, Option.getD_some]

theorem lostByte_drawOf (v : Reg → Byte) (k : Kind) {i : Nat} (hi : i < 8) :
    lostByte (drawOf v) ⟨k, .core, i⟩ = v ⟨k, .core, i⟩ := by
  refine BitVec.eq_of_getLsbD_eq fun j hj => ?_
  have inDraw : 8 * (8 * kindCode k + i) + j < 576 := by
    have := kindCode_lt k
    omega
  have bitPlace : (8 * (8 * kindCode k + i) + j) % 8 = j := by omega
  simp [lostByte, drawOf, hj, inDraw, drawnReg_of_place k hi hj, bitPlace]

/-- Settles O47: an enabled step is the loss of the core well; a content is drawn by `drawOf`, since a well has at most
eight bytes of each kind. -/
theorem powerLossTakesTheCoreWell : Obligations.PowerLossTakesTheCoreWell := by
  refine ⟨fun s draw wf canonical => ⟨fun disabled => envStep_powerLoss_of_not disabled draw,
    fun suspended idle => ?_⟩, fun c v wf => ⟨drawOf v, fun ⟨k, w, i⟩ hr core => ?_⟩⟩
  · rw [envStep_powerLoss ⟨suspended, idle⟩ draw]
    exact ⟨fun r hr core => readByte_loseCore_core wf canonical draw hr core,
      fun a notCore => readByte_loseCore_of_ne draw notCore, rfl⟩
  · obtain rfl : w = .core := core
    exact lostByte_drawOf v k ((mem_regs.1 hr).trans_le (bytesIn_le wf .core))

end Sys2Proof.Proofs
end

section
/-! The errors (60_exceptions.md): the causes of `FAULT` (R213) and `INVALID_ARGUMENT` (R211), the uses undefined by
contract (R219), and that an error changes nothing (R218). -/

namespace Sys2Proof.Proofs
open Sys2Proof Sys2Proof.Machine

/-! ## The first check of each command -/

/-- R213, R220 (3): but for `ATTACH`, every command asks first whether the Controller is attached. -/
theorem beginInstr_eq_whenAttached {i : Instr} (h : i ≠ .attach) (c : Ctx) (hs : Handshake) (s : State) :
    ∃ go, beginInstr i c hs s = whenAttached c s go := by
  cases i with
  | attach => exact absurd rfl h
  | _ => exact ⟨_, rfl⟩

/-- R219 (a): the eleven GpioChip and IrqController commands and `DETACH` ask next whether `PM` is `Active`. -/
theorem beginInstr_eq_entryChecks {i : Instr} (h : activeOnly i = true) (c : Ctx) (hs : Handshake) (s : State) :
    ∃ go, beginInstr i c hs s = entryChecks c s go := by
  cases i with
  | attach | pmsuspend | pmsuspendnoirq | pmresumenoirq | pmresume => exact absurd h Bool.false_ne_true
  | _ => exact ⟨_, rfl⟩

/-- R211: the nine commands with a pin operand ask next whether the pin exists. -/
theorem beginInstr_eq_entryChecksPin {i : Instr} {p : Nat} (h : pinOperand i = some p) (c : Ctx) (hs : Handshake)
    (s : State) : ∃ go, beginInstr i c hs s = entryChecksPin c p s go := by
  cases i with
  | disall | dispatch | attach | detach | pmsuspend | pmsuspendnoirq | pmresumenoirq | pmresume => cases h
  | _ => cases h; exact ⟨_, rfl⟩

/-- R219 (b): the two boundary commands ask, once attached, whether any command is in flight. -/
theorem beginInstr_eq_whenExclusive {i : Instr} (h : i = .pmsuspendnoirq ∨ i = .pmresumenoirq) (c : Ctx)
    (hs : Handshake) (s : State) : ∃ go, beginInstr i c hs s = whenAttached c s (whenExclusive s go) := by
  rcases h with rfl | rfl <;> exact ⟨_, rfl⟩

/-! ## The checks, failed -/

theorem whenAttached_of_detached {s : State} (h : s.attached = false) (c : Ctx) (go : Res Begun) :
    whenAttached c s go = raise c .fault s := if_neg (by simp [h])

theorem entryChecks_of_not_active {s : State} (attached : s.attached = true) (h : s.pm ≠ .active) (c : Ctx)
    (go : Res Begun) : entryChecks c s go = .fault .undefinedByContract := by
  rw [entryChecks, whenAttached_of_attached attached, if_neg h]

theorem whenExclusive_of_inFlight {s : State} (h : allFlights s ≠ []) (go : Res Begun) :
    whenExclusive s go = .fault .undefinedByContract := if_pos (by simpa [someInFlight] using h)

/-- Whether a command is in flight does not matter to one that is undefined by contract anyway. -/
theorem whenExclusive_undefinedByContract (s : State) :
    whenExclusive s (.fault .undefinedByContract) = .fault .undefinedByContract := ite_self _

theorem whenResting_of_moving {s : State} (h : s.pm = .suspending ∨ s.pm = .resuming) (go : Res Begun) :
    whenResting s go = .fault .undefinedByContract :=
  if_neg (by rcases h with pm | pm <;> simp [pmResting, pm])

/-- R211: an unrecognised trigger type is answered like a pin that does not exist, whichever is found first. -/
theorem planSettype_of_unrecognised {s : State} (live : Live s) {t : Nat} (h : 4 ≤ t) (c : Ctx) (p : Nat) :
    planSettype c p t s = raise c .invalidArgument s := by
  rw [planSettype, trigBits, if_neg (Nat.not_lt.2 h)]
  rcases Nat.lt_or_ge p s.cfg.pinCount with hp | beyond
  · exact entryChecksPin_live live hp c _
  · exact entryChecksPin_outOfRange live beyond c _

/-! ## From the beginning to the meaning -/

theorem exec_of_begin_raise {i : Instr} {s : State} {st : Status}
    (h : beginInstr i s.ctx s.hs s = raise s.ctx st s) : exec i s = .next (respond s.ctx st false s) := by
  rw [exec_eq_carryOut, h, raise, carryOut_answered]

theorem exec_of_begin_fault {i : Instr} {s : State} {f : Fault} (h : beginInstr i s.ctx s.hs s = .fault f) :
    exec i s = .fault f := by
  rw [exec_eq_carryOut, h, carryOut_fault]

/-! ## The causes of two classes -/

/-- Settles O48: a core-well pin exists and has passed every earlier check; `ATTACHED` is asked for first of all. -/
theorem faultCauses : Obligations.FaultCauses := by
  refine ⟨fun p v s live wf core => ?_, fun i s detached notAttach => ?_⟩
  · obtain ⟨⟨boundaryInRange, -⟩, -⟩ := wf
    exact exec_setwake_core live (core.trans_le boundaryInRange) core v
  · obtain ⟨go, begins⟩ := beginInstr_eq_whenAttached notAttach s.ctx s.hs s
    exact exec_of_begin_raise (begins.trans (whenAttached_of_detached detached s.ctx go))

/-- Settles O49: the pin is checked by the entry checks the nine commands share, the type by `SETTYPE` alone. -/
theorem invalidArgumentCauses : Obligations.InvalidArgumentCauses := by
  refine fun i p s live => ⟨fun hasPin beyond => ?_, fun t isSettype unrecognised => ?_⟩
  · obtain ⟨go, begins⟩ := beginInstr_eq_entryChecksPin hasPin s.ctx s.hs s
    exact exec_of_begin_raise (begins.trans (entryChecksPin_outOfRange live beyond s.ctx go))
  · subst isSettype
    exact exec_of_begin_raise (planSettype_of_unrecognised live unrecognised s.ctx p)

/-! ## The uses undefined by contract -/

/-- R194: `PM` is on its way only while a power-management command is in flight. -/
theorem allFlights_ne_nil_of_moving {s : State} (agrees : PmAgrees s) (h : s.pm = .suspending ∨ s.pm = .resuming) :
    allFlights s ≠ [] := by
  rcases h with pm | pm
  · simp only [PmAgrees, pm] at agrees
    obtain ⟨-, -, c, b, flight | flight⟩ := agrees <;> simp [flight]
  · simp only [PmAgrees, pm] at agrees
    obtain ⟨-, -, -, c, b, flight | flight⟩ := agrees <;> simp [flight]

/-- R219 (a). -/
theorem exec_of_not_active {i : Instr} {s : State} (attached : s.attached = true) (h : activeOnly i = true)
    (notActive : s.pm ≠ .active) : exec i s = .fault .undefinedByContract := by
  obtain ⟨go, begins⟩ := beginInstr_eq_entryChecks h s.ctx s.hs s
  exact exec_of_begin_fault (begins.trans (entryChecks_of_not_active attached notActive s.ctx go))

/-- R219 (b), a command in flight when a boundary command begins. -/
theorem exec_noirq_of_inFlight {i : Instr} {s : State} (attached : s.attached = true)
    (h : i = .pmsuspendnoirq ∨ i = .pmresumenoirq) (inFlight : allFlights s ≠ []) :
    exec i s = .fault .undefinedByContract := by
  obtain ⟨go, begins⟩ := beginInstr_eq_whenExclusive h s.ctx s.hs s
  apply exec_of_begin_fault
  rw [begins, whenAttached_of_attached attached, whenExclusive_of_inFlight inFlight]

/-- R219 (b), a power-management command that looks at `PM` begun while `PM` is on its way. -/
theorem exec_pm_of_moving {i : Instr} {s : State} (attached : s.attached = true)
    (h : i = .pmsuspend ∨ i = .pmresume ∨ i = .pmsuspendnoirq) (moving : s.pm = .suspending ∨ s.pm = .resuming) :
    exec i s = .fault .undefinedByContract := by
  apply exec_of_begin_fault
  rcases h with rfl | rfl | rfl
  · rw [beginInstr, planPmsuspend, whenAttached_of_attached attached, whenResting_of_moving moving]
  · rw [beginInstr, planPmresume, whenAttached_of_attached attached, whenResting_of_moving moving]
  · rw [beginInstr, planPmsuspendnoirq, whenAttached_of_attached attached, whenResting_of_moving moving,
      whenExclusive_undefinedByContract]

/-- R219 (c). -/
theorem exec_pmresumenoirq_of_not_suspended {s : State} (attached : s.attached = true) (snapshot : s.snapValid = true)
    (notSuspended : s.pm ≠ .suspended) : exec .pmresumenoirq s = .fault .undefinedByContract := by
  apply exec_of_begin_fault
  rw [beginInstr, planPmresumenoirq, whenAttached_of_attached attached, if_pos snapshot, if_neg notSuspended,
    whenExclusive_undefinedByContract]

/-- Settles O50: each use fails a check before the command's first change; `PMRESUMENOIRQ`, which looks at `PM` last,
is stopped in `Suspending` and `Resuming` by the command that is in flight then. -/
theorem undefinedByContractUses : Obligations.UndefinedByContractUses := by
  intro i s attached
  refine ⟨exec_of_not_active attached, exec_noirq_of_inFlight attached, exec_pm_of_moving attached,
    fun isResume moving agrees => ?_, fun isResume snapshot notSuspended => ?_⟩
  · exact exec_noirq_of_inFlight attached (.inr isResume) (allFlights_ne_nil_of_moving agrees moving)
  · subst isResume
    exact exec_pmresumenoirq_of_not_suspended attached snapshot notSuspended

/-! ## Errors change nothing -/

/-- The statuses in the order of their numbers (R98). -/
def statuses : List Status :=
  [.ok, .invalidArgument, .resourceBusy, .fault, .notSupported, .deviceBusy, .logicError, .illegalCommand]

theorem statuses_statusCode (st : Status) : statuses[statusCode st]? = some st := by cases st <;> rfl

/-- R97: a response byte has one status. -/
theorem status_eq_of_respByte_eq {st st' : Status} {d d' : Bool} (h : respByte st d = respByte st' d') :
    st = st' := by
  have sameCode : statusCode st = statusCode st' := by
    have sameNumber := congrArg BitVec.toNat h
    rw [respByte_toNat, respByte_toNat] at sameNumber
    have codeBounded := statusCode_lt st
    have codeBounded' := statusCode_lt st'
    omega
  apply Option.some.inj
  rw [← statuses_statusCode st, sameCode, statuses_statusCode]

/-- What an error answer leaves: the response, and `FATAL` under `LOGIC_ERROR` (R216, R218). -/
def afterError (c : Ctx) (st : Status) (s : State) : State :=
  respond c st false { s with fatal := s.fatal || decide (st = .logicError) }

theorem afterError_of_ne_logicError {st : Status} (h : st ≠ .logicError) (c : Ctx) (s : State) :
    afterError c st s = respond c st false s := by
  rw [afterError, decide_eq_false h, Bool.or_false]

theorem afterError_logicError (c : Ctx) (s : State) :
    afterError c .logicError s = respond c .logicError false { s with fatal := true } := by
  rw [afterError, decide_eq_true rfl, Bool.or_true]

/-- A piece that ends its command with the status `OK`. -/
def answersOk : Action → Bool
  | .attachDone | .detachDone | .suspendDone | .resumeDone | .answer | .answerLevel | .answerHandled => true
  | _ => false

theorem doAction_of_answersOk {a : Action} (h : answersOk a = true) (c : Ctx) (bit : Bool) (s : State) :
    ∃ d t, doAction c a bit s = .next (bit, respond c .ok d t) := by
  cases a with
  | attachDone | detachDone | suspendDone | resumeDone | answer | answerLevel | answerHandled => exact ⟨_, _, rfl⟩
  | _ => exact absurd h Bool.false_ne_true

/-- The last piece is the one that answers, with `OK`. -/
def EndsInOk (todo : List Action) : Prop := ∃ front a, todo = front ++ [a] ∧ answersOk a = true

/-- A command that got as far as its pieces is answered `OK`, whatever the other agents do between them. -/
theorem runPieces_answers_ok {todo : List Action} (h : EndsInOk todo) {c : Ctx} {bit : Bool} {s t : State}
    (run : runPieces c todo bit s = .next t) : ∃ d, t.resp = some (c, respByte .ok d) := by
  obtain ⟨front, a, rfl, answers⟩ := h
  induction front generalizing bit s with
  | nil =>
    obtain ⟨u, -, piece⟩ := andThen_eq_next.1 run
    obtain ⟨d, v, response⟩ := doAction_of_answersOk answers c bit u
    rw [response, andThen_next, runPieces_nil] at piece
    cases piece
    exact ⟨d, rfl⟩
  | cons b front ih =>
    obtain ⟨u, -, rest⟩ := andThen_eq_next.1 run
    obtain ⟨r, -, run'⟩ := andThen_eq_next.1 rest
    exact ih run'

/-- R218 for a beginning: it is answered with an error and has changed nothing besides, or is answered `OK`, or goes
on to an `OK`, or ends in a fault. -/
inductive BeginsCleanly (c : Ctx) (s : State) : Res Begun → Prop
  | error (st : Status) : BeginsCleanly c s (.next (.answered (afterError c st s)))
  | ok (t : State) : BeginsCleanly c s (.next (.answered (respond c .ok false t)))
  | starts {todo : List Action} (t : State) (h : EndsInOk todo) : BeginsCleanly c s (.next (.started todo t))
  | stops (f : Fault) : BeginsCleanly c s (.fault f)

namespace BeginsCleanly

variable {c : Ctx} {s : State} {go : Res Begun}

theorem raise {st : Status} (h : st ≠ .logicError) : BeginsCleanly c s (Machine.raise c st s) := by
  rw [Machine.raise, ← afterError_of_ne_logicError h]
  exact .error st

theorem ite {P : Prop} [Decidable P] {yes no : Res Begun} (h : BeginsCleanly c s yes) (g : BeginsCleanly c s no) :
    BeginsCleanly c s (if P then yes else no) := by
  split
  exacts [h, g]

theorem whenAttached (h : BeginsCleanly c s go) : BeginsCleanly c s (Machine.whenAttached c s go) :=
  ite h (raise nofun)

theorem entryChecks (h : BeginsCleanly c s go) : BeginsCleanly c s (Machine.entryChecks c s go) :=
  whenAttached (ite h (.stops _))

theorem entryChecksPin (h : BeginsCleanly c s go) (p : Nat) : BeginsCleanly c s (Machine.entryChecksPin c p s go) :=
  entryChecks (ite h (raise nofun))

theorem whenResting (h : BeginsCleanly c s go) : BeginsCleanly c s (Machine.whenResting s go) := ite h (.stops _)

theorem whenExclusive (h : BeginsCleanly c s go) : BeginsCleanly c s (Machine.whenExclusive s go) := ite (.stops _) h

theorem whenNoDispatch (h : BeginsCleanly c s go) : BeginsCleanly c s (Machine.whenNoDispatch s go) := ite (.stops _) h

/-- The last piece of a command that goes on. -/
theorem started (front : List Action) {a : Action} (h : answersOk a = true) (t : State) :
    BeginsCleanly c s (.next (.started (front ++ [a]) t)) := .starts t ⟨front, a, rfl, h⟩

end BeginsCleanly

open BeginsCleanly in
/-- R218: every check of every command stands before the command's first change. -/
theorem beginInstr_beginsCleanly (i : Instr) (c : Ctx) (hs : Handshake) (s : State) :
    BeginsCleanly c s (beginInstr i c hs s) := by
  cases i with
  | dirin p => exact entryChecksPin (started [_] rfl s) p
  | dirout p v => exact entryChecksPin (started [_, _] rfl s) p
  | get p => exact entryChecksPin (started [_] rfl s) p
  | set p v => exact entryChecksPin (started [_] rfl s) p
  | settype p t =>
    refine entryChecksPin ?_ p
    split
    · exact started [_] rfl s
    · exact raise nofun
  | irqen p => exact entryChecksPin (started [_] rfl s) p
  | irqdis p => exact entryChecksPin (started [_] rfl s) p
  | ack p => exact entryChecksPin (started [_] rfl s) p
  | setwake p v => exact entryChecksPin (ite (raise (st := .fault) nofun) (started [_] rfl s)) p
  | disall => exact entryChecks (started [_] rfl s)
  | dispatch => exact entryChecks (ite (started _ rfl _) (.stops _))
  | attach => exact ite (raise nofun) (ite (raise nofun) (ite (raise nofun) (ite (raise nofun) (started [_] rfl _))))
  | detach => exact entryChecks (started [_] rfl s)
  | pmsuspend => exact whenAttached (whenResting (whenNoDispatch (.ok _)))
  | pmsuspendnoirq => exact whenAttached (whenExclusive (whenResting (ite (raise nofun) (started [_] rfl _))))
  | pmresumenoirq =>
    refine whenAttached (whenExclusive (ite (ite (started [_] rfl _) (.stops _)) ?_))
    rw [← afterError_logicError]
    exact .error .logicError
  | pmresume => exact whenAttached (whenResting (.ok _))

/-- The command was answered with an error that changed nothing else, or it was answered `OK`. -/
def ErredOrOk (c : Ctx) (s t : State) : Prop :=
  (∃ st, t = afterError c st s) ∨ ∃ d, t.resp = some (c, respByte .ok d)

theorem carryOut_erredOrOk {c : Ctx} {s t : State} {b : Res Begun} (h : BeginsCleanly c s b)
    (run : carryOut c b = .next t) : ErredOrOk c s t := by
  cases h with
  | error st => cases run; exact .inl ⟨st, rfl⟩
  | ok u => cases run; exact .inr ⟨false, rfl⟩
  | starts u ends => exact .inr (runPieces_answers_ok ends run)
  | stops f => cases run

theorem runRequest_erredOrOk {r : Request} {s t : State} (sameCtx : s.ctx = r.ctx)
    (run : runRequest r s = .next t) : ErredOrOk s.ctx s t := by
  cases decoded : decode r.word with
  | error e =>
    rw [runRequest_of_illegal decoded, ← sameCtx,
      ← afterError_of_ne_logicError (st := .illegalCommand) nofun] at run
    cases run
    exact .inl ⟨_, rfl⟩
  | ok i =>
    rw [runRequest, decoded] at run
    exact carryOut_erredOrOk (beginInstr_beginsCleanly i s.ctx s.hs s) (exec_eq_carryOut i s ▸ run)

/-- Settles O52: the status in the response tells which of the two ways of being answered it was. -/
theorem errorsChangeNothing : Obligations.ErrorsChangeNothing := by
  intro r s t st d sameCtx run answered isError
  have statusOf {st' : Status} {d' : Bool} (h : t.resp = some (s.ctx, respByte st' d')) : st' = st :=
    status_eq_of_respByte_eq (Prod.mk.inj (Option.some.inj (h.symm.trans answered))).2
  rcases runRequest_erredOrOk sameCtx run with ⟨st', rfl⟩ | ⟨d', respondedOk⟩
  · obtain rfl := statusOf rfl
    rfl
  · exact absurd (statusOf respondedOk).symm isError

end Sys2Proof.Proofs
end

section
/-! Attach (45_lifecycle.md R200, R251): the sweep of `disable_all` leaves every interrupt register clear whatever
pad changes and edges fall between its writes, because the trigger enables go first and an edge needs one. -/

namespace Sys2Proof.Proofs
open Sys2Proof Sys2Proof.Machine

/-! ## A window that holds moves -/

theorem envWindow_of_cons {s : State} {ms : List Move} {rest : List (List Move)} (h : s.windows = ms :: rest) :
    envWindow s = envMoves ms { s with windows := rest } := by
  simp [envWindow, h]

theorem window_of_cons {s : State} {ms : List Move} {rest : List (List Move)} (h : s.windows = ms :: rest) :
    window s = applyMoves ms { s with windows := rest } := by
  simp [window, h]

/-! ## A sweep among harmless moves -/

/-- No pin has a trigger enable set, so no edge can leave a pending bit (R222). -/
def TriggersOff (s : State) : Prop := ∀ r ∈ regs s.cfg, r.kind ∈ [Kind.rte, .fte] → stored s r = 0#8

/-- `Active`, in canonical form, and nothing but harmless moves in the windows to come. -/
def Calm (s : State) : Prop :=
  ConfigWF s.cfg ∧ MemWF s.mem ∧ s.pm = .active ∧ ∀ ms ∈ s.windows, ∀ m ∈ ms, harmlessMove m = true

/-- From `s` to `t` the registers of `l` were zeroed and besides only harmless moves happened, which can reach `STS`
alone, and not even that when the triggers were off. Where the command stands in its pieces is left open. -/
structure Sweep (l : List Reg) (s t : State) : Prop where
  frame : AccessFrame { s with running := t.running } t
  ahead : t.windows ⊆ s.windows
  bytes : ∀ r ∈ regs s.cfg, r.kind ≠ .sts ∨ TriggersOff s → stored t r = if r ∈ l then 0#8 else stored s r

namespace Sweep

variable {l m : List Reg} {s t u : State}

theorem calm (h : Sweep l s t) (hs : Calm s) : Calm t := by
  obtain ⟨wf, canonical, active, harmless⟩ := hs
  exact ⟨h.frame.cfg ▸ wf, h.frame.2.1 canonical, h.frame.pm.trans active, fun ms hms => harmless ms (h.ahead hms)⟩

/-- Zeroing sets no trigger enable, and neither does a harmless move. -/
theorem triggersOff (h : Sweep l s t) (hs : TriggersOff s) : TriggersOff t := by
  intro r hr trigger
  rw [h.frame.cfg] at hr
  rw [h.bytes r hr (.inr hs), hs r hr trigger, ite_self]

/-- Where no byte of the page moved, nothing was zeroed and nothing had to be kept. -/
theorem of_mem_eq (frame : AccessFrame { s with running := t.running } t) (ahead : t.windows ⊆ s.windows)
    (sameMem : t.mem = s.mem) : Sweep [] s t :=
  ⟨frame, ahead, fun r _ _ => (stored_congr sameMem frame.cfg r).trans (if_neg List.not_mem_nil).symm⟩

theorem refl (s : State) : Sweep [] s s := of_mem_eq (.refl s) (List.Subset.refl _) rfl

theorem trans (h : Sweep l s t) (g : Sweep m t u) : Sweep (l ++ m) s u := by
  have frame : AccessFrame { s with running := u.running } { t with running := u.running } :=
    ⟨by rw [h.frame.1], h.frame.2⟩
  refine ⟨frame.trans g.frame, List.Subset.trans g.ahead h.ahead, fun r hr settled => ?_⟩
  have hr' : r ∈ regs t.cfg := h.frame.cfg ▸ hr
  rw [g.bytes r hr' (settled.imp_right h.triggersOff), h.bytes r hr settled]
  by_cases inFirst : r ∈ l <;> by_cases inSecond : r ∈ m <;> simp [inFirst, inSecond]

theorem withLock (h : Sweep l s t) (k : Lock) : Sweep l { s with lock := k } { t with lock := k } :=
  ⟨⟨by rw [h.frame.1], h.frame.2⟩, h.ahead, h.bytes⟩

theorem setRunning (f : Option Flight) (s : State) : Sweep [] s { s with running := f } :=
  of_mem_eq (.refl _) (List.Subset.refl _) rfl

theorem record (e : Event) (s : State) : Sweep [] s (Machine.record e s) :=
  of_mem_eq (.record e s) (List.Subset.refl _) rfl

theorem store (hs : Calm s) {r : Reg} (hr : r ∈ regs s.cfg) : Sweep [r] s (Machine.store s r 0#8) := by
  obtain ⟨wf, canonical, -, -⟩ := hs
  refine ⟨.store s r 0#8, List.Subset.refl _, fun q hq _ => ?_⟩
  by_cases same : q = r
  · subst same
    rw [stored_store_same canonical, if_pos (List.mem_singleton_self q)]
  · rw [stored_store_ne wf hr hq 0#8 same, if_neg (by simpa using same)]

/-- R222: a pending bit is set only where a trigger enable is. -/
theorem setPending (hs : Calm s) {p : Nat} (hp : p < s.cfg.pinCount) {e : Edge}
    (armed : pinBit? s (triggerKind e) p = some true) : Sweep [] s (Machine.setPending p s) := by
  obtain ⟨wf, -, -, -⟩ := hs
  rw [setPending_of_lt hp]
  refine ⟨.store _ _ _, List.Subset.refl _, fun r hr settled => ?_⟩
  rw [if_neg List.not_mem_nil]
  rcases settled with notStatus | off
  · exact stored_store_ne wf (regOf_mem .sts hp) hr _ fun same => notStatus (by rw [same, regOf_kind])
  · have disarmed := off _ (regOf_mem (triggerKind e) hp) (by cases e <;> simp [triggerKind])
    rw [pinBit?_of_lt _ hp, pinBit, disarmed, BitVec.getLsbD_zero] at armed
    cases armed

theorem envStep (hs : Calm s) {e : EnvStep} (harmless : harmlessMove (.env e) = true) :
    Sweep [] s (Machine.envStep e s) := by
  have ⟨_, _, active, _⟩ := hs
  by_cases enabled : envEnabled s e = true
  · rw [Machine.envStep, if_pos enabled]
    refine trans (l := []) (m := []) ?_ (record (.env e) _)
    cases e with
    | pad p v => exact of_mem_eq ⟨rfl, id, [], (List.append_nil _).symm⟩ (List.Subset.refl _) rfl
    | edge p e =>
      by_cases armed : pinBit? s (triggerKind e) p = some true
      · simp only [envEnabled, Bool.and_eq_true, decide_eq_true_eq] at enabled
        rw [envEffect, if_pos armed]
        exact setPending hs enabled.1 armed
      · rw [envEffect, if_neg armed]; exact refl s
    | regWrite off v => exact absurd harmless Bool.false_ne_true
    | powerLoss draw => simp [envEnabled, active] at enabled
  · rw [Machine.envStep, if_neg enabled]; exact refl s

theorem envMoves {ms : List Move} (hs : Calm s) (harmless : ∀ m ∈ ms, harmlessMove m = true) :
    Sweep [] s (Machine.envMoves ms s) := by
  induction ms generalizing s with
  | nil => exact refl s
  | cons m ms ih =>
    obtain ⟨first, later⟩ := List.forall_mem_cons.1 harmless
    cases m with
    | env e =>
      have step := envStep hs first
      exact step.trans (ih (step.calm hs) later)
    | start r => exact ih hs later
    | advance c => exact ih hs later

theorem envWindow (hs : Calm s) : Sweep [] s (Machine.envWindow s) := by
  have ⟨_, _, _, harmless⟩ := hs
  cases windows : s.windows with
  | nil => rw [envWindow_quiet windows]; exact refl s
  | cons ms rest =>
    rw [envWindow_of_cons windows]
    have taken : Sweep [] s { s with windows := rest } :=
      of_mem_eq ⟨rfl, id, [], (List.append_nil _).symm⟩ (by rw [windows]; exact List.subset_cons_self ms rest) rfl
    exact taken.trans (envMoves (taken.calm hs) (harmless ms (by rw [windows]; exact List.mem_cons_self)))

end Sweep

/-- Between two pieces, too, harmless moves are all there is: the window is like one inside a block. -/
theorem applyMoves_of_harmless {ms : List Move} (harmless : ∀ m ∈ ms, harmlessMove m = true) (s : State) :
    applyMoves ms s = .next (envMoves ms s) := by
  induction ms generalizing s with
  | nil => rfl
  | cons m ms ih =>
    obtain ⟨first, later⟩ := List.forall_mem_cons.1 harmless
    cases m with
    | env e => exact ih later (envStep e s)
    | start r => exact absurd first Bool.false_ne_true
    | advance c => exact absurd first Bool.false_ne_true

theorem window_of_calm {s : State} (hs : Calm s) : window s = .next (envWindow s) := by
  obtain ⟨-, -, -, harmless⟩ := hs
  cases windows : s.windows with
  | nil => rw [window_quiet windows, envWindow_quiet windows]
  | cons ms rest =>
    rw [window_of_cons windows, envWindow_of_cons windows]
    exact applyMoves_of_harmless (harmless ms (by rw [windows]; exact List.mem_cons_self)) _

/-! ## `disable_all` among harmless moves -/

/-- Writes of a value that zeroes the registers it is written to, each with the window before it. -/
theorem writeAll_sweeps (c : Ctx) {l : List Reg} {v : Byte} {s : State} (hs : Calm s)
    (zeroes : ∀ r ∈ l, r ∈ regs s.cfg ∧ ∀ u, writtenByte u r v = 0#8) :
    ∃ t, writeAll c (l.map fun r => (regOff s.cfg r, v)) s = .next t ∧ Sweep l s t := by
  induction l generalizing s with
  | nil => exact ⟨s, rfl, .refl s⟩
  | cons r l ih =>
    obtain ⟨⟨inBank, zeroesFirst⟩, zeroesLater⟩ := List.forall_mem_cons.1 zeroes
    have ⟨wf, _⟩ := hs
    have before := Sweep.envWindow hs
    have stores := Sweep.store (before.calm hs) (r := r) (before.frame.cfg ▸ inBank)
    have first := (before.trans stores).trans (.record (.write c (regOff s.cfg r) v) _)
    obtain ⟨t, writes, later⟩ := ih (first.calm hs) (by rw [first.frame.cfg]; exact zeroesLater)
    refine ⟨t, ?_, first.trans later⟩
    rw [List.map_cons, writeAll, regWrite_regOff wf inBank, writeReg_eq_store, zeroesFirst, andThen_next]
    rw [first.frame.cfg] at writes
    exact writes

theorem writeAll_append (c : Ctx) (ws vs : List (Nat × Byte)) (s : State) :
    writeAll c (ws ++ vs) s = andThen (writeAll c ws s) (writeAll c vs) := by
  induction ws generalizing s with
  | nil => rfl
  | cons w ws ih =>
    rw [List.cons_append, writeAll, writeAll]
    cases regWrite c w.1 w.2 s with
    | next t => exact ih t
    | fault f => rfl
    | refused r => rfl

/-- The registers `disable_all` writes 0x00 to: all it clears but `STS` (R156). -/
def maskRegs (c : Config) : List Reg := clearedKinds.flatMap (regsOfKind c)

theorem mem_maskRegs {c : Config} {r : Reg} : r ∈ maskRegs c ↔ r.kind ∈ clearedKinds ∧ r ∈ regs c := by
  simp only [maskRegs, List.mem_flatMap, mem_regsOfKind, mem_regs]
  exact ⟨fun ⟨k, hk, same, inBank⟩ => ⟨same ▸ hk, inBank⟩, fun ⟨hk, inBank⟩ => ⟨_, hk, rfl, inBank⟩⟩

theorem disableAllWrites_eq_maskRegs (c : Config) :
    disableAllWrites c =
      (maskRegs c).map (fun r => (regOff c r, 0x00#8)) ++ (regsOfKind c .sts).map fun r => (regOff c r, 0xFF#8) := by
  rw [disableAllWrites, maskRegs, List.map_flatMap]

/-- R70: 0x00 written to a register that is neither `STS` nor `LVL`. -/
theorem writtenByte_maskRegs {c : Config} {r : Reg} (hr : r ∈ maskRegs c) (s : State) :
    writtenByte s r 0x00#8 = 0#8 := by
  have cleared := (mem_maskRegs.1 hr).1
  exact writtenByte_of_plain (fun e => by simp [e, clearedKinds] at cleared)
    (fun e => by simp [e, clearedKinds] at cleared)

/-- R70: `STS` is cleared where the written bits are 1. -/
theorem writtenByte_sts_ones {r : Reg} (h : r.kind = .sts) (s : State) : writtenByte s r 0xFF#8 = 0#8 := by
  simp only [writtenByte, h]
  exact BitVec.and_zero

/-- The block in its two parts: the masks, after which the triggers are off, and `STS`. -/
theorem doAction_disableAll_sweeps (c : Ctx) (bit : Bool) {s : State} (hs : Calm s) (lockFree : s.lock = .free) :
    ∃ t u, doAction c .disableAll bit s = .next (bit, u) ∧ Sweep (maskRegs s.cfg) s t ∧
      Sweep (regsOfKind s.cfg .sts) t u := by
  obtain ⟨t, writesMasks, masks⟩ := writeAll_sweeps c (v := 0x00#8) (s := { s with lock := .held c }) hs
    (l := maskRegs s.cfg) fun r hr => ⟨(mem_maskRegs.1 hr).2, writtenByte_maskRegs hr⟩
  obtain ⟨u, writesStatus, status⟩ := writeAll_sweeps c (v := 0xFF#8) (masks.calm hs) (l := regsOfKind s.cfg .sts)
    fun r hr => by
      have ⟨isStatus, inBank⟩ := mem_regsOfKind.1 hr
      exact ⟨by rw [masks.frame.cfg]; exact mem_regs.2 inBank, writtenByte_sts_ones isStatus⟩
  have body : writeAll c (disableAllWrites s.cfg) { s with lock := .held c } = .next u := by
    rw [masks.frame.cfg] at writesStatus
    rw [disableAllWrites_eq_maskRegs, writeAll_append, writesMasks, andThen_next]
    exact writesStatus
  have masksFree : Sweep (maskRegs s.cfg) s { t with lock := .free } := by
    rw [← lock_eta lockFree]
    exact masks.withLock .free
  exact ⟨_, _, atomicDo_completes lockFree c bit body, masksFree, status.withLock .free⟩

/-! ## What the sweep leaves -/

/-- Every interrupt register is clear (R251). -/
def InterruptsClear (s : State) : Prop := ∀ r ∈ regs s.cfg, r.kind ∈ Kind.sts :: clearedKinds → stored s r = 0#8

namespace InterruptsClear

variable {s : State} {p : Nat}

theorem pinBit_eq_false (h : InterruptsClear s) {k : Kind} (hk : k ∈ Kind.sts :: clearedKinds)
    (hp : p < s.cfg.pinCount) : pinBit s k p = false := by
  rw [pinBit, h _ (regOf_mem k hp) hk, BitVec.getLsbD_zero]

theorem trigType_eq_none (h : InterruptsClear s) (hp : p < s.cfg.pinCount) : trigType s p = .none := by
  rw [trigType, h.pinBit_eq_false (by decide) hp, h.pinBit_eq_false (by decide) hp, trigOfBits]

theorem pinBit?_sts_ne_true (h : InterruptsClear s) (hp : p < s.cfg.pinCount) :
    (pinBit? s .sts p == some true) = false := by
  rw [pinBit?_of_lt .sts hp, h.pinBit_eq_false (by decide) hp]
  rfl

theorem lineOut_eq_false (h : InterruptsClear s) : lineOut s = false := by
  rw [lineOut, Bool.and_eq_false_iff, List.any_eq_false]
  exact .inr fun p hp => by simp [h.pinBit?_sts_ne_true (List.mem_range.1 hp)]

theorem wakeOut_eq_false (h : InterruptsClear s) : wakeOut s = false := by
  rw [wakeOut, List.any_eq_false]
  exact fun p hp => by simp [h.pinBit?_sts_ne_true (List.mem_range.1 hp)]

end InterruptsClear

section
variable {s t u : State} (masks : Sweep (maskRegs s.cfg) s t)
include masks

/-- The first part of the sweep disarms every pin. -/
theorem triggersOff_of_maskSweep : TriggersOff t := by
  intro r hr trigger
  rw [masks.frame.cfg] at hr
  have cleared : r.kind ∈ clearedKinds ∧ r.kind ≠ .sts := by
    rcases List.mem_pair.1 trigger with e | e <;> rw [e] <;> decide
  rw [masks.bytes r hr (.inl cleared.2), if_pos (mem_maskRegs.2 ⟨cleared.1, hr⟩)]

/-- R251: what `STS` lost in the second part no edge brings back. -/
theorem interruptsClear_of_sweep (status : Sweep (regsOfKind s.cfg .sts) t u) : InterruptsClear u := by
  intro r hr kind
  rw [status.frame.cfg] at hr
  have hr' : r ∈ regs s.cfg := masks.frame.cfg ▸ hr
  rw [status.bytes r hr (.inr (triggersOff_of_maskSweep masks))]
  rcases List.mem_cons.1 kind with isStatus | isMask
  · rw [if_pos (mem_regsOfKind.2 ⟨isStatus, mem_regs.1 hr'⟩)]
  · rw [masks.bytes r hr' (.inl fun e => by simp [e, clearedKinds] at isMask),
      if_pos (mem_maskRegs.2 ⟨isMask, hr'⟩), ite_self]

theorem stored_eq_of_sweep (status : Sweep (regsOfKind s.cfg .sts) t u) {r : Reg} (hr : r ∈ regs s.cfg)
    (kind : r.kind ∈ [Kind.en, .dir, .lvl]) : stored u r = stored s r := by
  have unswept : r.kind ≠ .sts ∧ r.kind ∉ clearedKinds := by
    simp only [List.mem_cons, List.not_mem_nil, or_false] at kind
    rcases kind with e | e | e <;> rw [e] <;> decide
  obtain ⟨notStatus, notMask⟩ := unswept
  rw [status.bytes r (masks.frame.cfg ▸ hr) (.inl notStatus), if_neg fun h => notStatus (mem_regsOfKind.1 h).1,
    masks.bytes r hr (.inl notStatus), if_neg fun h => notMask (mem_maskRegs.1 h).1]

end

/-! ## `ATTACH` -/

/-- The last piece of `ATTACH` and the end of the command (R200). -/
def afterAttachDone (c : Ctx) (s : State) : State :=
  respond c .ok false { s with attached := true, running := none }

/-- R200: every check passed, the control state is set up and the sweep begins. -/
theorem exec_attach_starts {s : State} (detached : s.attached = false) (variantOk : s.hs.variantOk = true)
    (ioOk : s.hs.ioOk = true) (virqOk : s.hs.virqOk = true) :
    exec .attach s = runPieces s.ctx [.disableAll, .attachDone] false (attachInit s) := by
  rw [exec_eq_carryOut, beginInstr, planAttach]
  simp only [detached, variantOk, ioOk, virqOk, Bool.not_true, Bool.false_eq_true, if_false, carryOut_started]

/-- A piece of a command after the window before it, when the window holds harmless moves only. -/
theorem runPieces_of_calm {s : State} (hs : Calm s) (c : Ctx) (a : Action) (todo : List Action) (bit : Bool) :
    ∃ t, Sweep [] s t ∧
      runPieces c (a :: todo) bit s = andThen (doAction c a bit t) fun r => runPieces c todo r.1 r.2 := by
  have begun := Sweep.setRunning (some ⟨c, a :: todo, bit⟩) s
  have calm := begun.calm hs
  exact ⟨_, begun.trans (.envWindow calm), by rw [runPieces, window_of_calm calm, andThen_next]⟩

/-- What R200 sets up before the sweep still stands after it. -/
theorem control_of_attachInit_sweep {l : List Reg} {s u : State} (h : Sweep l (attachInit s) u) :
    u.pm = .active ∧ u.snapValid = false ∧ u.wake = 0#64 ∧ u.lineMasked = false ∧ u.delivOff = false ∧
      u.lock = .free ∧ u.fatal = s.fatal ∧ u.inflight = s.inflight := by
  rw [h.frame.1]
  exact ⟨rfl, rfl, rfl, rfl, rfl, rfl, rfl, rfl⟩

/-- The pieces of `ATTACH` among harmless moves: a window, the two parts of the sweep, a window, the end. -/
theorem runPieces_attach_sweeps (c : Ctx) (bit : Bool) {s : State} (hs : Calm s) (lockFree : s.lock = .free) :
    ∃ t u, runPieces c [.disableAll, .attachDone] bit s = .next (afterAttachDone c u) ∧
      Sweep (maskRegs s.cfg) s t ∧ Sweep (regsOfKind s.cfg .sts) t u := by
  obtain ⟨v, before, toBlock⟩ := runPieces_of_calm hs c .disableAll [.attachDone] bit
  obtain ⟨t, w, block, masks, status⟩ :=
    doAction_disableAll_sweeps c bit (before.calm hs) (before.frame.lock.trans lockFree)
  have sameCfg : v.cfg = s.cfg := before.frame.cfg
  rw [sameCfg] at masks status
  have calmAfter : Calm w := (masks.trans status).calm (before.calm hs)
  obtain ⟨u, after, toEnd⟩ := runPieces_of_calm calmAfter c .attachDone [] bit
  refine ⟨t, u, ?_, before.trans masks, ?_⟩
  · rw [toBlock, block, andThen_next, toEnd]
    rfl
  · simpa using status.trans after

theorem runPieces_attachDone_quiet (c : Ctx) (bit : Bool) {s : State} (quiet : s.windows = []) :
    runPieces c [.attachDone] bit s = .next (afterAttachDone c s) := by
  rw [runPieces_quiet quiet]
  rfl

/-- Nobody else acting, `ATTACH` is its sweep and its response. -/
theorem runPieces_attach_quiet (c : Ctx) (bit : Bool) {s : State} (wf : ConfigWF s.cfg) (lockFree : s.lock = .free)
    (quiet : s.windows = []) :
    ∃ f, runPieces c [.disableAll, .attachDone] bit s =
      .next (afterAttachDone c (afterWrites c (disableAllRegs s.cfg) { s with running := f })) := by
  refine ⟨some ⟨c, [.disableAll, .attachDone], bit⟩, ?_⟩
  rw [runPieces_quiet quiet, doAction_disableAll_quiet c bit (by exact wf) (by exact lockFree) (by exact quiet),
    andThen_next]
  exact runPieces_attachDone_quiet c bit (by rw [afterWrites_windows]; exact quiet)

/-! ## The sweep spelled out (R156) -/

theorem offsetsOf_baseOf (c : Config) (k : Kind) : offsetsOf c (baseOf c k) = (regsOfKind c k).map (regOff c) := by
  simp [offsetsOf, regsOfKind, Well.all, regOff, strideOf, bytesIn, pinsIn, Function.comp_def]

theorem sweepWrites_eq_disableAllWrites (c : Config) : sweepWrites c = disableAllWrites c := by
  have rte : offsetsOf c c.base.rte = _ := offsetsOf_baseOf c .rte
  have fte : offsetsOf c c.base.fte = _ := offsetsOf_baseOf c .fte
  have gpe : offsetsOf c c.base.gpe = _ := offsetsOf_baseOf c .gpe
  have smi : offsetsOf c c.base.smi = _ := offsetsOf_baseOf c .smi
  have nmi : offsetsOf c c.base.nmi = _ := offsetsOf_baseOf c .nmi
  have sts : offsetsOf c c.base.sts = _ := offsetsOf_baseOf c .sts
  simp [sweepWrites, disableAllWrites, clearedKinds, rte, fte, gpe, smi, nmi, sts, Function.comp_def]

theorem kind_of_mem_disableAllRegs {c : Config} {w : Reg × Byte} (h : w ∈ disableAllRegs c) :
    w.1.kind ∈ Kind.sts :: clearedKinds := by
  simp only [disableAllRegs, List.mem_append, List.mem_flatMap, List.mem_map] at h
  rcases h with ⟨k, hk, r, hr, rfl⟩ | ⟨r, hr, rfl⟩
  · rw [(mem_regsOfKind.1 hr).1]
    exact List.mem_cons_of_mem _ hk
  · rw [(mem_regsOfKind.1 hr).1]
    exact List.mem_cons_self

theorem afterWrites_disableAllRegs_log (c : Ctx) (s : State) :
    (afterWrites c (disableAllRegs s.cfg) s).log =
      s.log ++ (sweepWrites s.cfg).map fun w => .write c w.1 w.2 := by
  rw [afterWrites_frame, sweepWrites_eq_disableAllWrites, disableAllWrites_eq, List.map_map]
  rfl

theorem afterWrites_disableAllRegs_readByte (c : Ctx) (s : State) {a : Nat}
    (h : ∀ r ∈ regs s.cfg, r.kind ∈ Kind.sts :: clearedKinds → a ≠ regAddr s.cfg r) :
    readByte (afterWrites c (disableAllRegs s.cfg) s).mem a = readByte s.mem a :=
  afterWrites_readByte_ne c _ s fun w hw => h w.1 (disableAllRegs_mem hw) (kind_of_mem_disableAllRegs hw)

/-- Settles O39: the masks are swept first, so an edge can only set a pending bit before `STS` is swept too; when
nobody else acts, the same run is the sweep's own accesses. -/
theorem attachLeavesAllClear : Obligations.AttachLeavesAllClear := by
  intro s wf canonical detached alone harmless variantOk ioOk virqOk
  have starts := exec_attach_starts detached variantOk ioOk virqOk
  have calm : Calm (attachInit s) := ⟨wf, canonical, rfl, harmless⟩
  obtain ⟨t, u, run, masks, status⟩ := runPieces_attach_sweeps s.ctx false calm rfl
  have clear : InterruptsClear u := interruptsClear_of_sweep masks status
  have sameCfg : u.cfg = s.cfg := (masks.trans status).frame.cfg
  obtain ⟨pm, snapValid, wake, lineMasked, delivOff, lock, fatal, inflight⟩ :=
    control_of_attachInit_sweep (masks.trans status)
  refine ⟨afterAttachDone s.ctx u, starts.trans run, rfl, fun r hr => clear r (sameCfg ▸ hr),
    fun r hr => stored_eq_of_sweep masks status hr, fun p hp => ?_, clear.lineOut_eq_false, clear.wakeOut_eq_false,
    rfl, pm, snapValid, wake, lineMasked, delivOff, lock, fatal, rfl, inflight.trans alone, fun quiet => ?_⟩
  · have pinExists : p < u.cfg.pinCount := sameCfg ▸ hp
    exact ⟨clear.trigType_eq_none pinExists, clear.pinBit_eq_false (by decide) pinExists⟩
  · obtain ⟨f, quietRun⟩ := runPieces_attach_quiet s.ctx false (s := attachInit s) wf rfl quiet
    rw [Host.Outcome.next.inj (run.symm.trans quietRun)]
    exact ⟨congrArg (· ++ [_]) (afterWrites_disableAllRegs_log s.ctx { attachInit s with running := f }),
      fun a untouched => afterWrites_disableAllRegs_readByte s.ctx { attachInit s with running := f } untouched⟩

end Sys2Proof.Proofs
end

section
/-! Encoding and decoding (R90 to R99, R107): a word is its three fields, and each command's fields come back. -/

namespace Sys2Proof.Proofs
open Sys2Proof Sys2Proof.Machine

/-! ## A word by its fields -/

/-- The word with `op = cmd[15:12]`, `arg = cmd[11:8]` and `low = cmd[7:0]` (R91 to R95). -/
def wordOf (op arg low : Nat) : Word := BitVec.ofNat 16 (0x1000 * op + 0x100 * arg + low)

section
variable {op arg low : Nat} (hop : op < 16) (harg : arg < 16) (hlow : low < 256)
include hop harg hlow

theorem slice_wordOf (lo len : Nat) :
    slice (wordOf op arg low) lo len = (0x1000 * op + 0x100 * arg + low) / 2 ^ lo % 2 ^ len := by
  have fits : 0x1000 * op + 0x100 * arg + low < 2 ^ 16 := by omega
  rw [slice, wordOf, BitVec.toNat_ofNat, Nat.mod_eq_of_lt fits]

theorem slice_op_wordOf : slice (wordOf op arg low) 12 4 = op := by
  rw [slice_wordOf hop harg hlow]; omega

theorem slice_arg_wordOf : slice (wordOf op arg low) 8 4 = arg := by
  rw [slice_wordOf hop harg hlow]; omega

theorem slice_low_wordOf : slice (wordOf op arg low) 0 8 = low := by
  rw [slice_wordOf hop harg hlow]; omega

end

/-- No bit of a word lies outside its three fields. -/
theorem wordOf_slices (w : Word) : wordOf (slice w 12 4) (slice w 8 4) (slice w 0 8) = w := by
  have fits := w.isLt
  apply BitVec.eq_of_toNat_eq
  simp only [wordOf, slice, BitVec.toNat_ofNat]
  omega

/-! ## The parts of the decoder -/

theorem whenZero_eq_ok {n : Nat} {i j : Instr} : whenZero n i = .ok j ↔ n = 0 ∧ i = j := by
  unfold whenZero
  split <;> simp [*]

theorem withValue_toNat (v : Bool) (mk : Bool → Instr) : withValue v.toNat mk = .ok (mk v) := by
  cases v <;> rfl

theorem withValue_eq_ok {n : Nat} {mk : Bool → Instr} {j : Instr} :
    withValue n mk = .ok j ↔ ∃ v : Bool, n = v.toNat ∧ mk v = j := by
  refine ⟨fun h => ?_, fun ⟨v, hn, hj⟩ => by rw [hn, withValue_toNat, hj]⟩
  unfold withValue at h
  split at h
  · rename_i small
    cases h
    obtain rfl | rfl : n = 0 ∨ n = 1 := by omega
    exacts [⟨false, rfl, rfl⟩, ⟨true, rfl, rfl⟩]
  · cases h

/-! ## Decode after encode -/

/-- Format P (R91). -/
theorem decode_wordOf_pin {op : Nat} {mk : Nat → Instr}
    (h : (op, mk) ∈ [(0, Instr.dirin), (2, .get), (5, .irqen), (6, .irqdis), (7, .ack)]) {p : Nat} (hp : p < 256) :
    decode (wordOf op 0 p) = .ok (mk p) := by
  simp only [List.mem_cons, Prod.mk.injEq, List.not_mem_nil, or_false] at h
  rcases h with ⟨rfl, rfl⟩ | ⟨rfl, rfl⟩ | ⟨rfl, rfl⟩ | ⟨rfl, rfl⟩ | ⟨rfl, rfl⟩ <;>
    simp [decode, slice_op_wordOf, slice_arg_wordOf, slice_low_wordOf, hp, whenZero]

/-- Format PV (R92). -/
theorem decode_wordOf_pinValue {op : Nat} {mk : Nat → Bool → Instr}
    (h : (op, mk) ∈ [(1, Instr.dirout), (3, .set), (8, .setwake)]) {p : Nat} (hp : p < 256) (v : Bool) :
    decode (wordOf op v.toNat p) = .ok (mk p v) := by
  have hv : v.toNat < 16 := (Bool.toNat_le v).trans_lt (by decide)
  simp only [List.mem_cons, Prod.mk.injEq, List.not_mem_nil, or_false] at h
  rcases h with ⟨rfl, rfl⟩ | ⟨rfl, rfl⟩ | ⟨rfl, rfl⟩ <;>
    simp [decode, slice_op_wordOf, slice_arg_wordOf, slice_low_wordOf, hp, hv, withValue_toNat]

/-- Format PT (R93). -/
theorem decode_wordOf_pinType {p t : Nat} (hp : p < 256) (ht : t < 16) :
    decode (wordOf 4 t p) = .ok (.settype p t) := by
  simp [decode, slice_op_wordOf, slice_arg_wordOf, slice_low_wordOf, hp, ht]

/-- Settles O1: the encoder places each operand in a field of its own; the formats N and S have no operand. -/
theorem decodeOfEncode : Obligations.DecodeOfEncode := by
  intro i wf
  cases i with
  | dirin p => exact decode_wordOf_pin (op := 0) (mk := .dirin) (by simp) (of_decide_eq_true wf)
  | get p => exact decode_wordOf_pin (op := 2) (mk := .get) (by simp) (of_decide_eq_true wf)
  | irqen p => exact decode_wordOf_pin (op := 5) (mk := .irqen) (by simp) (of_decide_eq_true wf)
  | irqdis p => exact decode_wordOf_pin (op := 6) (mk := .irqdis) (by simp) (of_decide_eq_true wf)
  | ack p => exact decode_wordOf_pin (op := 7) (mk := .ack) (by simp) (of_decide_eq_true wf)
  | dirout p v => exact decode_wordOf_pinValue (op := 1) (mk := .dirout) (by simp) (of_decide_eq_true wf) v
  | set p v => exact decode_wordOf_pinValue (op := 3) (mk := .set) (by simp) (of_decide_eq_true wf) v
  | setwake p v => exact decode_wordOf_pinValue (op := 8) (mk := .setwake) (by simp) (of_decide_eq_true wf) v
  | settype p t =>
    obtain ⟨hp, ht⟩ : p < 256 ∧ t < 16 := by simpa [Instr.WellFormed, Instr.wellFormed] using wf
    exact decode_wordOf_pinType hp ht
  | disall | dispatch | attach | detach | pmsuspend | pmsuspendnoirq | pmresumenoirq | pmresume => rfl

/-! ## Encode after decode -/

/-- The command is well formed and the word is its word. -/
def Encodes (i : Instr) (w : Word) : Prop := i.WellFormed ∧ encode i = w

/-- Formats P, PV and PT: the pin operand is the low byte. -/
theorem encodes_of_fields {w : Word} {op : Nat} (hop : slice w 12 4 = op) {i : Instr}
    (wf : slice w 0 8 < 256 → slice w 8 4 < 16 → i.WellFormed) (word : encode i = wordOf op (slice w 8 4) (slice w 0 8)) :
    Encodes i w :=
  ⟨wf (slice_lt w 0 8) (slice_lt w 8 4), by rw [word, ← hop, wordOf_slices]⟩

theorem encodes_of_decode_pin {w : Word} {i : Instr}
    (h : slice w 12 4 = 0 ∨ slice w 12 4 = 2 ∨ slice w 12 4 = 5 ∨ slice w 12 4 = 6 ∨ slice w 12 4 = 7)
    (decoded : decode w = .ok i) : Encodes i w := by
  rcases h with op | op | op | op | op <;> simp only [decode, op, whenZero_eq_ok] at decoded <;>
    obtain ⟨noArg, rfl⟩ := decoded <;>
    exact encodes_of_fields op (fun hp _ => decide_eq_true hp) (by rw [noArg]; rfl)

theorem encodes_of_decode_pinValue {w : Word} {i : Instr}
    (h : slice w 12 4 = 1 ∨ slice w 12 4 = 3 ∨ slice w 12 4 = 8) (decoded : decode w = .ok i) : Encodes i w := by
  rcases h with op | op | op <;> simp only [decode, op, withValue_eq_ok] at decoded <;>
    obtain ⟨v, isValue, rfl⟩ := decoded <;>
    exact encodes_of_fields op (fun hp _ => decide_eq_true hp) (by rw [isValue]; rfl)

theorem encodes_of_decode_pinType {w : Word} {i : Instr} (op : slice w 12 4 = 4) (decoded : decode w = .ok i) :
    Encodes i w := by
  simp only [decode, op, Except.ok.injEq] at decoded
  subst decoded
  exact encodes_of_fields op (fun hp ht => by simp [Instr.WellFormed, Instr.wellFormed, hp, ht]) rfl

/-- Format N: the twelve bits below `op` are zero. -/
theorem encodes_of_decode_noOperand {w : Word} {i : Instr} (h : slice w 12 4 = 9 ∨ slice w 12 4 = 0xA)
    (decoded : decode w = .ok i) : Encodes i w := by
  have split : slice w 0 12 = 0x100 * slice w 8 4 + slice w 0 8 := by simp only [slice]; omega
  rcases h with op | op <;> simp only [decode, op, whenZero_eq_ok] at decoded <;>
    obtain ⟨zero, rfl⟩ := decoded <;>
    exact encodes_of_fields op (fun _ _ => rfl)
      (by rw [show slice w 8 4 = 0 by omega, show slice w 0 8 = 0 by omega]; rfl)

/-- Format S: `arg` names the command. -/
theorem encodes_of_decode_system {w : Word} {i : Instr} (op : slice w 12 4 = 0xF) (decoded : decode w = .ok i) :
    Encodes i w := by
  simp only [decode, op, decodeSystem] at decoded
  split at decoded
  case h_7 => cases decoded
  all_goals
    rename_i sub
    obtain ⟨zero, rfl⟩ := whenZero_eq_ok.1 decoded
    exact encodes_of_fields op (fun _ _ => rfl) (by rw [sub, zero]; rfl)

theorem encodes_of_decode {w : Word} {i : Instr} (decoded : decode w = .ok i) : Encodes i w := by
  rcases op_formats w with pin | pinValue | pinType | noOperand | reserved | system
  · exact encodes_of_decode_pin pin decoded
  · exact encodes_of_decode_pinValue pinValue decoded
  · exact encodes_of_decode_pinType pinType decoded
  · exact encodes_of_decode_noOperand noOperand decoded
  · obtain ⟨e, rejected⟩ := rejects_decode_reserved reserved
    exact absurd (decoded.symm.trans rejected) nofun
  · exact encodes_of_decode_system system decoded

/-- Settles O2: format by format, what the decoder reads from the fields fills them again. -/
theorem encodeOfDecode : Obligations.EncodeOfDecode := fun _ _ decoded => encodes_of_decode decoded

/-! ## Decoding and the rows of the table -/

theorem inRow_encode {i : Instr} (wf : i.WellFormed) : inRow (tableRow i) (encode i) := by
  cases i with
  | dirin p => exact Laws.EncodeInRow.dirin p wf
  | dirout p v => exact Laws.EncodeInRow.dirout p v wf
  | get p => exact Laws.EncodeInRow.get p wf
  | set p v => exact Laws.EncodeInRow.set p v wf
  | settype p t => exact Laws.EncodeInRow.settype p t wf
  | irqen p => exact Laws.EncodeInRow.irqen p wf
  | irqdis p => exact Laws.EncodeInRow.irqdis p wf
  | ack p => exact Laws.EncodeInRow.ack p wf
  | setwake p v => exact Laws.EncodeInRow.setwake p v wf
  | disall => exact Laws.EncodeInRow.disall wf
  | dispatch => exact Laws.EncodeInRow.dispatch wf
  | attach => exact Laws.EncodeInRow.attach wf
  | detach => exact Laws.EncodeInRow.detach wf
  | pmsuspend => exact Laws.EncodeInRow.pmsuspend wf
  | pmsuspendnoirq => exact Laws.EncodeInRow.pmsuspendnoirq wf
  | pmresumenoirq => exact Laws.EncodeInRow.pmresumenoirq wf
  | pmresume => exact Laws.EncodeInRow.pmresume wf

/-- The table has the row of every command and no other. -/
theorem mem_opcodeTable {r : TableRow} : r ∈ opcodeTable ↔ ∃ i, r = tableRow i := by
  constructor
  · intro h
    simp only [opcodeTable, List.cons_append, List.nil_append, List.mem_cons, List.not_mem_nil, or_false] at h
    rcases h with h | h | h | h | h | h | h | h | h | h | h | h | h | h | h | h | h <;> exact ⟨_, h⟩
  · rintro ⟨i, rfl⟩
    cases i <;> simp [opcodeTable, tableRow]

/-- R107: a word in a row decodes, to a command of that row. -/
theorem decode_of_inRow {w : Word} {i : Instr} (h : inRow (tableRow i) w) :
    ∃ j, decode w = .ok j ∧ tableRow j = tableRow i := by
  have fields := (inRow_tableRow_iff w i).1 h
  cases i with
  | dirin | get | irqen | irqdis | ack =>
    obtain ⟨op, noArg⟩ := fields
    simp only [decode, op, noArg, whenZero, if_true]
    exact ⟨_, rfl, rfl⟩
  | dirout | set | setwake =>
    obtain ⟨op, noArg⟩ := fields
    simp only [decode, op, withValue, (arg_lt_two_iff w).2 noArg, if_true]
    exact ⟨_, rfl, rfl⟩
  | settype =>
    have op : slice w 12 4 = 4 := fields
    simp only [decode, op]
    exact ⟨_, rfl, rfl⟩
  | disall | dispatch =>
    obtain ⟨op, zero⟩ := fields
    simp only [decode, op, zero, whenZero, if_true]
    exact ⟨_, rfl, rfl⟩
  | attach | detach | pmsuspend | pmsuspendnoirq | pmresumenoirq | pmresume =>
    obtain ⟨op, sub, zero⟩ := fields
    simp only [decode, op, sub, zero, decodeSystem, whenZero, if_true]
    exact ⟨_, rfl, rfl⟩

/-- R107: the command a word decodes to is the row's. -/
theorem inRow_of_decode {w : Word} {i : Instr} (decoded : decode w = .ok i) : inRow (tableRow i) w := by
  obtain ⟨wf, rfl⟩ := encodes_of_decode decoded
  exact inRow_encode wf

/-- Settles O3: rows that share a word have the row of the one command it decodes to. -/
theorem legalWordsMatchOneRow : Obligations.LegalWordsMatchOneRow := by
  intro w
  refine ⟨⟨fun ⟨i, decoded⟩ => ⟨_, mem_opcodeTable.2 ⟨i, rfl⟩, inRow_of_decode decoded⟩, fun ⟨r, inTable, inR⟩ => ?_⟩,
    fun i => inRow_of_decode, fun q hq r hr inQ inR => ?_⟩
  · obtain ⟨i, rfl⟩ := mem_opcodeTable.1 inTable
    obtain ⟨j, decoded, -⟩ := decode_of_inRow inR
    exact ⟨j, decoded⟩
  · obtain ⟨i, rfl⟩ := mem_opcodeTable.1 hq
    obtain ⟨j, rfl⟩ := mem_opcodeTable.1 hr
    obtain ⟨k, decodesK, rowK⟩ := decode_of_inRow inQ
    obtain ⟨l, decodesL, rowL⟩ := decode_of_inRow inR
    obtain rfl : k = l := Except.ok.inj (decodesK.symm.trans decodesL)
    exact rowK.symm.trans rowL

/-- Settles O5: the words of V-ENC, each evaluated by the decoder. -/
theorem listedWordsDecode : Obligations.ListedWordsDecode := by
  unfold Obligations.ListedWordsDecode
  decide

end Sys2Proof.Proofs
end

section
/-! Steps (10_state.md R43, R50, 20_memory.md R73): what one step carries out, and that it keeps the invariant of
`Safety.lean`, the configuration, `FATAL` and the history. -/

namespace Sys2Proof.Proofs
open Sys2Proof Sys2Proof.Machine

/-! ## The three ways of a step -/

theorem step_empty {s : State} (wf : ConfigWF s.cfg) (h : s.port = []) : step s = window s := by
  rw [step, if_pos wf, h]

theorem step_busy {s : State} (wf : ConfigWF s.cfg) {r : Request} {rest : List Request} (h : s.port = r :: rest)
    (busy : ctxBusy s r.ctx = true) : step s = window s := by
  rw [step, if_pos wf, h]
  exact if_pos busy

theorem step_runs {s : State} (wf : ConfigWF s.cfg) {r : Request} {rest : List Request} (h : s.port = r :: rest)
    (idle : ctxBusy s r.ctx = false) : step s = andThen (runRequest r (loadRequest r rest s)) window := by
  rw [step, if_pos wf, h]
  exact if_neg (by simp [idle])

theorem runRequest_of_decoded {r : Request} {i : Instr} (h : decode r.word = .ok i) (s : State) :
    runRequest r s = exec i s := by
  rw [runRequest, h]

/-- Settles O7: the three ways of a step, and the two answers of the decoder. -/
theorem stepRunsTheDecodedCommand : Obligations.StepRunsTheDecodedCommand := by
  refine ⟨fun s r rest wf atPort idle => ⟨step_runs wf atPort idle, fun i decoded => ?_, fun e illegal => ?_, rfl⟩,
    fun s r rest wf atPort busy => step_busy wf atPort busy, fun s wf noPort => step_empty wf noPort⟩
  · rw [step_runs wf atPort idle, runRequest_of_decoded decoded]
  · rw [step_runs wf atPort idle, runRequest_of_illegal illegal, andThen_next]

/-- Settles O9: `N_CTX ≥ 1` is a conjunct of `ConfigWF`. -/
theorem configurationWithoutContextIsRefused : Obligations.ConfigurationWithoutContextIsRefused := by
  intro s noContext
  apply step_of_not_configWF
  rintro ⟨-, -, -, someContext⟩
  omega

/-- What a step is made of, for a property of its outcome: the window alone, an illegal word or a command. -/
theorem step_induction {P : Res State → Prop} {s : State} (wf : ConfigWF s.cfg) (alone : P (window s))
    (illegal : ∀ (r : Request) (rest : List Request),
      P (window (respond r.ctx .illegalCommand false (loadRequest r rest s))))
    (command : ∀ (r : Request) (rest : List Request) (i : Instr), P (andThen (exec i (loadRequest r rest s)) window)) :
    P (step s) := by
  cases atPort : s.port with
  | nil => rw [step_empty wf atPort]; exact alone
  | cons r rest =>
    cases busy : ctxBusy s r.ctx with
    | true => rw [step_busy wf atPort busy]; exact alone
    | false =>
      rw [step_runs wf atPort busy]
      cases decoded : decode r.word with
      | error e => rw [runRequest_of_illegal decoded, andThen_next]; exact illegal r rest
      | ok i => rw [runRequest_of_decoded decoded]; exact command r rest i

/-! ## Reset -/

/-- Settles O10: each component as `State.reset` gives it. -/
theorem resetControlState : Obligations.ResetControlState :=
  ⟨rfl, rfl, rfl, rfl, rfl, rfl, rfl, rfl, rfl⟩

/-- Settles O11: the scenario's configuration is well formed; nothing is marked, stored or in flight. -/
theorem resetMeetsInv : Obligations.ResetMeetsInv := by
  have wf : ConfigWF State.reset.cfg := by decide
  refine ⟨wf, ⟨List.Pairwise.nil, nofun⟩, rfl, rfl, fun p marked => ?_, nofun, ⟨rfl, rfl, nofun⟩, nofun⟩
  simp [State.reset] at marked

/-! ## The invariant -/

/-- Between two steps the invariant is the one that holds inside a step, with no command being carried out. -/
theorem stateInv_iff {s : State} : StateInv s ↔ Steady s ∧ s.running = none := by
  constructor
  · rintro ⟨wf, canonical, lockFree, idle, wake, pieces, agrees, dispatch⟩
    have flights : allFlights s = s.inflight := by rw [allFlights, idle]; rfl
    exact ⟨⟨wf, canonical, lockFree, wake, flights ▸ pieces, agrees, dispatch⟩, idle⟩
  · rintro ⟨⟨wf, canonical, lockFree, wake, pieces, agrees, dispatch⟩, idle⟩
    have flights : allFlights s = s.inflight := by rw [allFlights, idle]; rfl
    exact ⟨wf, canonical, lockFree, idle, wake, flights ▸ pieces, agrees, dispatch⟩

/-- A step ends in the invariant, or in one of the two faults of R219 and R223. -/
def EndsWell (o : Res State) : Prop :=
  (∃ t, o = .next t ∧ StateInv t) ∨ o = .fault .undefinedByContract ∨ o = .fault .dispatchHasNoStep

theorem EndsWell.of_nextOrContract {o : Res State} (h : NextOrContract o fun t => Steady t ∧ t.running = none) :
    EndsWell o := by
  rcases h with ⟨t, rfl, inv⟩ | rfl
  · exact .inl ⟨t, rfl, stateInv_iff.2 inv⟩
  · exact .inr (.inl rfl)

theorem EndsWell.andThen {o : Res State} (h : EndsWell o) {f : State → Res State}
    (g : ∀ t, StateInv t → EndsWell (f t)) : EndsWell (Machine.andThen o f) := by
  rcases h with ⟨t, rfl, inv⟩ | rfl | rfl
  · exact g t inv
  · exact .inr (.inl rfl)
  · exact .inr (.inr rfl)

theorem window_endsWell {s : State} (inv : StateInv s) : EndsWell (window s) := by
  obtain ⟨steady, idle⟩ := stateInv_iff.1 inv
  refine .of_nextOrContract ?_
  simpa only [idle] using window_steady steady

/-- A command from its beginning to its response, whatever the others do in its windows. -/
theorem carryOut_endsWell {s : State} (inv : StateInv s) (i : Instr) (c : Ctx) (hs : Handshake) :
    EndsWell (carryOut c (beginInstr i c hs s)) := by
  obtain ⟨steady, idle⟩ := stateInv_iff.1 inv
  rcases beginInstr_steady steady i c hs with
    (⟨t, begins, steady', running, -, -⟩ | ⟨todo, t, begins, nonempty, -, inflight, -, counted⟩ | begins) | ⟨-, -, -, begins⟩
  · rw [begins]
    exact .inl ⟨t, rfl, stateInv_iff.2 ⟨steady', running.trans idle⟩⟩
  · rw [begins, carryOut_started]
    refine .of_nextOrContract (runPieces_steady c todo false ?_)
    rw [if_neg nonempty]
    refine counted _ rfl (.inr ?_)
    simp [allFlights, idle, inflight]
  · rw [begins]; exact .inr (.inl rfl)
  · rw [begins]; exact .inr (.inr rfl)

theorem stateInv_loadRequest {s : State} (inv : StateInv s) (r : Request) (rest : List Request) :
    StateInv (loadRequest r rest s) := inv

theorem stateInv_respond {s : State} (inv : StateInv s) (c : Ctx) (st : Status) (d : Bool) :
    StateInv (respond c st d s) := inv

theorem step_endsWell {s : State} (inv : StateInv s) : EndsWell (step s) := by
  refine step_induction inv.1 (window_endsWell inv) (fun r rest => ?_) fun r rest i => ?_
  · exact window_endsWell (stateInv_respond (stateInv_loadRequest inv r rest) _ _ _)
  · rw [exec_eq_carryOut]
    exact (carryOut_endsWell (stateInv_loadRequest inv r rest) i _ _).andThen fun _ => window_endsWell

/-- Settles O12: every piece of a step, of the command at the port and of the others, keeps what holds inside a step. -/
theorem everyStepKeepsInv : Obligations.EveryStepKeepsInv := by
  intro s t inv stepped
  rcases step_endsWell inv with ⟨u, ends, inv'⟩ | ends | ends <;> rw [stepped] at ends
  · cases ends; exact inv'
  · cases ends
  · cases ends

/-- Settles O13: the three ends of a step leave no refusal and no third fault. -/
theorem stepsFromInvAreNeverRefused : Obligations.StepsFromInvAreNeverRefused := by
  intro s inv
  rcases step_endsWell inv with ⟨u, ends, -⟩ | ends | ends <;> rw [ends]
  · exact ⟨nofun, nofun⟩
  · exact ⟨nofun, fun f same => .inl (Host.Outcome.fault.inj same).symm⟩
  · exact ⟨nofun, fun f same => .inr (Host.Outcome.fault.inj same).symm⟩

/-! ## The configuration, `FATAL` and the history -/

/-- Where a part of a step answers a next state, nothing was undone. -/
def OnlyGrows (s : State) (o : Res State) : Prop := ∀ t, o = .next t → Grows s t

theorem exec_grows {i : Instr} {s t : State} (h : exec i s = .next t) : Grows s t := by
  rw [exec_eq_carryOut] at h
  obtain ⟨b, begins, runs⟩ := andThen_eq_next.1 h
  rcases beginInstr_grows begins with ⟨u, rfl, grows⟩ | ⟨todo, u, rfl, grows⟩
  · cases runs; exact grows
  · exact grows.trans (runPieces_grows runs)

theorem loadRequest_grows (r : Request) (rest : List Request) (s : State) : Grows s (loadRequest r rest s) :=
  ⟨rfl, id, [_], rfl⟩

theorem respond_grows (c : Ctx) (st : Status) (d : Bool) (s : State) : Grows s (respond c st d s) :=
  ⟨rfl, id, [_], rfl⟩

/-- Settles O14: command and windows only grow the history, and a step outside `ConfigWF` has no next state. -/
theorem stepKeepsConfigFatalAndHistory : Obligations.StepKeepsConfigFatalAndHistory := by
  intro s t stepped
  have wf : ConfigWF s.cfg := by
    by_contra illFormed
    rw [step_of_not_configWF illFormed] at stepped
    cases stepped
  have grows : OnlyGrows s (step s) := by
    refine step_induction wf (fun t h => window_grows h) (fun r rest t h => ?_) fun r rest i t h => ?_
    · exact ((loadRequest_grows r rest s).trans (respond_grows _ _ _ _)).trans (window_grows h)
    · obtain ⟨u, runs, afterwards⟩ := andThen_eq_next.1 h
      exact ((loadRequest_grows r rest s).trans (exec_grows runs)).trans (window_grows afterwards)
  exact grows t stepped

end Sys2Proof.Proofs
end

section
/-! Atomic blocks (20_memory.md R74): a piece of a command and the same piece in a state that differs only in what is
around it (the other contexts' commands and moves, the request of the step) run alike, access by access. -/

namespace Sys2Proof.Proofs
open Sys2Proof Sys2Proof.Machine

/-! ## Outcomes alike -/

/-- The two parts of a step end in the same way, in related results. -/
inductive Alike {α : Type} (R : α → α → Prop) : Res α → Res α → Prop
  | next {x y : α} (h : R x y) : Alike R (.next x) (.next y)
  | fault (f : Fault) : Alike R (.fault f) (.fault f)
  | refused (r : Refusal) : Alike R (.refused r) (.refused r)

namespace Alike

variable {α β : Type} {R : α → α → Prop} {Q : β → β → Prop} {o o' : Res α}

theorem andThen (h : Alike R o o') {f f' : α → Res β} (g : ∀ x y, R x y → Alike Q (f x) (f' y)) :
    Alike Q (Machine.andThen o f) (Machine.andThen o' f') := by
  cases h with
  | next h => exact g _ _ h
  | fault f => exact .fault f
  | refused r => exact .refused r

theorem ite {P : Prop} [Decidable P] {q q' : Res α} (h : Alike R o o') (g : Alike R q q') :
    Alike R (if P then o else q) (if P then o' else q') := by
  split
  exacts [h, g]

theorem of_next {x : α} (h : Alike R o o') (ends : o = .next x) : ∃ y, o' = .next y ∧ R x y := by
  subst ends
  cases h with
  | next h => exact ⟨_, rfl, h⟩

end Alike

/-! ## The state around a command -/

/-- The state with other commands in flight, another request of the step and other windows to come. -/
def recast (f : Option Flight) (l : List Flight) (c : Ctx) (h : Handshake) (w : List (List Move)) (s : State) : State :=
  { s with running := f, inflight := l, ctx := c, hs := h, windows := w }

/-- The environment's moves in the windows to come (R74: inside a block no others count). -/
def envWindows (s : State) : List (List Move) := s.windows.map fun ms => ms.filter envMove

theorem envMoves_filter (ms : List Move) (s : State) : envMoves (ms.filter envMove) s = envMoves ms s := by
  induction ms generalizing s with
  | nil => rfl
  | cons m ms ih =>
    cases m with
    | env e => exact ih (envStep e s)
    | start r => exact ih s
    | advance c => exact ih s

theorem writeReg_recast (f : Option Flight) (l : List Flight) (c : Ctx) (h : Handshake) (w : List (List Move))
    (s : State) (r : Reg) (v : Byte) : writeReg (recast f l c h w s) r v = recast f l c h w (writeReg s r v) := by
  rw [writeReg_eq_store, writeReg_eq_store, writtenByte_congr (t := recast f l c h w s) (s := s) rfl rfl]
  rfl

theorem storeAll_recast (f : Option Flight) (l : List Flight) (c : Ctx) (h : Handshake) (w : List (List Move))
    (v : Reg → Byte) (rs : List Reg) (s : State) :
    storeAll v rs (recast f l c h w s) = recast f l c h w (storeAll v rs s) := by
  induction rs generalizing s with
  | nil => rfl
  | cons r rs ih => exact ih (store s r (v r))

theorem setPending_of_le {s : State} {p : Nat} (hp : s.cfg.pinCount ≤ p) : setPending p s = s := by
  obtain ⟨-, -, -, -, noReg, -⟩ := bank_of_le hp .sts
  simp [setPending, noReg]

theorem setPending_recast (f : Option Flight) (l : List Flight) (c : Ctx) (h : Handshake) (w : List (List Move))
    (p : Nat) (s : State) : setPending p (recast f l c h w s) = recast f l c h w (setPending p s) := by
  by_cases hp : p < s.cfg.pinCount
  · rw [setPending_of_lt hp, setPending_of_lt (s := recast f l c h w s) hp]
    rfl
  · rw [setPending_of_le (Nat.le_of_not_lt hp), setPending_of_le (s := recast f l c h w s) (Nat.le_of_not_lt hp)]

/-- The environment's steps do not look at what is around the command, but for the commands in flight (R190). -/
theorem envStep_recast (e : EnvStep) (c : Ctx) (h : Handshake) (w : List (List Move)) (s : State) :
    envStep e (recast s.running s.inflight c h w s) = recast s.running s.inflight c h w (envStep e s) := by
  have sameEnabled : envEnabled (recast s.running s.inflight c h w s) e = envEnabled s e := by cases e <;> rfl
  rw [envStep, envStep, sameEnabled]
  split
  · cases e with
    | pad p v => rfl
    | edge p e =>
      have sameBit : pinBit? (recast s.running s.inflight c h w s) (triggerKind e) p = pinBit? s (triggerKind e) p := rfl
      simp only [envEffect, sameBit]
      split
      · rw [setPending_recast]; rfl
      · rfl
    | regWrite off v =>
      have sameReg : locate (recast s.running s.inflight c h w s).cfg off = locate s.cfg off := rfl
      simp only [envEffect, sameReg]
      split
      · rw [writeReg_recast]; rfl
      · rfl
    | powerLoss draw =>
      have sameRegs : coreRegs (recast s.running s.inflight c h w s).cfg = coreRegs s.cfg := rfl
      simp only [envEffect, loseCore_eq_storeAll, sameRegs, storeAll_recast]
      rfl
  · rfl

theorem envMoves_recast (ms : List Move) (c : Ctx) (h : Handshake) (w : List (List Move)) (s : State) :
    envMoves ms (recast s.running s.inflight c h w s) = recast s.running s.inflight c h w (envMoves ms s) := by
  induction ms generalizing s with
  | nil => rfl
  | cons m ms ih =>
    cases m with
    | env e =>
      have frame := AccessFrame.envStep e s
      have later := ih (envStep e s)
      rw [frame.running, frame.inflight] at later
      rw [envMoves, envStep_recast]
      exact later
    | start r => exact ih s
    | advance d => exact ih s

/-! ## A run and its mirror -/

/-- `s'` is what `s` is with other surroundings and the environment's moves alone; since `s₀` windows were only used up
and no other context's events than those of `c` happened. Power losses look at the commands in flight, which are the
same unless no window is to come. -/
structure Mirrors (c : Ctx) (s₀ s s' : State) : Prop where
  eq : s' = recast s'.running s'.inflight s'.ctx s'.hs (envWindows s) s
  flights : s.windows = [] ∨ (s'.running = s.running ∧ s'.inflight = s.inflight)
  ahead : s.windows <:+ s₀.windows
  log : ∃ l, s.log = s₀.log ++ l ∧ ∀ e ∈ l, eventOf c e = true

namespace Mirrors

variable {c : Ctx} {s₀ s s' : State}

theorem cfg (h : Mirrors c s₀ s s') : s'.cfg = s.cfg := by rw [h.eq]; rfl
theorem mem (h : Mirrors c s₀ s s') : s'.mem = s.mem := by rw [h.eq]; rfl
theorem padin (h : Mirrors c s₀ s s') : s'.padin = s.padin := by rw [h.eq]; rfl
theorem lock (h : Mirrors c s₀ s s') : s'.lock = s.lock := by rw [h.eq]; rfl
theorem handled (h : Mirrors c s₀ s s') : s'.handled = s.handled := by rw [h.eq]; rfl
theorem snap (h : Mirrors c s₀ s s') : s'.snap = s.snap := by rw [h.eq]; rfl
theorem readReg (h : Mirrors c s₀ s s') (r : Reg) : readReg s' r = Machine.readReg s r :=
  readReg_congr h.mem h.padin h.cfg r

/-- A change that neither looks at the surroundings nor moves them, with its events. -/
theorem map (h : Mirrors c s₀ s s') {g : State → State} (es : List Event) (own : ∀ e ∈ es, eventOf c e = true)
    (log : (g s).log = s.log ++ es)
    (keeps : (g s).running = s.running ∧ (g s).inflight = s.inflight ∧ (g s).windows = s.windows)
    (commutes : ∀ f l d hs w, g (recast f l d hs w s) = recast f l d hs w (g s)) : Mirrors c s₀ (g s) (g s') := by
  obtain ⟨running, inflight, windows⟩ := keeps
  obtain ⟨l, hl, owned⟩ := h.log
  have eq : g s' = recast s'.running s'.inflight s'.ctx s'.hs (envWindows s) (g s) := by
    rw [← commutes, ← h.eq]
  refine ⟨?_, ?_, windows.symm ▸ h.ahead, l ++ es, by rw [log, hl, List.append_assoc],
    fun e he => (List.mem_append.1 he).elim (owned e) (own e)⟩
  · rw [eq, envWindows, envWindows, windows]
    rfl
  · rw [windows, running, inflight, eq]
    exact h.flights

theorem silent (h : Mirrors c s₀ s s') {g : State → State} (log : (g s).log = s.log)
    (keeps : (g s).running = s.running ∧ (g s).inflight = s.inflight ∧ (g s).windows = s.windows)
    (commutes : ∀ f l d hs w, g (recast f l d hs w s) = recast f l d hs w (g s)) : Mirrors c s₀ (g s) (g s') :=
  h.map (g := g) [] (fun _ he => absurd he List.not_mem_nil) (log.trans (List.append_nil _).symm) keeps commutes

theorem record (h : Mirrors c s₀ s s') {e : Event} (own : eventOf c e = true) :
    Mirrors c s₀ (Machine.record e s) (Machine.record e s') :=
  h.map [e] (by simpa using own) rfl ⟨rfl, rfl, rfl⟩ fun _ _ _ _ _ => rfl

theorem withLock (h : Mirrors c s₀ s s') (k : Lock) : Mirrors c s₀ { s with lock := k } { s' with lock := k } :=
  h.silent (g := fun s => { s with lock := k }) rfl ⟨rfl, rfl, rfl⟩ fun _ _ _ _ _ => rfl

theorem writeReg (h : Mirrors c s₀ s s') (r : Reg) (v : Byte) :
    Mirrors c s₀ (Machine.writeReg s r v) (Machine.writeReg s' r v) :=
  h.silent (g := fun s => Machine.writeReg s r v) (by rw [writeReg_eq_store]; rfl)
    (by rw [writeReg_eq_store]; exact ⟨rfl, rfl, rfl⟩) fun _ _ _ _ _ => writeReg_recast _ _ _ _ _ _ _ _

theorem setSnapByte (h : Mirrors c s₀ s s') (b : Saved × Nat) (v : Byte) :
    Mirrors c s₀ (Machine.setSnapByte b v s) (Machine.setSnapByte b v s') :=
  h.silent rfl ⟨rfl, rfl, rfl⟩ fun _ _ _ _ _ => rfl

theorem respond (h : Mirrors c s₀ s s') (st : Status) (d : Bool) :
    Mirrors c s₀ (Machine.respond c st d s) (Machine.respond c st d s') :=
  h.map [.response c (respByte st d)] (by simp [eventOf]) rfl ⟨rfl, rfl, rfl⟩ fun _ _ _ _ _ => rfl

end Mirrors

/-! ## The environment in the mirror -/

theorem envEffect_log (s : State) (e : EnvStep) : (envEffect s e).log = s.log := by
  cases e with
  | pad p v => rfl
  | edge p e =>
    simp only [envEffect]
    split
    · rw [setPending_frame]
    · rfl
  | regWrite off v =>
    simp only [envEffect]
    split
    · rw [writeReg_eq_store]; rfl
    · rfl
  | powerLoss draw =>
    simp only [envEffect, loseCore_eq_storeAll]
    rw [storeAll_frame]

/-- The environment's events are no context's. -/
theorem envStep_events (c : Ctx) (e : EnvStep) (s : State) :
    ∃ l, (envStep e s).log = s.log ++ l ∧ ∀ x ∈ l, eventOf c x = true := by
  rw [envStep]
  split
  · exact ⟨[.env e], by rw [record_log, envEffect_log], by simp [eventOf]⟩
  · exact ⟨[], by simp, by simp⟩

theorem envMoves_events (c : Ctx) (ms : List Move) (s : State) :
    ∃ l, (envMoves ms s).log = s.log ++ l ∧ ∀ x ∈ l, eventOf c x = true := by
  induction ms generalizing s with
  | nil => exact ⟨[], by simp [envMoves], by simp⟩
  | cons m ms ih =>
    cases m with
    | env e =>
      obtain ⟨l, first, ownFirst⟩ := envStep_events c e s
      obtain ⟨k, later, ownLater⟩ := ih (envStep e s)
      exact ⟨l ++ k, by rw [envMoves, later, first, List.append_assoc],
        fun x hx => (List.mem_append.1 hx).elim (ownFirst x) (ownLater x)⟩
    | start r => exact ih s
    | advance d => exact ih s

namespace Mirrors

variable {c : Ctx} {s₀ s s' : State}

/-- The window before an access: other contexts' moves in it have no effect in `s` and are not there in `s'`. -/
theorem envWindow (h : Mirrors c s₀ s s') : Mirrors c s₀ (Machine.envWindow s) (Machine.envWindow s') := by
  cases windows : s.windows with
  | nil =>
    have windows' : s'.windows = [] := by rw [h.eq]; simp [recast, envWindows, windows]
    rw [envWindow_quiet windows, envWindow_quiet windows']
    exact h
  | cons ms rest =>
    obtain ⟨running, inflight⟩ : s'.running = s.running ∧ s'.inflight = s.inflight :=
      h.flights.resolve_left (by simp [windows])
    have windows' : s'.windows = ms.filter envMove :: rest.map fun ms => ms.filter envMove := by
      rw [h.eq]; simp [recast, envWindows, windows]
    have next' : { s' with windows := rest.map fun ms => ms.filter envMove } =
        recast { s with windows := rest }.running { s with windows := rest }.inflight s'.ctx s'.hs
          (rest.map fun ms => ms.filter envMove) { s with windows := rest } := by
      rw [h.eq]; simp [recast, running, inflight]
    have frame := envMoves_frame ms { s with windows := rest }
    obtain ⟨l, hl, own⟩ := h.log
    obtain ⟨k, hk, ownK⟩ := envMoves_events c ms { s with windows := rest }
    rw [envWindow_of_cons windows, envWindow_of_cons windows', envMoves_filter, next', envMoves_recast]
    have usedUp : rest <:+ s₀.windows := (List.suffix_cons ms rest).trans (windows ▸ h.ahead)
    refine ⟨?_, .inr ?_, by rw [frame]; exact usedUp, l ++ k, by rw [hk, ← List.append_assoc, ← hl],
      fun x hx => (List.mem_append.1 hx).elim (own x) (ownK x)⟩
    · rw [frame]; rfl
    · rw [frame]; exact ⟨rfl, rfl⟩

end Mirrors

/-! ## Accesses and pieces in the mirror -/

/-- Two parts of a block run alike: they hand on the same value and leave mirrored states. -/
def MirrorRuns {α : Type} (c : Ctx) (s₀ : State) (o o' : Res (α × State)) : Prop :=
  Alike (fun x x' => x'.1 = x.1 ∧ Mirrors c s₀ x.2 x'.2) o o'

section
variable {c : Ctx} {s₀ s s' : State}

theorem regRead_mirrors (h : Mirrors c s₀ s s') (off : Nat) :
    MirrorRuns c s₀ (regRead c off s) (regRead c off s') := by
  rw [regRead, regRead, h.cfg]
  split
  · exact .refused _
  · have before := h.envWindow
    refine .next ⟨before.readReg _, ?_⟩
    rw [before.readReg]
    exact before.record (by simp [eventOf])

theorem regWrite_mirrors (h : Mirrors c s₀ s s') (off : Nat) (v : Byte) :
    Alike (Mirrors c s₀) (regWrite c off v s) (regWrite c off v s') := by
  rw [regWrite, regWrite, h.cfg]
  split
  · exact .refused _
  · exact .next ((h.envWindow.writeReg _ v).record (by simp [eventOf]))

theorem withPin_alike {α : Type} {R : α → α → Prop} (cfg : Config) (p : Nat) (k : Kind) {f f' : Nat → Nat → Res α}
    (h : ∀ off j, Alike R (f off j) (f' off j)) : Alike R (withPin cfg p k f) (withPin cfg p k f') := by
  rw [withPin, withPin]
  split
  · exact h _ _
  · exact .refused _

theorem bitRmw_mirrors (h : Mirrors c s₀ s s') (op : BitOp) :
    Alike (Mirrors c s₀) (bitRmw c op s) (bitRmw c op s') := by
  rw [bitRmw, bitRmw, h.cfg]
  refine withPin_alike _ _ _ fun off j => (regRead_mirrors h off).andThen fun x x' ⟨same, after⟩ => ?_
  rw [same]
  exact regWrite_mirrors after _ _

theorem bitRmws_mirrors (h : Mirrors c s₀ s s') (ops : List BitOp) :
    Alike (Mirrors c s₀) (bitRmws c ops s) (bitRmws c ops s') := by
  induction ops generalizing s s' with
  | nil => exact .next h
  | cons op ops ih => exact (bitRmw_mirrors h op).andThen fun _ _ => ih

theorem bitTest_mirrors (h : Mirrors c s₀ s s') (p : Nat) (k : Kind) :
    MirrorRuns c s₀ (bitTest c p k s) (bitTest c p k s') := by
  rw [bitTest, bitTest, h.cfg]
  refine withPin_alike _ _ _ fun off j => (regRead_mirrors h off).andThen fun x x' ⟨same, after⟩ => ?_
  rw [same]
  exact .next ⟨rfl, after⟩

theorem ackWrite_mirrors (h : Mirrors c s₀ s s') (p : Nat) :
    Alike (Mirrors c s₀) (ackWrite c p s) (ackWrite c p s') := by
  rw [ackWrite, ackWrite, h.cfg]
  exact withPin_alike _ _ _ fun off j => regWrite_mirrors h _ _

theorem writeAll_mirrors (h : Mirrors c s₀ s s') (ws : List (Nat × Byte)) :
    Alike (Mirrors c s₀) (writeAll c ws s) (writeAll c ws s') := by
  induction ws generalizing s s' with
  | nil => exact .next h
  | cons w ws ih => exact (regWrite_mirrors h w.1 w.2).andThen fun _ _ => ih

theorem captureAll_mirrors (h : Mirrors c s₀ s s') (bs : List (Saved × Nat)) :
    Alike (Mirrors c s₀) (captureAll c bs s) (captureAll c bs s') := by
  induction bs generalizing s s' with
  | nil => exact .next h
  | cons b bs ih =>
    rw [captureAll, captureAll, h.cfg]
    refine (regRead_mirrors h _).andThen fun x x' ⟨same, after⟩ => ?_
    rw [same]
    exact ih (after.setSnapByte b x.1)

theorem atomic_mirrors {α : Type} (h : Mirrors c s₀ s s') {body body' : State → Res (α × State)}
    (inside : ∀ t t', Mirrors c s₀ t t' → MirrorRuns c s₀ (body t) (body' t')) :
    MirrorRuns c s₀ (atomic c body s) (atomic c body' s') := by
  rw [atomic, atomic, h.lock]
  exact .ite ((inside _ _ (h.withLock (.held c))).andThen fun x x' ⟨same, after⟩ => .next ⟨same, after.withLock .free⟩)
    (.fault _)

theorem atomicDo_mirrors (h : Mirrors c s₀ s s') (bit : Bool) {body body' : State → Res State}
    (inside : ∀ t t', Mirrors c s₀ t t' → Alike (Mirrors c s₀) (body t) (body' t')) :
    MirrorRuns c s₀ (atomicDo c bit body s) (atomicDo c bit body' s') :=
  atomic_mirrors h fun t t' between => (inside t t' between).andThen fun _ _ after => .next ⟨rfl, after⟩

theorem restoreWrites_congr {t t' : State} (cfg : t'.cfg = t.cfg) (snap : t'.snap = t.snap) :
    restoreWrites t' = restoreWrites t := by
  simp only [restoreWrites, snapByte, cfg, snap]

/-- A piece of a command does the same whatever is around it (R74, R233). -/
theorem doAction_mirrors (h : Mirrors c s₀ s s') (a : Action) (bit : Bool) :
    MirrorRuns c s₀ (doAction c a bit s) (doAction c a bit s') := by
  cases a with
  | rmw ops => exact atomicDo_mirrors h bit fun _ _ between => bitRmws_mirrors between ops
  | test p => exact atomic_mirrors h fun _ _ between => bitTest_mirrors between p .lvl
  | ack p => exact atomicDo_mirrors h bit fun _ _ between => ackWrite_mirrors between p
  | wake p on =>
    refine atomicDo_mirrors h bit fun _ _ between => .next ?_
    exact between.silent (g := fun s => if on then wakeSet p s else wakeClear p s) (by cases on <;> rfl)
      (by cases on <;> exact ⟨rfl, rfl, rfl⟩) (by cases on <;> exact fun _ _ _ _ _ => rfl)
  | disableAll =>
    refine atomicDo_mirrors h bit fun t t' between => ?_
    rw [between.cfg]
    exact writeAll_mirrors between _
  | capture =>
    refine atomicDo_mirrors h bit fun t t' between => ?_
    rw [between.cfg]
    exact captureAll_mirrors between _
  | restore =>
    refine atomicDo_mirrors h bit fun t t' between => ?_
    rw [restoreWrites_congr between.cfg between.snap]
    exact writeAll_mirrors between _
  | probe p =>
    exact atomic_mirrors (h.silent (g := fun s => { s with scan := p }) rfl ⟨rfl, rfl, rfl⟩ fun _ _ _ _ _ => rfl)
      fun _ _ between => bitTest_mirrors between p .sts
  | serve p =>
    exact .ite (atomicDo_mirrors h bit fun _ _ between => ackWrite_mirrors between p) (.next ⟨rfl, h⟩)
  | notify p =>
    refine .next ⟨rfl, ?_⟩
    cases bit with
    | false => exact h.silent (g := fun s => { s with scan := p + 1 }) rfl ⟨rfl, rfl, rfl⟩ fun _ _ _ _ _ => rfl
    | true =>
      exact h.map (g := fun s => { notifyPin p s with scan := p + 1 }) [.notify (virqOf s.cfg p)] (by simp [eventOf]) rfl
        ⟨rfl, rfl, rfl⟩ fun _ _ _ _ _ => rfl
  | attachDone =>
    exact .next ⟨rfl, (h.silent (g := fun s => { s with attached := true }) rfl ⟨rfl, rfl, rfl⟩
      fun _ _ _ _ _ => rfl).respond _ _⟩
  | detachDone =>
    exact .next ⟨rfl, (h.silent (g := fun s => { s with wake := 0#64, snapValid := false, attached := false }) rfl
      ⟨rfl, rfl, rfl⟩ fun _ _ _ _ _ => rfl).respond _ _⟩
  | suspendDone =>
    exact .next ⟨rfl, (h.silent (g := fun s => { s with snapValid := true, pm := .suspended }) rfl
      ⟨rfl, rfl, rfl⟩ fun _ _ _ _ _ => rfl).respond _ _⟩
  | resumeDone =>
    exact .next ⟨rfl, (h.silent (g := fun s => { s with snapValid := false, lineMasked := false, pm := .active }) rfl
      ⟨rfl, rfl, rfl⟩ fun _ _ _ _ _ => rfl).respond _ _⟩
  | answer => exact .next ⟨rfl, h.respond _ _⟩
  | answerLevel => exact .next ⟨rfl, h.respond _ _⟩
  | answerHandled =>
    rw [doAction, doAction, dispatchReturn, dispatchReturn, h.handled]
    exact .next ⟨rfl, h.respond _ _⟩

end

/-! ## Blocks do not overlap -/

theorem atomic_of_held {α : Type} {s : State} (h : s.lock ≠ .free) (c : Ctx) (body : State → Res (α × State)) :
    atomic c body s = .fault .lockNeverFree := if_neg h

theorem atomicDo_of_held {s : State} (h : s.lock ≠ .free) (c : Ctx) (bit : Bool) (body : State → Res State) :
    atomicDo c bit body s = .fault .lockNeverFree := if_neg h

theorem doAction_of_held {a : Action} {bit : Bool} (block : isBlock a bit = true) {s : State} (h : s.lock ≠ .free)
    (c : Ctx) : doAction c a bit s = .fault .lockNeverFree := by
  cases a with
  | serve p =>
    obtain rfl : bit = true := block
    exact atomicDo_of_held h c true _
  | notify | attachDone | detachDone | suspendDone | resumeDone | answer | answerLevel | answerHandled =>
    exact absurd block Bool.false_ne_true
  | test p => exact atomic_of_held h c _
  | probe p => exact atomic_of_held (s := { s with scan := p }) h c _
  | _ => exact atomicDo_of_held h c bit _

/-- What a piece leaves alone, whatever happens in its windows. -/
theorem doAction_keeps {c : Ctx} {a : Action} {bit b : Bool} {s t : State} (h : doAction c a bit s = .next (b, t)) :
    t.inflight = s.inflight ∧ t.running = s.running ∧ t.port = s.port ∧ t.lock = s.lock ∧ t.ctx = s.ctx ∧ t.hs = s.hs := by
  have frame := (doAction_next h).1
  have control : ∃ wake snapValid pm lineMasked attached, controlAfter a s =
      { s with wake := wake, snapValid := snapValid, pm := pm, lineMasked := lineMasked, attached := attached } := by
    cases a with
    | wake p on => cases on <;> exact ⟨_, _, _, _, _, rfl⟩
    | _ => exact ⟨_, _, _, _, _, rfl⟩
  obtain ⟨_, _, _, _, _, control⟩ := control
  rw [frame, control]
  exact ⟨rfl, rfl, rfl, rfl, rfl, rfl⟩

theorem mirrors_envOnly (c : Ctx) (s : State) : Mirrors c s s (envOnly s) :=
  ⟨rfl, .inr ⟨rfl, rfl⟩, List.suffix_rfl, [], by simp, by simp⟩

/-- Settles O55: a block asks for `LOCK` first; a piece run beside itself without the other contexts' moves ends in
the same state, and its events are its own context's and the environment's. -/
theorem atomicBlocksDoNotOverlap : Obligations.AtomicBlocksDoNotOverlap := by
  refine fun c a bit s => ⟨fun block held => doAction_of_held block held c, fun b t runs => ?_⟩
  obtain ⟨inflight, running, port, lock, -, -⟩ := doAction_keeps runs
  obtain ⟨⟨b', t'⟩, runs', sameBit, after⟩ := (doAction_mirrors (mirrors_envOnly c s) a bit).of_next runs
  obtain ⟨inflight', running', -, -, ctx', hs'⟩ := doAction_keeps runs'
  obtain ⟨-, -, -, -, ctx, hs⟩ := doAction_keeps runs
  have same : t' = envOnly t := by
    have mirrored : t' = recast t'.running t'.inflight t'.ctx t'.hs (envWindows t) t := after.eq
    rw [mirrored, running', inflight', ctx', hs']
    simp only [envOnly, recast, envWindows, ← running, ← inflight, ← ctx, ← hs]
  obtain rfl : b' = b := sameBit
  exact ⟨inflight, running, port, lock, after.log, by rw [runs', same]⟩

end Sys2Proof.Proofs
end

section
/-! A controller that is not attached (10_state.md R50 f), when one context at a time issues commands. What `PM` and
`SNAP_VALID` then are is in the invariant already; the wake bitmap is followed through the pieces here. -/

namespace Sys2Proof.Proofs
open Sys2Proof Sys2Proof.Machine

/-! ## One context at a time -/

/-- No other context's command is in flight and none of its moves is to come. -/
def Alone (s : State) : Prop := s.inflight = [] ∧ ∀ ms ∈ s.windows, ∀ m ∈ ms, envMove m = true

theorem applyMoves_of_envMove {ms : List Move} (env : ∀ m ∈ ms, envMove m = true) (s : State) :
    applyMoves ms s = .next (envMoves ms s) := by
  induction ms generalizing s with
  | nil => rfl
  | cons m ms ih =>
    obtain ⟨first, later⟩ := List.forall_mem_cons.1 env
    cases m with
    | env e => exact ih later (envStep e s)
    | start r => exact absurd first Bool.false_ne_true
    | advance c => exact absurd first Bool.false_ne_true

theorem window_of_alone {s : State} (h : Alone s) : window s = .next (envWindow s) := by
  obtain ⟨-, env⟩ := h
  cases windows : s.windows with
  | nil => rw [window_quiet windows, envWindow_quiet windows]
  | cons ms rest =>
    rw [window_of_cons windows, envWindow_of_cons windows]
    exact applyMoves_of_envMove (env ms (by rw [windows]; exact List.mem_cons_self)) _

theorem alone_envWindow {s : State} (h : Alone s) : Alone (envWindow s) := by
  obtain ⟨inflight, env⟩ := h
  rw [envWindow_frame]
  exact ⟨inflight, fun ms hms => env ms (List.mem_of_mem_tail hms)⟩

/-- Inside a piece windows are only used up. -/
theorem doAction_windows {c : Ctx} {a : Action} {bit b : Bool} {s t : State} (runs : doAction c a bit s = .next (b, t)) :
    t.windows <:+ s.windows := by
  obtain ⟨_, -, -, after⟩ := (doAction_mirrors (mirrors_envOnly c s) a bit).of_next runs
  exact after.ahead

theorem alone_doAction {c : Ctx} {a : Action} {bit b : Bool} {s t : State} (h : Alone s)
    (runs : doAction c a bit s = .next (b, t)) : Alone t := by
  obtain ⟨inflight, env⟩ := h
  exact ⟨(doAction_keeps runs).1.trans inflight, fun ms hms => env ms ((doAction_windows runs).subset hms)⟩

/-! ## The wake bitmap of a controller that is not attached -/

/-- R50 (f), its part on `WAKE`. -/
def WakeBlank (s : State) : Prop := s.attached = false → s.wake = 0#64

/-- Marks are made on an attached controller alone, and not on one about to be detached. -/
def MarksAttached (todo : List Action) (s : State) : Prop :=
  ∀ p on, Action.wake p on ∈ todo → s.attached = true ∧ Action.detachDone ∉ todo

theorem blank_envWindow {s : State} (h : WakeBlank s) : WakeBlank (envWindow s) := by
  rw [envWindow_frame]
  exact h

theorem marks_envWindow {todo : List Action} {s : State} (h : MarksAttached todo s) :
    MarksAttached todo (envWindow s) := by
  rw [envWindow_frame]
  exact h

/-- A piece that marks finds the controller attached, and the last piece of `DETACH` clears every mark. -/
theorem blank_doAction {c : Ctx} {a : Action} {todo : List Action} {bit b : Bool} {s t : State} (blank : WakeBlank s)
    (marks : MarksAttached (a :: todo) s) (runs : doAction c a bit s = .next (b, t)) :
    WakeBlank t ∧ MarksAttached todo t := by
  have frame := (doAction_next runs).1
  have attached : t.attached = (controlAfter a s).attached := by rw [frame]
  have wake : t.wake = (controlAfter a s).wake := by rw [frame]
  rw [WakeBlank, attached, wake]
  simp only [MarksAttached, attached]
  have later : ∀ p on, Action.wake p on ∈ todo → s.attached = true ∧ Action.detachDone ∉ todo := fun p on marked =>
    have ⟨isAttached, notDetach⟩ := marks p on (List.mem_cons_of_mem _ marked)
    ⟨isAttached, fun detach => notDetach (List.mem_cons_of_mem _ detach)⟩
  cases a with
  | wake p on =>
    have isAttached := (marks p on List.mem_cons_self).1
    cases on <;> exact ⟨fun detached => absurd (isAttached.symm.trans detached) nofun, later⟩
  | attachDone => exact ⟨nofun, fun p on marked => ⟨rfl, (later p on marked).2⟩⟩
  | detachDone =>
    exact ⟨fun _ => rfl, fun p on marked => absurd List.mem_cons_self (marks p on (List.mem_cons_of_mem _ marked)).2⟩
  | _ => exact ⟨blank, later⟩

theorem runPieces_blank {c : Ctx} {todo : List Action} {bit : Bool} {s t : State} (alone : Alone s) (blank : WakeBlank s)
    (marks : MarksAttached todo s) (runs : runPieces c todo bit s = .next t) : Alone t ∧ WakeBlank t := by
  induction todo generalizing bit s with
  | nil => cases runs; exact ⟨alone, blank⟩
  | cons a todo ih =>
    have begun : Alone { s with running := some ⟨c, a :: todo, bit⟩ } := alone
    have begunBlank : WakeBlank { s with running := some ⟨c, a :: todo, bit⟩ } := blank
    have begunMarks : MarksAttached (a :: todo) { s with running := some ⟨c, a :: todo, bit⟩ } := marks
    rw [runPieces, window_of_alone begun, andThen_next] at runs
    obtain ⟨⟨b, u⟩, piece, rest⟩ := andThen_eq_next.1 runs
    obtain ⟨blank', marks'⟩ := blank_doAction (blank_envWindow begunBlank) (marks_envWindow begunMarks) piece
    exact ih (alone_doAction (alone_envWindow begun) piece) blank' marks' rest

/-! ## Beginnings -/

/-- A beginning keeps both, and marks only on an attached controller. -/
def BlankBegun : Begun → Prop
  | .answered t => Alone t ∧ WakeBlank t
  | .started todo t => Alone t ∧ WakeBlank t ∧ MarksAttached todo t

/-- Whatever the beginning comes to is so. -/
def BeginsBlank (o : Res Begun) : Prop := ∀ b, o = .next b → BlankBegun b

namespace BeginsBlank

variable {s : State}

theorem next {b : Begun} (h : BlankBegun b) : BeginsBlank (.next b) := by
  rintro _ ⟨⟩
  exact h

theorem fault (f : Fault) : BeginsBlank (.fault f) := by
  rintro _ ⟨⟩

theorem raise (h : Alone s ∧ WakeBlank s) (c : Ctx) (st : Status) : BeginsBlank (Machine.raise c st s) :=
  next (b := .answered _) h

theorem ite {P : Prop} [Decidable P] {yes no : Res Begun} (h : P → BeginsBlank yes) (g : BeginsBlank no) :
    BeginsBlank (if P then yes else no) := by
  split
  · exact h ‹_›
  · exact g

/-- Pieces without a mark. -/
theorem starts {todo : List Action} {t : State} (h : Alone t ∧ WakeBlank t) (noMark : ∀ p on, Action.wake p on ∉ todo) :
    BeginsBlank (.next (.started todo t)) :=
  next (b := .started _ _) ⟨h.1, h.2, fun p on marked => absurd marked (noMark p on)⟩

theorem whenAttached (h : Alone s ∧ WakeBlank s) (c : Ctx) {go : Res Begun} (g : s.attached = true → BeginsBlank go) :
    BeginsBlank (Machine.whenAttached c s go) :=
  ite g (raise h c _)

theorem entryChecks (h : Alone s ∧ WakeBlank s) (c : Ctx) {go : Res Begun} (g : s.attached = true → BeginsBlank go) :
    BeginsBlank (Machine.entryChecks c s go) :=
  whenAttached h c fun attached => ite (fun _ => g attached) (fault _)

theorem entryChecksPin (h : Alone s ∧ WakeBlank s) (c : Ctx) (p : Nat) {go : Res Begun}
    (g : s.attached = true → BeginsBlank go) : BeginsBlank (Machine.entryChecksPin c p s go) :=
  entryChecks h c fun attached => ite (fun _ => g attached) (raise h c _)

end BeginsBlank

open BeginsBlank in
theorem beginInstr_blank {s : State} (h : Alone s ∧ WakeBlank s) (i : Instr) (c : Ctx) (hs : Handshake) :
    BeginsBlank (beginInstr i c hs s) := by
  cases i with
  | dirin p | dirout p v | get p | set p v | irqen p | irqdis p | ack p =>
    exact entryChecksPin h c p fun _ => starts h (by simp)
  | settype p t =>
    refine entryChecksPin h c p fun _ => ?_
    split
    · exact starts h (by simp)
    · exact raise h c _
  | setwake p v =>
    refine entryChecksPin h c p fun attached => ite (fun _ => raise h c _) (next (b := .started _ _) ⟨h.1, h.2, ?_⟩)
    exact fun _ _ _ => ⟨attached, by simp⟩
  | disall | detach => exact entryChecks h c fun _ => starts h (by simp)
  | dispatch => exact entryChecks h c fun _ => ite (fun _ => starts h (by simp [scanPieces])) (fault _)
  | attach =>
    exact ite (fun _ => raise h c _) (ite (fun _ => raise h c _) (ite (fun _ => raise h c _) (ite (fun _ => raise h c _)
      (starts (t := attachInit s) ⟨h.1, fun _ => rfl⟩ (by simp)))))
  | pmsuspend =>
    exact whenAttached h c fun _ => ite (fun _ => ite (fun _ => fault _) (next (b := .answered _) h)) (fault _)
  | pmsuspendnoirq =>
    exact whenAttached h c fun _ => ite (fun _ => fault _)
      (ite (fun _ => ite (fun _ => raise h c _) (starts (t := { s with pm := _, lineMasked := _ }) h (by simp))) (fault _))
  | pmresumenoirq =>
    exact whenAttached h c fun _ => ite (fun _ => fault _)
      (ite (fun _ => ite (fun _ => starts (t := { s with pm := _, coreDark := _ }) h (by simp)) (fault _))
        (next (b := .answered _) h))
  | pmresume => exact whenAttached h c fun _ => ite (fun _ => next (b := .answered _) h) (fault _)

/-! ## A step -/

theorem window_blank {s t : State} (h : Alone s ∧ WakeBlank s) (runs : window s = .next t) : Alone t ∧ WakeBlank t := by
  obtain ⟨alone, blank⟩ := h
  rw [window_of_alone alone] at runs
  cases runs
  exact ⟨alone_envWindow alone, blank_envWindow blank⟩

theorem exec_blank {i : Instr} {s t : State} (h : Alone s ∧ WakeBlank s) (runs : exec i s = .next t) :
    Alone t ∧ WakeBlank t := by
  rw [exec_eq_carryOut] at runs
  obtain ⟨b, begins, rest⟩ := andThen_eq_next.1 runs
  have begun := beginInstr_blank h i s.ctx s.hs b begins
  cases b with
  | answered u => cases rest; exact begun
  | started todo u =>
    obtain ⟨alone, blank, marks⟩ := begun
    exact runPieces_blank alone blank marks rest

/-- R37, R50: outside `Active` the controller is attached. -/
theorem pm_of_detached {s : State} (agrees : PmAgrees s) (detached : s.attached = false) :
    s.pm = .active ∧ s.snapValid = false := by
  cases pm : s.pm with
  | active => simp only [PmAgrees, pm] at agrees; exact ⟨rfl, agrees.1⟩
  | suspending | suspended | resuming =>
    simp only [PmAgrees, pm] at agrees
    exact absurd (agrees.1.symm.trans detached) nofun

/-- Settles O15: `PM` and `SNAP_VALID` by the invariant of the next state; `WAKE` through the step. -/
theorem detachedControllerIsBlank : Obligations.DetachedControllerIsBlank := by
  intro s t inv blank stepped
  have inv' := everyStepKeepsInv s t inv stepped
  obtain ⟨inflight, env, wasBlank⟩ := blank
  have before : Alone s ∧ WakeBlank s := ⟨⟨inflight, env⟩, fun detached => (wasBlank detached).2.2⟩
  have after : ∀ u, step s = .next u → Alone u ∧ WakeBlank u := by
    refine step_induction (P := fun o => ∀ u, o = .next u → Alone u ∧ WakeBlank u) inv.1
      (fun u h => window_blank before h) (fun r rest u h => ?_) fun r rest i u h => ?_
    · exact window_blank (s := respond _ _ _ (loadRequest r rest s)) before h
    · obtain ⟨v, runs, afterwards⟩ := andThen_eq_next.1 h
      exact window_blank (exec_blank (s := loadRequest r rest s) before runs) afterwards
  obtain ⟨⟨inflight', env'⟩, blank'⟩ := after t stepped
  obtain ⟨-, -, -, -, -, -, agrees, -⟩ := inv'
  exact ⟨inflight', env', fun detached =>
    have ⟨pm, snapValid⟩ := pm_of_detached agrees detached
    ⟨pm, snapValid, blank' detached⟩⟩

end Sys2Proof.Proofs
end

section
/-! The register bank pin by pin (20_memory.md R62 to R70, 40_registerbank.md R120 to R126), the environment's pad
changes, edges and external writes (10_state.md R44, R52, 60_exceptions.md R222), and the two outputs (R224, R174). -/

namespace Sys2Proof.Proofs
open Sys2Proof Sys2Proof.Machine

/-! ## The mapping -/

theorem regBank_core {c : Config} {p : Nat} (core : p < c.resumeBoundary) :
    wellOf c p = .core ∧ pinInWell c p = p := by simp [wellOf, pinInWell, core]

theorem regBank_resume {c : Config} {p : Nat} (resume : c.resumeBoundary ≤ p) :
    wellOf c p = .resume ∧ pinInWell c p = p - c.resumeBoundary := by
  simp [wellOf, pinInWell, Nat.not_lt.2 resume]

/-- Settles O17: for a pin that exists the functions have their right-hand sides, which differ by the pin's well. -/
theorem registerBankDomain : Obligations.RegisterBankDomain := by
  refine fun c p k => ⟨fun core hp => ?_, fun resume hp => ?_, fun beyond => ?_⟩
  · obtain ⟨well, place⟩ := regBank_core core
    rw [well?_of_lt hp, pinInWell?_of_lt hp, wellStride?_of_lt hp, bit?_of_lt hp, offset?_of_lt k hp]
    simp [bitOf, regOff, regOf, strideOf, well, place]
  · obtain ⟨well, place⟩ := regBank_resume resume
    rw [well?_of_lt hp, pinInWell?_of_lt hp, wellStride?_of_lt hp, bit?_of_lt hp, offset?_of_lt k hp]
    simp [bitOf, regOff, regOf, strideOf, well, place]
  · obtain ⟨well, place, stride, bit, -, offset⟩ := bank_of_le beyond k
    exact ⟨well, place, stride, bit, offset⟩

/-- A pin is given by its register of any kind and its bit (R23). -/
theorem pin_eq_of_regOf_eq {c : Config} {p q : Nat} {k l : Kind} (reg : regOf c k p = regOf c l q)
    (bit : bitOf c p = bitOf c q) : p = q ∧ k = l := by
  have well : wellOf c p = wellOf c q := congrArg Reg.well reg
  have byte : pinInWell c p / 8 = pinInWell c q / 8 := congrArg Reg.idx reg
  refine ⟨?_, congrArg Reg.kind reg⟩
  rw [← pin_eq c p, ← pin_eq c q, well, byte, bit]

/-- Settles O18: one offset is one register, and a register and a bit give the pin. -/
theorem everyPinHasItsOwnBits : Obligations.EveryPinHasItsOwnBits := by
  intro c wf p q k l hp hq sameOffset sameBit
  exact pin_eq_of_regOf_eq ((offset?_eq_iff_regOf_eq wf hp hq k l).1 sameOffset) sameBit

/-! ## The level path -/

/-- The pin at bit `j` of byte `i` of a well (R23). -/
theorem regOf_of_bit {c : Config} (wf : ConfigWF c) {w : Well} {i j : Nat} (hj : j < 8) (isPin : 8 * i + j < pinsIn c w)
    (k : Kind) : regOf c k (firstPin c w + 8 * i + j) = ⟨k, w, i⟩ := by
  obtain ⟨-, well, byte, -⟩ := pin_of_bit wf.1.1 hj isPin
  rw [regOf, well, byte]

theorem stored_writeReg_same {s : State} (canonical : MemWF s.mem) (r : Reg) (v : Byte) :
    stored (writeReg s r v) r = writtenByte s r v := by
  rw [writeReg_eq_store, stored_store_same canonical]

@[simp] theorem writeReg_cfg (s : State) (r : Reg) (v : Byte) : (writeReg s r v).cfg = s.cfg := by
  rw [writeReg_eq_store, store_cfg]

/-- Settles O19: bit by bit; a bit of a pin is the pin's level or latch, the others are storage. -/
theorem levelPathPinByPin : Obligations.LevelPathPinByPin := by
  refine fun s w i j v wf canonical _ hj => ⟨fun isPin => ?_, fun reserved => ?_⟩
  · obtain ⟨hp, -, -, bit⟩ := pin_of_bit wf.1.1 hj isPin
    have reg := regOf_of_bit wf hj isPin
    have bitOfKind (t : State) (cfg : t.cfg = s.cfg) (k : Kind) :
        pinBit t k (firstPin s.cfg w + 8 * i + j) = (stored t ⟨k, w, i⟩).getLsbD j := by
      rw [pinBit, cfg, reg, bit]
    constructor
    · rw [← level_eq_read_bit s hp, reg, bit]
    · rw [latch, latch, bitOfKind _ (writeReg_cfg _ _ _), bitOfKind s rfl, bitOfKind s rfl,
        stored_writeReg_same canonical, writtenByte_lvl_bit _ _ _ _ _ hj]
      simp only [isPin, and_true]
  · have noPin : ¬ 8 * i + j < pinsIn s.cfg w := Nat.not_lt.2 reserved
    rw [readReg_lvl_bit _ _ _ _ hj, stored_writeReg_same canonical, writtenByte_lvl_bit _ _ _ _ _ hj]
    simp [noPin]

/-! ## Writes of every kind -/

theorem locate_eq_none {c : Config} {off : Nat} (h : off ∉ usedOffsets c) : locate c off = none :=
  List.find?_eq_none.2 fun _ hr same => h (List.mem_map.2 ⟨_, hr, by simpa using same⟩)

theorem envStep_regWrite_used {s : State} (wf : ConfigWF s.cfg) {r : Reg} (hr : r ∈ regs s.cfg) (v : Byte) :
    envStep (.regWrite (regOff s.cfg r) v) s =
      record (.env (.regWrite (regOff s.cfg r) v)) (writeReg s r v) := by
  simp [envStep, envEnabled, envEffect, locate_regOff wf hr]

theorem envStep_regWrite_unused {s : State} {off : Nat} (h : off ∉ usedOffsets s.cfg) (v : Byte) :
    envStep (.regWrite off v) s = s := by
  simp [envStep, envEnabled, locate_eq_none h]

/-- Settles O20: a write of any kind is one store of the byte its kind leaves. -/
theorem registerWritePerKind : Obligations.RegisterWritePerKind := by
  intro s r v canonical
  refine ⟨?_, ?_, ?_, fun isStatus => ?_, fun notStatus notLevel => ?_, fun wf hr => envStep_regWrite_used wf hr v,
    fun off unused => envStep_regWrite_unused unused v⟩
  · rw [writeReg_eq_store]; exact store_keepsOtherBytes s r _
  · rw [writeReg_eq_store]; exact store_keeps_wf canonical r _
  · rw [writeReg_eq_store]; rfl
  · rw [stored_writeReg_same canonical]
    simp only [writtenByte, isStatus]
  · rw [stored_writeReg_same canonical, writtenByte_of_plain notStatus notLevel]

/-! ## Pad changes -/

theorem setPad_bit {p : Nat} (hp : p < 64) (padin : BitVec 64) (v : Bool) (q : Nat) :
    (setPad padin p v).getLsbD q = if q = p then v else padin.getLsbD q := by
  cases v with
  | true =>
    rw [setPad, if_pos rfl, BitVec.getLsbD_or, oneHotWord_bit hp]
    by_cases hq : q = p <;> simp [hq]
  | false =>
    rw [setPad, if_neg Bool.false_ne_true, BitVec.getLsbD_and, BitVec.getLsbD_not, oneHotWord_bit hp]
    by_cases hq : q = p
    · simp [hq]
    · by_cases inWord : q < 64
      · simp [hq, inWord]
      · simp [hq, BitVec.getLsbD_of_ge _ _ (Nat.le_of_not_lt inWord)]

theorem envStep_pad_of_lt {s : State} {p : Nat} (hp : p < s.cfg.pinCount) (v : Bool) :
    envStep (.pad p v) s = { s with padin := setPad s.padin p v, log := s.log ++ [.env (.pad p v)] } := by
  simp [envStep, envEnabled, envEffect, hp, record]

/-- Settles O56: one bit of `PADIN` moves, which only the level of an input pin looks at. -/
theorem envPadMovesOneInput : Obligations.EnvPadMovesOneInput := by
  refine fun s p v wf => ⟨fun beyond => if_neg (by simp [envEnabled, Nat.not_lt.2 beyond]), fun hp => ?_⟩
  have pads := setPad_bit (lt_64_of_lt_pinCount wf hp) s.padin v
  rw [envStep_pad_of_lt hp]
  refine ⟨rfl, pads, fun q _ => ?_, fun q _ => rfl⟩
  have sameBit (k : Kind) :
      pinBit { s with padin := setPad s.padin p v, log := s.log ++ [.env (.pad p v)] } k q = pinBit s k q := rfl
  simp only [level, latch, sameBit, pads]
  by_cases same : q = p
  · subst same
    cases input : pinBit s .dir q <;> simp
  · simp [same]

/-! ## Edges -/

/-- The pin's well has power (R190). -/
def Powered (s : State) (p : Nat) : Prop := s.cfg.resumeBoundary ≤ p ∨ s.pm ≠ .suspended ∨ s.coreDark = false

theorem wellDark_of_powered {s : State} {p : Nat} (h : Powered s p) : wellDark s p = false := by
  rcases h with resume | notSuspended | light
  · simp [wellDark, Nat.not_lt.2 resume]
  · simp [wellDark, notSuspended]
  · simp [wellDark, light]

/-- The pending bit of a pin set (R222). -/
def withPending (p : Nat) (s : State) : State :=
  store s (regOf s.cfg .sts p) (setBit (stored s (regOf s.cfg .sts p)) (bitOf s.cfg p) true)

theorem envStep_edge {s : State} {p : Nat} (hp : p < s.cfg.pinCount) (powered : Powered s p) (e : Edge) :
    envStep (.edge p e) s =
      record (.env (.edge p e)) (if pinBit s (triggerKind e) p then withPending p s else s) := by
  simp only [envStep, envEnabled, envEffect, hp, wellDark_of_powered powered, decide_true, Bool.not_false, Bool.and_self,
    if_true, pinBit?_of_lt _ hp, setPending_of_lt hp, Option.some.injEq]
  rfl

theorem keepsOtherBits_setBit {s t : State} {r : Reg} {j : Nat} (hj : j < 8) {v : Bool}
    (h : stored t r = setBit (stored s r) j v) : KeepsOtherBits s t r j := by
  intro i other
  rw [h, setBit_bit _ _ _ hj, if_neg other]

theorem pinBit_of_setBit {s t : State} {k : Kind} {p : Nat} (cfg : t.cfg = s.cfg) {v : Bool} {b : Byte}
    (h : stored t (regOf s.cfg k p) = setBit b (bitOf s.cfg p) v) : pinBit t k p = v := by
  rw [pinBit, cfg, h, setBit_bit _ _ _ (bitOf_lt _ _), if_pos rfl]

theorem stored_withPending {s : State} (canonical : MemWF s.mem) (p : Nat) :
    stored (withPending p s) (regOf s.cfg .sts p) =
      setBit (stored s (regOf s.cfg .sts p)) (bitOf s.cfg p) true := stored_store_same canonical _ _

/-- Settles O57: an edge that happens is one store of the status byte, or none. -/
theorem edgeSetsPending : Obligations.EdgeSetsPending := by
  intro s p e wf canonical hp powered
  rw [envStep_edge hp powered]
  cases armed : pinBit s (triggerKind e) p with
  | false => exact ⟨rfl, fun _ => rfl, nofun, rfl⟩
  | true =>
    have status := stored_withPending canonical p
    exact ⟨rfl, nofun, fun _ => ⟨pinBit_of_setBit (t := withPending p s) rfl status,
      keepsOtherBits_setBit (bitOf_lt _ _) status, store_keepsOtherBytes s _ _⟩, rfl⟩

/-! ## The outputs -/

theorem lineOut_iff (s : State) : lineOut s = true ↔ s.cfg.hasLine = true ∧
    ∃ p, p < s.cfg.pinCount ∧ pinBit s .sts p = true ∧ pinBit s .gpe p = true := by
  simp only [lineOut, Bool.and_eq_true, List.any_eq_true, List.mem_range]
  refine and_congr_right fun _ => exists_congr fun p => and_congr_right fun hp => ?_
  simp [pinBit?_of_lt _ hp]

theorem wakeOut_iff (s : State) : wakeOut s = true ↔
    ∃ p, p < s.cfg.pinCount ∧ s.wake.getLsbD p = true ∧ pinBit s .sts p = true := by
  simp only [wakeOut, List.any_eq_true, List.mem_range, Bool.and_eq_true]
  refine exists_congr fun p => and_congr_right fun hp => ?_
  simp [pinBit?_of_lt _ hp]

/-- Settles O34: pin by pin; the mask flags stand in neither equation. -/
theorem lineAndWakeOutEquations : Obligations.LineAndWakeOutEquations :=
  fun s => ⟨lineOut_iff s, wakeOut_iff s, fun _ _ => ⟨rfl, rfl⟩⟩

end Sys2Proof.Proofs
end

section
/-! Commands when nobody else acts: the pieces one after the other, and the state each command leaves that ends with
`OK` (60_exceptions.md R210, R220). -/

namespace Sys2Proof.Proofs
open Sys2Proof Sys2Proof.Machine

/-! ## The pieces one after the other -/

/-- The pieces of a command, without the windows and without a record of where the command stands. -/
def doActions (c : Ctx) : List Action → Bool → State → Res (Bool × State)
  | [], bit, s => .next (bit, s)
  | a :: todo, bit, s => andThen (doAction c a bit s) fun r => doActions c todo r.1 r.2

theorem quiet_doAction {c : Ctx} {a : Action} {bit b : Bool} {s t : State} (quiet : s.windows = [])
    (runs : doAction c a bit s = .next (b, t)) : t.windows = [] := by
  have usedUp := doAction_windows runs
  rw [quiet] at usedUp
  exact List.suffix_nil.1 usedUp

/-- With no move to come, a piece ends in the same way whatever is around it, and what is around it stays. -/
theorem doAction_recast (c : Ctx) (a : Action) (bit : Bool) {s : State} (quiet : s.windows = []) (f : Option Flight)
    (l : List Flight) (d : Ctx) (hs : Handshake) :
    doAction c a bit (recast f l d hs [] s) =
      andThen (doAction c a bit s) fun r => .next (r.1, recast f l d hs [] r.2) := by
  have start : Mirrors c s s (recast f l d hs [] s) :=
    ⟨by simp [recast, envWindows, quiet], .inl quiet, List.suffix_rfl, [], by simp, by simp⟩
  have alike := doAction_mirrors start a bit
  cases outcome : doAction c a bit s with
  | next r =>
    obtain ⟨b, t⟩ := r
    obtain ⟨⟨b', t'⟩, runs', sameBit, after⟩ := alike.of_next outcome
    obtain ⟨inflight, running, -, -, ctx, hs'⟩ := doAction_keeps runs'
    have mirrored : t' = recast t'.running t'.inflight t'.ctx t'.hs (envWindows t) t := after.eq
    rw [running, inflight, ctx, hs', envWindows, quiet_doAction quiet outcome] at mirrored
    obtain rfl : b' = b := sameBit
    rw [runs', mirrored]
    rfl
  | fault f =>
    rw [outcome] at alike
    generalize doAction c a bit (recast _ _ _ _ _ _) = o at alike
    cases alike
    rfl
  | refused r =>
    rw [outcome] at alike
    generalize doAction c a bit (recast _ _ _ _ _ _) = o at alike
    cases alike
    rfl

theorem recast_running {s : State} (quiet : s.windows = []) (f : Option Flight) :
    { s with running := f } = recast f s.inflight s.ctx s.hs [] s := by
  rw [recast, ← quiet]

/-- With no move to come, a command is its pieces one after the other. -/
theorem runPieces_eq_doActions (c : Ctx) (todo : List Action) (bit : Bool) {s : State} (quiet : s.windows = [])
    (f : Option Flight) :
    runPieces c todo bit { s with running := f } =
      andThen (doActions c todo bit s) fun r => .next { r.2 with running := none } := by
  induction todo generalizing bit s f with
  | nil => rfl
  | cons a todo ih =>
    rw [runPieces_quiet (s := { s with running := f }) quiet, doActions]
    have piece := doAction_recast c a bit quiet (some ⟨c, a :: todo, bit⟩) s.inflight s.ctx s.hs
    rw [← recast_running quiet] at piece
    simp only [piece]
    cases outcome : doAction c a bit s with
    | next r =>
      obtain ⟨b, t⟩ := r
      obtain ⟨inflight, -, -, -, ctx, hs⟩ := doAction_keeps outcome
      have quiet' := quiet_doAction quiet outcome
      have rest := ih b quiet' (some ⟨c, a :: todo, bit⟩)
      rw [recast_running quiet', inflight, ctx, hs] at rest
      exact rest
    | fault f => rfl
    | refused r => rfl

/-! ## The pieces that are one block -/

section
variable {c : Ctx} {bit : Bool} {s : State} (wf : ConfigWF s.cfg) (lockFree : s.lock = .free) (quiet : s.windows = [])
include wf lockFree quiet

/-- A read-modify-write as a command of one block. -/
theorem doActions_rmw {op : BitOp} (hp : op.pin < s.cfg.pinCount) (todo : List Action) :
    doActions c (.rmw [op] :: todo) bit s = doActions c todo bit (afterRmw c op s) := by
  rw [doActions, doAction_rmw_quiet c [op] bit wf lockFree quiet (by simpa using hp)]
  rfl

theorem doActions_rmw_pair {op op' : BitOp} (hp : op.pin < s.cfg.pinCount) (hp' : op'.pin < s.cfg.pinCount)
    (todo : List Action) :
    doActions c (.rmw [op, op'] :: todo) bit s = doActions c todo bit (afterRmw c op' (afterRmw c op s)) := by
  rw [doActions, doAction_rmw_quiet c [op, op'] bit wf lockFree quiet (by simp [hp, hp'])]
  rfl

theorem doActions_test {p : Nat} (hp : p < s.cfg.pinCount) (todo : List Action) :
    doActions c (.test p :: todo) bit s =
      doActions c todo (level s p)
        (record (.read c (regOff s.cfg (regOf s.cfg .lvl p)) (readReg s (regOf s.cfg .lvl p))) s) := by
  rw [doActions, doAction_test_quiet c bit wf lockFree quiet hp]
  rfl

theorem doActions_ack {p : Nat} (hp : p < s.cfg.pinCount) (todo : List Action) :
    doActions c (.ack p :: todo) bit s = doActions c todo bit (afterAck c p s) := by
  rw [doActions, doAction_ack_quiet c bit wf lockFree quiet hp]
  rfl

theorem doActions_disableAll (todo : List Action) :
    doActions c (.disableAll :: todo) bit s = doActions c todo bit (afterWrites c (disableAllRegs s.cfg) s) := by
  rw [doActions, doAction_disableAll_quiet c bit wf lockFree quiet]
  rfl

theorem doActions_capture (todo : List Action) :
    doActions c (.capture :: todo) bit s = doActions c todo bit (afterCapture c (savedBytes s.cfg) s) := by
  rw [doActions, doAction_capture_quiet c bit wf lockFree quiet]
  rfl

theorem doActions_restore (todo : List Action) :
    doActions c (.restore :: todo) bit s = doActions c todo bit (afterWrites c (restoreRegs s) s) := by
  rw [doActions, doAction_restore_quiet c bit wf lockFree quiet]
  rfl

/-- The dispatcher's three pieces for one pin. -/
theorem doActions_scan {p : Nat} (hp : p < s.cfg.pinCount) (todo : List Action) :
    doActions c (.probe p :: .serve p :: .notify p :: todo) bit s =
      doActions c todo (pinBit s .sts p) (afterScan c p s) := by
  rw [doActions, doAction_probe_quiet c bit wf lockFree quiet hp, andThen_next, doActions]
  cases pending : pinBit s .sts p with
  | false =>
    simp only [doAction, Bool.false_eq_true, if_false, andThen_next, doActions, afterScan, pending]
  | true =>
    have acks := doAction_ack_quiet c true
      (s := record (.read c (regOff s.cfg (regOf s.cfg .sts p)) (stored s (regOf s.cfg .sts p))) { s with scan := p })
      wf lockFree quiet hp
    rw [show ∀ u, doAction c (.serve p) true u = doAction c (.ack p) true u from fun _ => rfl, acks]
    simp only [doAction, if_true, andThen_next, doActions, afterScan, pending]

end

theorem doActions_wake (c : Ctx) (p : Nat) (v bit : Bool) {s : State} (lockFree : s.lock = .free) (todo : List Action) :
    doActions c (.wake p v :: todo) bit s = doActions c todo bit (controlAfter (.wake p v) s) := by
  rw [doActions, doAction_wake_free c p v bit lockFree]
  rfl

/-! ## The dispatcher's scan -/

/-- The state after the scan of some pins (R157). -/
def afterScans (c : Ctx) (ps : List Nat) (s : State) : State := ps.foldl (fun s p => afterScan c p s) s

/-- Everything the scan of one pin changes. -/
theorem afterScan_frame (c : Ctx) (p : Nat) (s : State) :
    afterScan c p s = { s with
      mem := (afterScan c p s).mem, log := (afterScan c p s).log
      handled := s.handled || pinBit s .sts p, scan := p + 1 } := by
  cases pending : pinBit s .sts p with
  | false => simp only [afterScan, pending, Bool.false_eq_true, if_false, Bool.or_false]; rfl
  | true => simp only [afterScan, pending, if_true, Bool.or_true]; rfl

@[simp] theorem afterScan_cfg (c : Ctx) (p : Nat) (s : State) : (afterScan c p s).cfg = s.cfg := by
  rw [afterScan_frame]
@[simp] theorem afterScan_lock (c : Ctx) (p : Nat) (s : State) : (afterScan c p s).lock = s.lock := by
  rw [afterScan_frame]
@[simp] theorem afterScan_windows (c : Ctx) (p : Nat) (s : State) : (afterScan c p s).windows = s.windows := by
  rw [afterScan_frame]

theorem doActions_scans (c : Ctx) (bit : Bool) (ps : List Nat) (todo : List Action) {s : State} (wf : ConfigWF s.cfg)
    (lockFree : s.lock = .free) (quiet : s.windows = []) (hp : ∀ p ∈ ps, p < s.cfg.pinCount) :
    ∃ b, doActions c (ps.flatMap (fun p => [.probe p, .serve p, .notify p]) ++ todo) bit s =
      doActions c todo b (afterScans c ps s) := by
  induction ps generalizing bit s with
  | nil => exact ⟨bit, rfl⟩
  | cons p ps ih =>
    obtain ⟨first, later⟩ := List.forall_mem_cons.1 hp
    obtain ⟨b, rest⟩ := ih (pinBit s .sts p) (s := afterScan c p s) (by rwa [afterScan_cfg]) (by rwa [afterScan_lock])
      (by rwa [afterScan_windows]) (by rwa [afterScan_cfg])
    exact ⟨b, (doActions_scan wf lockFree quiet first _).trans rest⟩

/-! ## The state after a command that ends with `OK` -/

/-- The response `(OK, d)` and the end of the command. -/
def concluded (c : Ctx) (d : Bool) (s : State) : State := respond c .ok d { s with running := none }

/-- What each command leaves when it ends with `OK` and nobody else acts. -/
def okState (i : Instr) (s : State) : State :=
  match i with
  | .dirin p => concluded s.ctx false (afterRmw s.ctx ⟨p, .dir, true⟩ s)
  | .dirout p v => concluded s.ctx false (afterRmw s.ctx ⟨p, .lvl, v⟩ (afterRmw s.ctx ⟨p, .dir, false⟩ s))
  | .get p => concluded s.ctx (level s p)
      (record (.read s.ctx (regOff s.cfg (regOf s.cfg .lvl p)) (readReg s (regOf s.cfg .lvl p))) s)
  | .set p v => concluded s.ctx false (afterRmw s.ctx ⟨p, .lvl, v⟩ s)
  | .settype p t => concluded s.ctx false
      (afterRmw s.ctx ⟨p, .fte, t / 2 % 2 == 1⟩ (afterRmw s.ctx ⟨p, .rte, t % 2 == 1⟩ s))
  | .irqen p => concluded s.ctx false (afterRmw s.ctx ⟨p, .gpe, true⟩ s)
  | .irqdis p => concluded s.ctx false (afterRmw s.ctx ⟨p, .gpe, false⟩ s)
  | .ack p => concluded s.ctx false (afterAck s.ctx p s)
  | .setwake p v => concluded s.ctx false (controlAfter (.wake p v) s)
  | .disall => concluded s.ctx false (afterWrites s.ctx (disableAllRegs s.cfg) s)
  | .dispatch =>
    let t := afterScans s.ctx (List.range s.cfg.pinCount) (dispatchEnter s)
    concluded s.ctx t.handled t
  | .attach => concluded s.ctx false
      { afterWrites s.ctx (disableAllRegs s.cfg) (attachInit s) with attached := true }
  | .detach => concluded s.ctx false
      { afterWrites s.ctx (disableAllRegs s.cfg) s with wake := 0#64, snapValid := false, attached := false }
  | .pmsuspend => respond s.ctx .ok false { s with delivOff := true }
  | .pmsuspendnoirq => concluded s.ctx false
      { afterCapture s.ctx (savedBytes s.cfg) { s with pm := .suspending, lineMasked := true } with
        snapValid := true, pm := .suspended }
  | .pmresumenoirq => concluded s.ctx false
      { afterWrites s.ctx (restoreRegs s) { s with pm := .resuming, coreDark := false } with
        snapValid := false, lineMasked := false, pm := .active }
  | .pmresume => respond s.ctx .ok false { s with delivOff := false }

/-- The beginning of the command hands on these pieces, which end in the response `(OK, d)`. -/
theorem exec_of_doActions {i : Instr} {s : State} {todo : List Action} {t u : State} {b d : Bool}
    (quiet : t.windows = []) (begins : beginInstr i s.ctx s.hs s = .next (.started todo t))
    (pieces : doActions s.ctx todo false t = .next (b, respond s.ctx .ok d u)) :
    exec i s = .next (concluded s.ctx d u) := by
  rw [exec_eq_carryOut, begins, carryOut_started]
  have run := runPieces_eq_doActions s.ctx todo false quiet t.running
  rw [pieces] at run
  exact run

section
variable {s : State}

theorem begins_of_live (live : Live s) {p : Nat} (hp : p < s.cfg.pinCount) (c : Ctx) (todo : List Action) :
    entryChecksPin c p s (.next (.started todo s)) = .next (.started todo s) := entryChecksPin_live live hp c _

/-- The nine commands with a pin operand. -/
theorem exec_pin_ok (ready : Ready s) (live : Live s) {i : Instr} {p : Nat} (isPin : pinOperand i = some p)
    (hp : p < s.cfg.pinCount) (trigger : ∀ t, i = .settype p t → t < 4)
    (resume : ∀ v, i = .setwake p v → s.cfg.resumeBoundary ≤ p) : exec i s = .next (okState i s) := by
  obtain ⟨wf, -, lockFree, quiet⟩ := ready
  cases i with
  | dirin q | set q v | irqen q | irqdis q =>
    cases isPin
    exact exec_of_doActions quiet (begins_of_live live hp _ _) (doActions_rmw wf lockFree quiet hp _)
  | dirout q v =>
    cases isPin
    have second := doActions_rmw (c := s.ctx) (bit := false) (s := afterRmw s.ctx ⟨p, .dir, false⟩ s)
      (op := ⟨p, .lvl, v⟩) (by simpa using wf) (by simpa using lockFree) (by simpa using quiet) (by simpa using hp) [.answer]
    exact exec_of_doActions quiet (begins_of_live live hp _ _) ((doActions_rmw wf lockFree quiet hp _).trans second)
  | get q =>
    cases isPin
    exact exec_of_doActions quiet (begins_of_live live hp _ _) (doActions_test wf lockFree quiet hp _)
  | settype q t =>
    cases isPin
    have begins : beginInstr (.settype p t) s.ctx s.hs s =
        .next (.started [.rmw [⟨p, .rte, t % 2 == 1⟩, ⟨p, .fte, t / 2 % 2 == 1⟩], .answer] s) := by
      rw [beginInstr, planSettype, trigBits, if_pos (trigger t rfl)]
      exact begins_of_live live hp _ _
    exact exec_of_doActions quiet begins (doActions_rmw_pair wf lockFree quiet hp hp _)
  | ack q =>
    cases isPin
    exact exec_of_doActions quiet (begins_of_live live hp _ _) (doActions_ack wf lockFree quiet hp _)
  | setwake q v =>
    cases isPin
    have begins : beginInstr (.setwake p v) s.ctx s.hs s = .next (.started [.wake p v, .answer] s) := by
      rw [beginInstr, planSetwake, if_neg (Nat.not_lt.2 (resume v rfl))]
      exact begins_of_live live hp _ _
    exact exec_of_doActions quiet begins (doActions_wake _ p v _ lockFree _)
  | disall | dispatch | attach | detach | pmsuspend | pmsuspendnoirq | pmresumenoirq | pmresume => cases isPin

theorem exec_disall_ok (ready : Ready s) (live : Live s) : exec .disall s = .next (okState .disall s) := by
  obtain ⟨wf, -, lockFree, quiet⟩ := ready
  exact exec_of_doActions quiet (entryChecks_live live _ _) (doActions_disableAll wf lockFree quiet _)

theorem exec_detach_ok (ready : Ready s) (live : Live s) : exec .detach s = .next (okState .detach s) := by
  obtain ⟨wf, -, lockFree, quiet⟩ := ready
  exact exec_of_doActions quiet (entryChecks_live live _ _) (doActions_disableAll wf lockFree quiet _)

theorem exec_dispatch_ok (ready : Ready s) (live : Live s) (mayStart : dispatchMayStart s = true) :
    exec .dispatch s = .next (okState .dispatch s) := by
  obtain ⟨wf, -, lockFree, quiet⟩ := ready
  have begins : beginInstr .dispatch s.ctx s.hs s =
      .next (.started (scanPieces s.cfg ++ [.answerHandled]) (dispatchEnter s)) := by
    rw [beginInstr, planDispatch, if_pos mayStart, entryChecks_live live]
  obtain ⟨b, scans⟩ := doActions_scans s.ctx false (List.range s.cfg.pinCount) [.answerHandled] (s := dispatchEnter s)
    wf lockFree quiet fun p => List.mem_range.1
  exact exec_of_doActions (t := dispatchEnter s) quiet begins scans

theorem exec_attach_ok (ready : Ready s) (detached : s.attached = false) (variantOk : s.hs.variantOk = true)
    (ioOk : s.hs.ioOk = true) (virqOk : s.hs.virqOk = true) : exec .attach s = .next (okState .attach s) := by
  obtain ⟨wf, -, -, quiet⟩ := ready
  rw [exec_attach_starts detached variantOk ioOk virqOk]
  refine (runPieces_eq_doActions s.ctx _ false (s := attachInit s) quiet s.running).trans ?_
  rw [doActions_disableAll (s := attachInit s) wf rfl quiet]
  rfl

theorem exec_pmsuspend_ok (attached : s.attached = true) (resting : s.pm = .active ∨ s.pm = .suspended)
    (noDispatch : dispatchInFlight s = false) : exec .pmsuspend s = .next (okState .pmsuspend s) := by
  rw [exec_eq_carryOut, beginInstr, planPmsuspend, whenAttached_of_attached attached, whenResting_of_resting resting,
    whenNoDispatch, noDispatch, if_neg Bool.false_ne_true, carryOut_answered]
  rfl

theorem exec_pmresume_ok (attached : s.attached = true) (resting : s.pm = .active ∨ s.pm = .suspended) :
    exec .pmresume s = .next (okState .pmresume s) := by
  rw [exec_eq_carryOut, beginInstr, planPmresume, whenAttached_of_attached attached, whenResting_of_resting resting,
    carryOut_answered]
  rfl

theorem exec_pmsuspendnoirq_ok (ready : Ready s) (attached : s.attached = true) (idle : someInFlight s = false)
    (resting : s.pm = .active ∨ s.pm = .suspended) (masked : s.cfg.hasLine = true → s.hs.maskOk = true) :
    exec .pmsuspendnoirq s = .next (okState .pmsuspendnoirq s) := by
  obtain ⟨wf, -, lockFree, quiet⟩ := ready
  have maskAnswer : ¬ (s.cfg.hasLine && !s.hs.maskOk) = true := by
    simp only [Bool.and_eq_true, Bool.not_eq_true', not_and, Bool.not_eq_false]
    exact masked
  have begins : beginInstr .pmsuspendnoirq s.ctx s.hs s =
      .next (.started [.capture, .suspendDone] { s with pm := .suspending, lineMasked := true }) := by
    rw [beginInstr, planPmsuspendnoirq, whenAttached_of_attached attached, whenExclusive_of_idle idle,
      whenResting_of_resting resting, if_neg maskAnswer]
  exact exec_of_doActions (t := { s with pm := .suspending, lineMasked := true }) quiet begins
    (doActions_capture (s := { s with pm := .suspending, lineMasked := true }) wf lockFree quiet _)

theorem exec_pmresumenoirq_ok (ready : Ready s) (attached : s.attached = true) (idle : someInFlight s = false)
    (snapshot : s.snapValid = true) (suspended : s.pm = .suspended) :
    exec .pmresumenoirq s = .next (okState .pmresumenoirq s) := by
  obtain ⟨wf, -, lockFree, quiet⟩ := ready
  have begins : beginInstr .pmresumenoirq s.ctx s.hs s =
      .next (.started [.restore, .resumeDone] { s with pm := .resuming, coreDark := false }) := by
    rw [beginInstr, planPmresumenoirq, whenAttached_of_attached attached, whenExclusive_of_idle idle, if_pos snapshot,
      if_pos suspended]
  exact exec_of_doActions (t := { s with pm := .resuming, coreDark := false }) quiet begins
    (doActions_restore (s := { s with pm := .resuming, coreDark := false }) wf lockFree quiet _)

end

/-- Settles O41: both end at their beginning, which no other agent can come between. -/
theorem suspendAndResumeMoveDelivery : Obligations.SuspendAndResumeMoveDelivery :=
  fun _ attached resting => ⟨exec_pmsuspend_ok attached resting, exec_pmresume_ok attached resting⟩

end Sys2Proof.Proofs
end

section
/-! The commands on one pin: GpioChip (41_gpiochip.md) and the plain bits of IrqController (42_irqcontroller.md), when
nobody else acts, and what they do to the pads (10_state.md R45) and to the two outputs (R224, R174). -/

namespace Sys2Proof.Proofs
open Sys2Proof Sys2Proof.Machine

/-! ## Bits that stay -/

/-- Where one bit of one byte moved, every other pin and kind keeps its bit. -/
theorem pinBit_of_keeps {s t : State} (wf : ConfigWF s.cfg) (cfg : t.cfg = s.cfg) {k l : Kind} {p q : Nat}
    (hp : p < s.cfg.pinCount) (hq : q < s.cfg.pinCount) (bytes : KeepsOtherBytes s t (regOf s.cfg k p))
    (bits : KeepsOtherBits s t (regOf s.cfg k p) (bitOf s.cfg p)) (other : ¬ (q = p ∧ l = k)) :
    pinBit t l q = pinBit s l q := by
  rw [pinBit, pinBit, cfg]
  by_cases sameReg : regOf s.cfg l q = regOf s.cfg k p
  · rw [sameReg]
    exact bits _ fun sameBit => other (pin_eq_of_regOf_eq sameReg sameBit)
  · rw [stored, cfg]
    exact congrArg (BitVec.getLsbD · _) (bytes _ fun sameAddr =>
      sameReg (regAddr_inj wf (regOf_mem l hq) (regOf_mem k hp) sameAddr))

/-- `t` is `s` with the bit of one pin and kind moved to `v`: the pin's bit and everything that stays. -/
structure BitMoved (k : Kind) (p : Nat) (v : Bool) (s t : State) : Prop where
  cfg : t.cfg = s.cfg
  bit : pinBit t k p = v
  bits : KeepsOtherBits s t (regOf s.cfg k p) (bitOf s.cfg p)
  bytes : KeepsOtherBytes s t (regOf s.cfg k p)

namespace BitMoved

variable {k l : Kind} {p q : Nat} {v : Bool} {s t : State}

theorem other (h : BitMoved k p v s t) (wf : ConfigWF s.cfg) (hp : p < s.cfg.pinCount) (hq : q < s.cfg.pinCount)
    (differs : ¬ (q = p ∧ l = k)) : pinBit t l q = pinBit s l q :=
  pinBit_of_keeps wf h.cfg hp hq h.bytes h.bits differs

theorem otherKind (h : BitMoved k p v s t) (wf : ConfigWF s.cfg) (hp : p < s.cfg.pinCount) (hq : q < s.cfg.pinCount)
    (differs : l ≠ k) : pinBit t l q = pinBit s l q :=
  h.other wf hp hq fun same => differs same.2

theorem otherPin (h : BitMoved k p v s t) (wf : ConfigWF s.cfg) (hp : p < s.cfg.pinCount) (hq : q < s.cfg.pinCount)
    (differs : q ≠ p) : pinBit t l q = pinBit s l q :=
  h.other wf hp hq fun same => differs same.1

/-- Whoever looks at the page and the configuration alone sees the same move. -/
theorem congr {u : State} (h : BitMoved k p v s t) (mem : u.mem = t.mem) (cfg : u.cfg = t.cfg) : BitMoved k p v s u := by
  have sameStored := stored_congr mem cfg
  refine ⟨cfg.trans h.cfg, ?_, fun i other => ?_, fun a other => ?_⟩
  · rw [pinBit, sameStored, cfg]; exact h.bit
  · rw [sameStored]; exact h.bits i other
  · rw [mem]; exact h.bytes a other

/-- A byte stored with the pin's bit replaced. -/
theorem of_setBit (cfg : t.cfg = s.cfg) (bytes : KeepsOtherBytes s t (regOf s.cfg k p))
    (byte : stored t (regOf s.cfg k p) = setBit (stored s (regOf s.cfg k p)) (bitOf s.cfg p) v) :
    BitMoved k p v s t :=
  ⟨cfg, pinBit_of_setBit cfg byte, keepsOtherBits_setBit (bitOf_lt _ _) byte, bytes⟩

end BitMoved

/-- `t` is `s` with the bits of one pin in two kinds moved, `k` before `l`. -/
structure TwoBitsMoved (k l : Kind) (p : Nat) (v w : Bool) (s u t : State) : Prop where
  cfg : t.cfg = s.cfg
  first : pinBit t k p = v
  second : pinBit t l p = w
  firstBits : KeepsOtherBits s t (regOf s.cfg k p) (bitOf s.cfg p)
  secondBits : KeepsOtherBits s t (regOf s.cfg l p) (bitOf s.cfg p)
  bytes : ∀ a, a ≠ regAddr s.cfg (regOf s.cfg k p) → a ≠ regAddr s.cfg (regOf s.cfg l p) →
    readByte t.mem a = readByte s.mem a
  firstByte : stored t (regOf s.cfg k p) = stored u (regOf s.cfg k p)
  secondByte : stored u (regOf s.cfg l p) = stored s (regOf s.cfg l p)

/-- Two moves in different kinds do not disturb each other. -/
theorem BitMoved.twice {k l : Kind} {p : Nat} {v w : Bool} {s u t : State} (wf : ConfigWF s.cfg) (hp : p < s.cfg.pinCount)
    (differ : k ≠ l) (h : BitMoved k p v s u) (g : BitMoved l p w u t) : TwoBitsMoved k l p v w s u t := by
  have apart : regAddr s.cfg (regOf s.cfg k p) ≠ regAddr s.cfg (regOf s.cfg l p) := fun same =>
    differ (congrArg Reg.kind (regAddr_inj wf (regOf_mem k hp) (regOf_mem l hp) same))
  obtain ⟨cfg', bit', bits', bytes'⟩ := g
  obtain ⟨cfg, bit, bits, bytes⟩ := h
  rw [KeepsOtherBytes, cfg] at bytes'
  rw [cfg] at bits'
  have firstByte : stored t (regOf s.cfg k p) = stored u (regOf s.cfg k p) := by
    rw [stored, stored, cfg', cfg]; exact bytes' _ apart
  have secondByte : stored u (regOf s.cfg l p) = stored s (regOf s.cfg l p) := by
    rw [stored, stored, cfg]; exact bytes _ apart.symm
  refine ⟨cfg'.trans cfg, ?_, bit', fun i other => ?_, fun i other => ?_, fun a notFirst notSecond => ?_, firstByte, secondByte⟩
  · rw [pinBit, cfg', cfg, firstByte, ← bit, pinBit, cfg]
  · rw [firstByte]; exact bits i other
  · rw [bits' i other, secondByte]
  · rw [bytes' a notSecond, bytes a notFirst]

/-! ## The bit each operation moves -/

section
variable {s : State} (canonical : MemWF s.mem)
include canonical

/-- A read-modify-write of a storage kind (R128). -/
theorem bitMoved_afterRmw (c : Ctx) {op : BitOp} (notStatus : op.kind ≠ .sts) (notLevel : op.kind ≠ .lvl) :
    BitMoved op.kind op.pin op.v s (afterRmw c op s) :=
  .of_setBit (afterRmw_cfg c op s) (fun _ => afterRmw_readByte_ne c op s)
    (afterRmw_stored_plain canonical notStatus notLevel)

/-- A read-modify-write of `LVL`: an output's latch moves, an input's stays (R144, R145). -/
theorem bitMoved_afterRmw_lvl (c : Ctx) {p : Nat} (hp : p < s.cfg.pinCount) (v : Bool) :
    BitMoved .lvl p (if pinBit s .dir p then latch s p else v) s (afterRmw c ⟨p, .lvl, v⟩ s) := by
  have bits := afterRmw_lvl_bit (c := c) canonical hp v
  refine ⟨afterRmw_cfg _ _ s, ?_, fun i other => ?_, fun _ => afterRmw_readByte_ne c ⟨p, .lvl, v⟩ s⟩
  · rw [pinBit, afterRmw_cfg, bits]
    cases input : pinBit s .dir p <;> simp [latch, pinBit]
  · rw [bits, if_neg fun h => other h.1]

/-- An acknowledge (R154). -/
theorem bitMoved_afterAck (c : Ctx) (p : Nat) : BitMoved .sts p false s (afterAck c p s) :=
  .of_setBit rfl (fun _ => afterAck_readByte_ne c p s) (afterAck_stored_same canonical)

/-- An edge that sets a pending bit (R222). -/
theorem bitMoved_withPending (p : Nat) : BitMoved .sts p true s (withPending p s) :=
  .of_setBit rfl (store_keepsOtherBytes s _ _) (stored_withPending canonical p)

end

/-! ## Commands that change the page alone -/

theorem afterRmw_log (c : Ctx) (op : BitOp) (s : State) :
    (afterRmw c op s).log = s.log ++
      [.read c (regOff s.cfg (regOf s.cfg op.kind op.pin)) (readReg s (regOf s.cfg op.kind op.pin)),
        .write c (regOff s.cfg (regOf s.cfg op.kind op.pin))
          (setBit (readReg s (regOf s.cfg op.kind op.pin)) (bitOf s.cfg op.pin) op.v)] := by
  rw [afterRmw_frame]

theorem concluded_log (c : Ctx) (d : Bool) (s : State) :
    (concluded c d s).log = s.log ++ [.response c (respByte .ok d)] := rfl

/-- The page and the history alone differ, of what a command's pieces leave. -/
def PageMoved (s t : State) : Prop := t = { s with mem := t.mem, log := t.log }

theorem PageMoved.trans {s t u : State} (h : PageMoved s t) (g : PageMoved t u) : PageMoved s u := by
  rw [PageMoved] at h g
  rw [PageMoved, g, h]

theorem pageMoved_afterRmw (c : Ctx) (op : BitOp) (s : State) : PageMoved s (afterRmw c op s) := by
  rw [PageMoved, afterRmw_frame]

theorem pageMoved_afterAck (c : Ctx) (p : Nat) (s : State) : PageMoved s (afterAck c p s) := rfl

theorem onlyPage_concluded {s t : State} (h : PageMoved s t) (c : Ctx) (d : Bool) : OnlyPage s (concluded c d t) := by
  rw [PageMoved] at h
  rw [OnlyPage, h]
  rfl

theorem ready_concluded {s t : State} (ready : Ready s) (h : PageMoved s t) (canonical : MemWF t.mem) (c : Ctx)
    (d : Bool) : Ready (concluded c d t) := by
  obtain ⟨wf, -, lockFree, quiet⟩ := ready
  rw [PageMoved] at h
  refine ⟨?_, canonical, ?_, ?_⟩
  · rw [h]; exact wf
  · rw [h]; exact lockFree
  · rw [h]; exact quiet

theorem live_concluded {s t : State} (live : Live s) (h : PageMoved s t) (c : Ctx) (d : Bool) :
    Live (concluded c d t) := by
  rw [PageMoved] at h
  rw [h]
  exact live

/-! ## The bit commands -/

theorem exec_plain_ok {s : State} (ready : Ready s) (live : Live s) {i : Instr} {p : Nat} (hp : p < s.cfg.pinCount)
    {u : State} (isPin : pinOperand i = some p) (ends : okState i s = u) (trigger : ∀ t, i ≠ .settype p t)
    (resume : ∀ v, i ≠ .setwake p v) : exec i s = .next u := by
  rw [← ends]
  exact exec_pin_ok ready live isPin hp (fun t h => absurd h (trigger t)) fun v h => absurd h (resume v)

section
variable {s : State} (ready : Ready s) (live : Live s) {p : Nat} (hp : p < s.cfg.pinCount)
include ready live hp

theorem exec_dirin : exec (.dirin p) s = .next (concluded s.ctx false (afterRmw s.ctx ⟨p, .dir, true⟩ s)) :=
  exec_plain_ok ready live hp rfl rfl nofun nofun

theorem exec_dirout (v : Bool) : exec (.dirout p v) s =
    .next (concluded s.ctx false (afterRmw s.ctx ⟨p, .lvl, v⟩ (afterRmw s.ctx ⟨p, .dir, false⟩ s))) :=
  exec_plain_ok ready live hp rfl rfl nofun nofun

theorem exec_get : exec (.get p) s = .next (concluded s.ctx (level s p)
    (record (.read s.ctx (regOff s.cfg (regOf s.cfg .lvl p)) (readReg s (regOf s.cfg .lvl p))) s)) :=
  exec_plain_ok ready live hp rfl rfl nofun nofun

theorem exec_set (v : Bool) :
    exec (.set p v) s = .next (concluded s.ctx false (afterRmw s.ctx ⟨p, .lvl, v⟩ s)) :=
  exec_plain_ok ready live hp rfl rfl nofun nofun

theorem exec_irqen : exec (.irqen p) s = .next (concluded s.ctx false (afterRmw s.ctx ⟨p, .gpe, true⟩ s)) :=
  exec_plain_ok ready live hp rfl rfl nofun nofun

theorem exec_irqdis : exec (.irqdis p) s = .next (concluded s.ctx false (afterRmw s.ctx ⟨p, .gpe, false⟩ s)) :=
  exec_plain_ok ready live hp rfl rfl nofun nofun

theorem exec_ack : exec (.ack p) s = .next (concluded s.ctx false (afterAck s.ctx p s)) :=
  exec_plain_ok ready live hp rfl rfl nofun nofun

theorem exec_settype {t : Nat} (ht : t < 4) : exec (.settype p t) s = .next (concluded s.ctx false
    (afterRmw s.ctx ⟨p, .fte, t / 2 % 2 == 1⟩ (afterRmw s.ctx ⟨p, .rte, t % 2 == 1⟩ s))) :=
  exec_pin_ok ready live rfl hp (fun t' h => by cases h; exact ht) nofun

theorem exec_setwake (resume : s.cfg.resumeBoundary ≤ p) (v : Bool) :
    exec (.setwake p v) s = .next (concluded s.ctx false (controlAfter (.wake p v) s)) :=
  exec_pin_ok ready live rfl hp nofun fun _ _ => resume

end

/-- The three commands are one read-modify-write of a storage kind. -/
theorem exec_plainBit {s : State} (ready : Ready s) (live : Live s) {p : Nat} (hp : p < s.cfg.pinCount) {i : Instr}
    {k : Kind} {v : Bool} (plain : (i, k, v) ∈ [(Instr.dirin p, Kind.dir, true), (.irqen p, .gpe, true), (.irqdis p, .gpe, false)]) :
    k ≠ .sts ∧ k ≠ .lvl ∧ exec i s = .next (concluded s.ctx false (afterRmw s.ctx ⟨p, k, v⟩ s)) := by
  simp only [List.mem_cons, Prod.mk.injEq, List.not_mem_nil, or_false] at plain
  rcases plain with ⟨rfl, rfl, rfl⟩ | ⟨rfl, rfl, rfl⟩ | ⟨rfl, rfl, rfl⟩
  · exact ⟨nofun, nofun, exec_dirin ready live hp⟩
  · exact ⟨nofun, nofun, exec_irqen ready live hp⟩
  · exact ⟨nofun, nofun, exec_irqdis ready live hp⟩

/-- Settles O21: one read-modify-write of a storage kind moves the pin's bit and nothing else. -/
theorem plainBitCommands : Obligations.PlainBitCommands := by
  intro s p i k v ready live hp plain
  obtain ⟨notStatus, notLevel, runs⟩ := exec_plainBit ready live hp plain
  obtain ⟨-, canonical, -, -⟩ := ready
  have moved := bitMoved_afterRmw canonical s.ctx (op := ⟨p, k, v⟩) notStatus notLevel
  have byte := afterRmw_stored_plain (c := s.ctx) (op := ⟨p, k, v⟩) canonical notStatus notLevel
  refine ⟨_, runs, rfl, onlyPage_concluded (pageMoved_afterRmw _ _ _) _ _, moved.bit, moved.bits, moved.bytes, ?_⟩
  rw [concluded_log, afterRmw_log, List.append_assoc, readReg_of_not_lvl (by exact notLevel), ← byte]
  rfl

/-! ## Direction and level -/

/-- The two blocks of `DIROUT`: by the second the pin is an output, so its latch moves. -/
theorem dirout_moves (c : Ctx) {s : State} (wf : ConfigWF s.cfg) (canonical : MemWF s.mem) {p : Nat}
    (hp : p < s.cfg.pinCount) (v : Bool) :
    TwoBitsMoved .dir .lvl p false v s (afterRmw c ⟨p, .dir, false⟩ s)
      (afterRmw c ⟨p, .lvl, v⟩ (afterRmw c ⟨p, .dir, false⟩ s)) := by
  have first := bitMoved_afterRmw canonical c (op := ⟨p, .dir, false⟩) nofun nofun
  have second := bitMoved_afterRmw_lvl (afterRmw_keeps_wf canonical) c (p := p) (by rwa [first.cfg]) v
    (s := afterRmw c ⟨p, .dir, false⟩ s)
  rw [first.bit, if_neg Bool.false_ne_true] at second
  exact first.twice wf hp nofun second

/-- Settles O22: the level byte is read after the direction write, so the pin is an output by then. -/
theorem diroutDrivesTheLevel : Obligations.DiroutDrivesTheLevel := by
  intro s p v ready live hp
  have runs := exec_dirout ready live hp v
  obtain ⟨wf, canonical, -, -⟩ := ready
  have moved := dirout_moves s.ctx wf canonical hp v
  have moves := (pageMoved_afterRmw s.ctx ⟨p, .dir, false⟩ s).trans (pageMoved_afterRmw s.ctx ⟨p, .lvl, v⟩ _)
  have firstByte := afterRmw_stored_plain (c := s.ctx) (op := ⟨p, .dir, false⟩) canonical nofun nofun
  have byte : stored (concluded s.ctx false (afterRmw s.ctx ⟨p, .lvl, v⟩ (afterRmw s.ctx ⟨p, .dir, false⟩ s)))
      (regOf s.cfg .dir p) = setBit (stored s (regOf s.cfg .dir p)) (bitOf s.cfg p) false :=
    moved.firstByte.trans firstByte
  refine ⟨_, runs, rfl, onlyPage_concluded moves _ _, moved.first, moved.second, moved.firstBits, moved.secondBits,
    moved.bytes, byte, ?_⟩
  have levelByte : readReg (afterRmw s.ctx ⟨p, .dir, false⟩ s) (regOf s.cfg .lvl p) =
      readReg (writeReg s (regOf s.cfg .dir p) (setBit (stored s (regOf s.cfg .dir p)) (bitOf s.cfg p) false))
        (regOf s.cfg .lvl p) := by
    rw [writeReg_eq_store, writtenByte_of_plain (r := regOf s.cfg .dir p) nofun nofun]
    refine readReg_congr ?_ ?_ ?_ _
    · rw [afterRmw_mem, readReg_of_not_lvl (r := regOf s.cfg .dir p) nofun]; rfl
    · exact afterRmw_padin _ _ s
    · exact afterRmw_cfg _ _ s
  simp only [byte, concluded_log, afterRmw_log, afterRmw_cfg, levelByte, List.append_assoc, List.cons_append,
    List.nil_append, readReg_of_not_lvl (r := regOf s.cfg .dir p) nofun]

/-- Settles O23: the pin's level is its bit of the byte read. -/
theorem getReportsTheLevel : Obligations.GetReportsTheLevel := by
  intro s p ready live hp
  rw [exec_get ready live hp]
  simp [concluded, respond, record]

/-- Settles O24: the write is made either way; the latch of an input pin is out of its reach. -/
theorem setWritesOutputLatchesOnly : Obligations.SetWritesOutputLatchesOnly := by
  intro s p v ready live hp
  have runs := exec_set ready live hp v
  obtain ⟨-, canonical, -, -⟩ := ready
  have moved := bitMoved_afterRmw_lvl canonical s.ctx hp v
  refine ⟨_, runs, rfl, onlyPage_concluded (pageMoved_afterRmw _ _ _) _ _, moved.bit, moved.bits, moved.bytes, ?_⟩
  rw [concluded_log, afterRmw_log, List.append_assoc]
  rfl

/-! ## Two and three commands in a row -/

/-- A command that moved the page alone leaves a state the next command can run in. -/
theorem ready_live_after {s t : State} (ready : Ready s) (live : Live s) (moves : PageMoved s t) (canonical : MemWF t.mem)
    (c : Ctx) (d : Bool) : Ready (concluded c d t) ∧ Live (concluded c d t) :=
  ⟨ready_concluded ready moves canonical c d, live_concluded live moves c d⟩

theorem level_of_output {s : State} {p : Nat} (output : pinBit s .dir p = false) : level s p = latch s p := by
  rw [level, output, if_neg Bool.false_ne_true]

theorem level_of_input {s : State} {p : Nat} (input : pinBit s .dir p = true) : level s p = s.padin.getLsbD p :=
  if_pos input

/-- `GET` answers the level of the state before it. -/
theorem get_after {s t : State} (ready : Ready t) (live : Live t) {p : Nat} (hp : p < t.cfg.pinCount)
    (ctx : t.ctx = s.ctx) : ∃ u, exec (.get p) t = .next u ∧ Answered s u .ok (level t p) ∧ u.mem = t.mem ∧ u.cfg = t.cfg :=
  ⟨_, exec_get ready live hp, by rw [Answered, ← ctx]; rfl, rfl, rfl⟩

/-- Settles O25: after either command the pin is an output whose latch is the level. -/
theorem levelRoundTrip : Obligations.LevelRoundTrip := by
  intro s p v ready live hp
  have ⟨wf, canonical, _, _⟩ := ready
  refine ⟨fun output => ?_, ?_⟩
  · have moved := bitMoved_afterRmw_lvl canonical s.ctx hp v
    rw [output, if_neg Bool.false_ne_true] at moved
    obtain ⟨ready', live'⟩ := ready_live_after ready live (pageMoved_afterRmw s.ctx ⟨p, .lvl, v⟩ s)
      (afterRmw_keeps_wf canonical) s.ctx false
    obtain ⟨u, gets, answered, -, -⟩ := get_after (s := s) ready' live' (p := p) (moved.cfg.symm ▸ hp)
      (by rw [afterRmw_frame]; rfl)
    have stays : pinBit (afterRmw s.ctx ⟨p, .lvl, v⟩ s) .dir p = false :=
      (moved.otherKind (l := .dir) wf hp hp nofun).trans output
    rw [level_of_output (by exact stays)] at answered
    exact ⟨_, u, exec_set ready live hp v, gets, moved.bit ▸ answered⟩
  · have moved := dirout_moves s.ctx wf canonical hp v
    obtain ⟨ready', live'⟩ := ready_live_after ready live
      ((pageMoved_afterRmw s.ctx ⟨p, .dir, false⟩ s).trans (pageMoved_afterRmw s.ctx ⟨p, .lvl, v⟩ _))
      (afterRmw_keeps_wf (afterRmw_keeps_wf canonical)) s.ctx false
    obtain ⟨u, gets, answered, -, -⟩ := get_after (s := s) ready' live' (p := p) (moved.cfg.symm ▸ hp)
      (by rw [afterRmw_frame, afterRmw_frame]; rfl)
    rw [level_of_output (by exact moved.first)] at answered
    exact ⟨_, u, exec_dirout ready live hp v, gets, moved.second ▸ answered⟩

/-- Settles O26: the direction stays an input, so `SET` reaches no latch and `GET` looks at the pad. -/
theorem inputLevelIsReadOnly : Obligations.InputLevelIsReadOnly := by
  intro s p v ready live hp
  have ⟨wf, canonical, _, _⟩ := ready
  have runsDirin := exec_dirin ready live hp
  have first := bitMoved_afterRmw canonical s.ctx (op := ⟨p, .dir, true⟩) nofun nofun
  have canonical' : MemWF (afterRmw s.ctx ⟨p, .dir, true⟩ s).mem := afterRmw_keeps_wf canonical
  have moves := pageMoved_afterRmw s.ctx ⟨p, .dir, true⟩ s
  obtain ⟨ready', live'⟩ := ready_live_after ready live moves canonical' s.ctx false
  generalize reached : concluded s.ctx false (afterRmw s.ctx ⟨p, .dir, true⟩ s) = t at *
  have firstMoved : BitMoved .dir p true s t := first.congr (by rw [← reached]; rfl) (by rw [← reached]; rfl)
  have pads : t.padin = s.padin := by rw [← reached]; exact afterRmw_padin _ _ s
  have ctx : t.ctx = s.ctx := by rw [← reached, afterRmw_frame]; rfl
  have hp' : p < t.cfg.pinCount := firstMoved.cfg.symm ▸ hp
  have ⟨wf', canonical'', _, _⟩ := ready'
  have runsSet := exec_set ready' live' hp' v
  have second := bitMoved_afterRmw_lvl canonical'' t.ctx hp' v
  rw [firstMoved.bit, if_pos rfl] at second
  obtain ⟨ready'', live''⟩ := ready_live_after ready' live' (pageMoved_afterRmw t.ctx ⟨p, .lvl, v⟩ t)
    (afterRmw_keeps_wf canonical'') t.ctx false
  obtain ⟨x, gets, answered, mem, cfg⟩ := get_after (s := s) ready'' live'' (p := p) (second.cfg.symm ▸ hp')
    (by rw [afterRmw_frame]; exact ctx)
  have stillInput : pinBit (afterRmw t.ctx ⟨p, .lvl, v⟩ t) .dir p = true :=
    (second.otherKind (l := .dir) wf' hp' hp' nofun).trans firstMoved.bit
  rw [level_of_input (by exact stillInput)] at answered
  refine ⟨t, _, x, runsDirin, runsSet, gets, ?_, ?_, ?_⟩
  · rw [Answered, ← ctx]; rfl
  · rw [← pads, ← afterRmw_padin t.ctx ⟨p, .lvl, v⟩ t]; exact answered
  · have third : BitMoved .lvl p (latch t p) t x := second.congr mem cfg
    exact third.bit.trans (firstMoved.otherKind (l := .lvl) wf hp hp nofun)

end Sys2Proof.Proofs
end

section
/-! What the commands on one pin do to the pads (10_state.md R45), to the trigger type (R34) and to the two outputs
(60_exceptions.md R224, R225, 43_wakeset.md R174). -/

namespace Sys2Proof.Proofs
open Sys2Proof Sys2Proof.Machine

/-! ## Pads -/

theorem padOut_of_le {s : State} {p : Nat} (beyond : s.cfg.pinCount ≤ p) : padOut s p = none := by
  obtain ⟨-, -, -, -, noReg, -⟩ := bank_of_le beyond .dir
  simp [padOut, pinBit?, noReg]

theorem padOut_of_powered {s : State} {p : Nat} (hp : p < s.cfg.pinCount) (powered : Powered s p) :
    padOut s p = some (if pinBit s .dir p then .released else .drives (latch s p)) := by
  simp [padOut, pinBit?_of_lt _ hp, wellDark_of_powered powered, latch]

theorem powered_of_live {s : State} (live : Live s) (p : Nat) : Powered s p :=
  .inr (.inl (by rw [live.2]; nofun))

theorem padOut_of_live {s : State} (live : Live s) {p : Nat} (hp : p < s.cfg.pinCount) :
    padOut s p = some (if pinBit s .dir p then .released else .drives (latch s p)) :=
  padOut_of_powered hp (powered_of_live live p)

theorem padOut_congr {s t : State} (live : Live s) (live' : Live t) (cfg : t.cfg = s.cfg) {q : Nat}
    (hq : q < s.cfg.pinCount) (dir : pinBit t .dir q = pinBit s .dir q) (level : pinBit t .lvl q = pinBit s .lvl q) :
    padOut t q = padOut s q := by
  rw [padOut_of_live live hq, padOut_of_live live' (cfg.symm ▸ hq), dir, latch, latch, level]

section
variable {s : State} (ready : Ready s) (live : Live s) {p : Nat} (hp : p < s.cfg.pinCount)
include ready live hp

theorem pads_after_dirin :
    ∃ t, exec (.dirin p) s = .next t ∧ padOut t p = some .released ∧
      ∀ q, q < s.cfg.pinCount → q ≠ p → padOut t q = padOut s q := by
  have ⟨wf, canonical, _, _⟩ := ready
  have moved := bitMoved_afterRmw canonical s.ctx (op := ⟨p, .dir, true⟩) nofun nofun
  have live' := live_concluded live (pageMoved_afterRmw s.ctx ⟨p, .dir, true⟩ s) s.ctx false
  refine ⟨_, exec_dirin ready live hp, ?_, fun q hq other => ?_⟩
  · rw [padOut_of_live live' (moved.cfg.symm ▸ hp), if_pos (by exact moved.bit)]
  · exact padOut_congr live live' moved.cfg hq (moved.otherPin wf hp hq other) (moved.otherPin wf hp hq other)

theorem pads_after_dirout (v : Bool) :
    ∃ t, exec (.dirout p v) s = .next t ∧ padOut t p = some (.drives v) ∧
      ∀ q, q < s.cfg.pinCount → q ≠ p → padOut t q = padOut s q := by
  have ⟨wf, canonical, _, _⟩ := ready
  have first := bitMoved_afterRmw canonical s.ctx (op := ⟨p, .dir, false⟩) nofun nofun
  have hp' : p < (afterRmw s.ctx ⟨p, .dir, false⟩ s).cfg.pinCount := first.cfg.symm ▸ hp
  have second := bitMoved_afterRmw_lvl (afterRmw_keeps_wf canonical) s.ctx hp' v
  have moved := dirout_moves s.ctx wf canonical hp v
  have live' := live_concluded live
    ((pageMoved_afterRmw s.ctx ⟨p, .dir, false⟩ s).trans (pageMoved_afterRmw s.ctx ⟨p, .lvl, v⟩ _)) s.ctx false
  have stays (k : Kind) {q : Nat} (hq : q < s.cfg.pinCount) (other : q ≠ p) :
      pinBit (afterRmw s.ctx ⟨p, .lvl, v⟩ (afterRmw s.ctx ⟨p, .dir, false⟩ s)) k q = pinBit s k q :=
    (second.otherPin (by rw [first.cfg]; exact wf) hp' (first.cfg.symm ▸ hq) other).trans
      (first.otherPin wf hp hq other)
  refine ⟨_, exec_dirout ready live hp v, ?_, fun q hq other => ?_⟩
  · rw [padOut_of_live live' (moved.cfg.symm ▸ hp), if_neg (by exact ne_true_of_eq_false moved.first)]
    exact congrArg (fun b => some (Pad.drives b)) moved.second
  · exact padOut_congr live live' moved.cfg hq (stays .dir hq other) (stays .lvl hq other)

theorem pads_after_set (v : Bool) :
    ∃ t, exec (.set p v) s = .next t ∧ padOut t p = (if pinBit s .dir p then padOut s p else some (.drives v)) ∧
      ∀ q, q < s.cfg.pinCount → q ≠ p → padOut t q = padOut s q := by
  have ⟨wf, canonical, _, _⟩ := ready
  have moved := bitMoved_afterRmw_lvl canonical s.ctx hp v
  have live' := live_concluded live (pageMoved_afterRmw s.ctx ⟨p, .lvl, v⟩ s) s.ctx false
  have direction := moved.otherKind (l := .dir) wf hp hp nofun
  refine ⟨_, exec_set ready live hp v, ?_, fun q hq other => ?_⟩
  · cases input : pinBit s .dir p with
    | true =>
      have keeps := moved.bit
      rw [input, if_pos rfl] at keeps
      rw [if_pos rfl]
      exact padOut_congr live live' moved.cfg hp direction keeps
    | false =>
      have drives := moved.bit
      rw [input] at direction
      rw [input, if_neg Bool.false_ne_true] at drives
      rw [padOut_of_live live' (moved.cfg.symm ▸ hp), if_neg (by exact ne_true_of_eq_false direction),
        if_neg Bool.false_ne_true]
      exact congrArg (fun b => some (Pad.drives b)) drives
  · exact padOut_congr live live' moved.cfg hq (moved.otherPin wf hp hq other) (moved.otherPin wf hp hq other)

end

/-- Settles O28: a pad shows the pin's two bits alone, so it moves where they do. -/
theorem padsShowDirectionAndLatch : Obligations.PadsShowDirectionAndLatch := by
  refine fun s => ⟨fun p beyond => padOut_of_le beyond, fun p hp powered => padOut_of_powered hp powered,
    fun p v ready live hp i pad listed => ?_⟩
  simp only [List.mem_cons, Prod.mk.injEq, List.not_mem_nil, or_false] at listed
  rcases listed with ⟨rfl, rfl⟩ | ⟨rfl, rfl⟩ | ⟨rfl, rfl⟩
  · exact pads_after_dirout ready live hp v
  · exact pads_after_dirin ready live hp
  · exact pads_after_set ready live hp v

/-! ## The trigger type -/

/-- R93: the two low bits of the operand, as `trigBits` reads them. -/
theorem testBit_of_type {t : Nat} : (t % 2 == 1) = t.testBit 0 ∧ (t / 2 % 2 == 1) = t.testBit 1 := by
  refine ⟨?_, ?_⟩ <;> simp [Nat.testBit_eq_decide_div_mod_eq, beq_eq_decide]

/-- R34, R151: the type named by the two bits of an operand below 4. -/
theorem trigOfBits_testBit {t : Nat} (ht : t < 4) :
    some (trigOfBits (t.testBit 0) (t.testBit 1)) = [TrigType.none, .rising, .falling, .both][t]? := by
  match t, ht with
  | 0, _ | 1, _ | 2, _ | 3, _ => rfl

/-- The two writes of `SETTYPE`. -/
theorem settype_moves (c : Ctx) {s : State} (wf : ConfigWF s.cfg) (canonical : MemWF s.mem) {p : Nat}
    (hp : p < s.cfg.pinCount) (rising falling : Bool) :
    TwoBitsMoved .rte .fte p rising falling s (afterRmw c ⟨p, .rte, rising⟩ s)
      (afterRmw c ⟨p, .fte, falling⟩ (afterRmw c ⟨p, .rte, rising⟩ s)) :=
  (bitMoved_afterRmw canonical c (op := ⟨p, .rte, rising⟩) nofun nofun).twice wf hp nofun
    (bitMoved_afterRmw (afterRmw_keeps_wf canonical) c (op := ⟨p, .fte, falling⟩) nofun nofun)

/-- Settles O29: two read-modify-writes of one block, in kinds that do not disturb each other. -/
theorem settypeNamesTheType : Obligations.SettypeNamesTheType := by
  intro s p t ready live hp ht
  have runs := exec_settype ready live hp ht
  obtain ⟨wf, canonical, -, -⟩ := ready
  obtain ⟨isRising, isFalling⟩ := testBit_of_type (t := t)
  rw [isRising, isFalling] at runs
  have moved := settype_moves s.ctx wf canonical hp (t.testBit 0) (t.testBit 1)
  have moves := (pageMoved_afterRmw s.ctx ⟨p, .rte, t.testBit 0⟩ s).trans (pageMoved_afterRmw s.ctx ⟨p, .fte, t.testBit 1⟩ _)
  have rteByte := afterRmw_stored_plain (c := s.ctx) (op := ⟨p, .rte, t.testBit 0⟩) canonical nofun nofun
  have fteByte := afterRmw_stored_plain (c := s.ctx) (op := ⟨p, .fte, t.testBit 1⟩)
    (s := afterRmw s.ctx ⟨p, .rte, t.testBit 0⟩ s) (afterRmw_keeps_wf canonical) nofun nofun
  simp only [afterRmw_cfg, moved.secondByte] at fteByte
  refine ⟨_, runs, rfl, onlyPage_concluded moves _ _, moved.first, moved.second, ?_, moved.firstBits, moved.secondBits,
    moved.bytes, ?_⟩
  · rw [← trigOfBits_testBit ht]
    exact congrArg some (congrArg₂ trigOfBits moved.first moved.second)
  · have sameStored (r : Reg) (u : State) : stored (concluded s.ctx false u) r = stored u r := rfl
    simp only [concluded_log, afterRmw_log, afterRmw_cfg, List.append_assoc, List.cons_append, List.nil_append,
      readReg_of_not_lvl (r := regOf s.cfg .rte p) nofun, readReg_of_not_lvl (r := regOf s.cfg .fte p) nofun,
      sameStored, moved.firstByte, moved.secondByte, rteByte, fteByte]

/-- Settles O30: one write of the one-hot byte, without a read. -/
theorem ackClearsOnePendingBit : Obligations.AckClearsOnePendingBit := by
  intro s p ready live hp
  have runs := exec_ack ready live hp
  obtain ⟨-, canonical, -, -⟩ := ready
  have moved := bitMoved_afterAck canonical s.ctx p
  refine ⟨_, runs, rfl, onlyPage_concluded (pageMoved_afterAck _ _ _) _ _, moved.bit, moved.bits, moved.bytes, ?_⟩
  rw [concluded_log, afterAck_frame, List.append_assoc]
  rfl

/-! ## What raises and drops the outputs -/

theorem lineOut_eq_false_iff (s : State) : lineOut s = false ↔ (s.cfg.hasLine = true → ∀ q, q < s.cfg.pinCount →
    (pinBit s .sts q && pinBit s .gpe q) = false) := by
  rw [← Bool.not_eq_true, lineOut_iff]
  simp only [not_and, not_exists, Bool.and_eq_false_imp, Bool.not_eq_true]

theorem wakeOut_eq_false_iff (s : State) : wakeOut s = false ↔ ∀ q, q < s.cfg.pinCount →
    (s.wake.getLsbD q && pinBit s .sts q) = false := by
  rw [← Bool.not_eq_true, wakeOut_iff]
  simp only [not_exists, not_and, Bool.and_eq_false_imp, Bool.not_eq_true]

/-- A pin both pending and enabled, in one of the two kinds by the move, raises the line. -/
theorem lineOut_of_bits {s : State} (hasLine : s.cfg.hasLine = true) {p : Nat} (hp : p < s.cfg.pinCount)
    (pending : pinBit s .sts p = true) (enabled : pinBit s .gpe p = true) : lineOut s = true :=
  (lineOut_iff s).2 ⟨hasLine, p, hp, pending, enabled⟩

theorem wakeOut_of_bits {s : State} {p : Nat} (hp : p < s.cfg.pinCount) (marked : s.wake.getLsbD p = true)
    (pending : pinBit s .sts p = true) : wakeOut s = true :=
  (wakeOut_iff s).2 ⟨p, hp, marked, pending⟩

section
variable {s t : State} (wf : ConfigWF s.cfg) {p : Nat} (hp : p < s.cfg.pinCount)
include wf hp

/-- The line drops when its last pin loses its pending or its enable bit. -/
theorem lineOut_drops {k : Kind} (hk : k = .sts ∨ k = .gpe) (moved : BitMoved k p false s t)
    (last : ∀ q, q < s.cfg.pinCount → q ≠ p → (pinBit s .sts q && pinBit s .gpe q) = false) : lineOut t = false := by
  refine (lineOut_eq_false_iff t).2 fun _ q hq => ?_
  rw [moved.cfg] at hq
  by_cases same : q = p
  · subst same
    rcases hk with rfl | rfl
    · rw [moved.bit, Bool.false_and]
    · rw [moved.bit, Bool.and_false]
  · rw [moved.otherPin wf hp hq same, moved.otherPin wf hp hq same]
    exact last q hq same

/-- An acknowledge of the last marked pending pin drops `WAKE_OUT`. -/
theorem wakeOut_drops (moved : BitMoved .sts p false s t) (wake : t.wake = s.wake)
    (last : ∀ q, q < s.cfg.pinCount → q ≠ p → (s.wake.getLsbD q && pinBit s .sts q) = false) : wakeOut t = false := by
  refine (wakeOut_eq_false_iff t).2 fun q hq => ?_
  rw [moved.cfg] at hq
  by_cases same : q = p
  · subst same
    rw [moved.bit, Bool.and_false]
  · rw [wake, moved.otherPin wf hp hq same]
    exact last q hq same

omit wf in
/-- An edge on an armed, powered pin: its pending bit is set, every other bit and the wake bitmap stay. -/
theorem bitMoved_edge (canonical : MemWF s.mem) (powered : Powered s p) {e : Edge}
    (armed : pinBit s (triggerKind e) p = true) :
    BitMoved .sts p true s (envStep (.edge p e) s) ∧ (envStep (.edge p e) s).wake = s.wake := by
  rw [envStep_edge hp powered, armed]
  exact ⟨(bitMoved_withPending canonical p).congr rfl rfl, rfl⟩

end

theorem controlAfter_wake_page (p : Nat) (v : Bool) (s : State) :
    (controlAfter (.wake p v) s).mem = s.mem ∧ (controlAfter (.wake p v) s).cfg = s.cfg := by
  cases v <;> exact ⟨rfl, rfl⟩

/-- `SETWAKE` leaves every bit of the page. -/
theorem pinBit_setwake (c : Ctx) (p : Nat) (v : Bool) (s : State) (k : Kind) (q : Nat) :
    pinBit (concluded c false (controlAfter (.wake p v) s)) k q = pinBit s k q := by
  obtain ⟨mem, cfg⟩ := controlAfter_wake_page p v s
  have sameCfg : (concluded c false (controlAfter (.wake p v) s)).cfg = s.cfg := cfg
  rw [pinBit, pinBit, sameCfg, stored_congr (t := concluded c false (controlAfter (.wake p v) s)) mem sameCfg]

section
variable {s : State} (ready : Ready s) (live : Live s) {p : Nat} (hp : p < s.cfg.pinCount)
include ready live hp

theorem irqen_raises_line (hasLine : s.cfg.hasLine = true) (pending : pinBit s .sts p = true) :
    ∃ t, exec (.irqen p) s = .next t ∧ lineOut t = true := by
  have runs := exec_irqen ready live hp
  obtain ⟨wf, canonical, -, -⟩ := ready
  have enables := bitMoved_afterRmw canonical s.ctx (op := ⟨p, .gpe, true⟩) nofun nofun
  have stillPending := (enables.otherKind (l := .sts) wf hp hp nofun).trans pending
  exact ⟨_, runs, lineOut_of_bits (s := concluded _ _ _) (enables.cfg.symm ▸ hasLine) (enables.cfg.symm ▸ hp) stillPending
    enables.bit⟩

theorem edge_raises_line {e : Edge} (hasLine : s.cfg.hasLine = true) (enabled : pinBit s .gpe p = true)
    (armed : pinBit s (triggerKind e) p = true) : lineOut (envStep (.edge p e) s) = true := by
  obtain ⟨wf, canonical, -, -⟩ := ready
  have moved := (bitMoved_edge hp canonical (powered_of_live live p) armed).1
  have stillEnabled := (moved.otherKind (l := .gpe) wf hp hp nofun).trans enabled
  exact lineOut_of_bits (moved.cfg.symm ▸ hasLine) (moved.cfg.symm ▸ hp) moved.bit stillEnabled

theorem ack_or_irqdis_drops_line
    (last : ∀ q, q < s.cfg.pinCount → q ≠ p → (pinBit s .sts q && pinBit s .gpe q) = false) {i : Instr}
    (listed : i ∈ [Instr.ack p, .irqdis p]) : ∃ t, exec i s = .next t ∧ lineOut t = false := by
  have ⟨wf, canonical, _, _⟩ := ready
  rcases List.mem_pair.1 listed with rfl | rfl
  · have moved := bitMoved_afterAck canonical s.ctx p
    exact ⟨_, exec_ack ready live hp, lineOut_drops wf hp (.inl rfl) (moved.congr rfl rfl) last⟩
  · have moved := bitMoved_afterRmw canonical s.ctx (op := ⟨p, .gpe, false⟩) nofun nofun
    exact ⟨_, exec_irqdis ready live hp, lineOut_drops wf hp (.inr rfl) (moved.congr rfl rfl) last⟩

theorem mark_raises_wakeOut (resume : s.cfg.resumeBoundary ≤ p) (pending : pinBit s .sts p = true) :
    ∃ t, exec (.setwake p true) s = .next t ∧ wakeOut t = true := by
  have runs := exec_setwake ready live hp resume true
  obtain ⟨wf, -, -, -⟩ := ready
  have marks := controlAfter_wake_bit (lt_64_of_lt_pinCount wf hp) true s p
  rw [if_pos rfl] at marks
  exact ⟨_, runs, wakeOut_of_bits (s := concluded _ _ _) hp marks ((pinBit_setwake _ _ _ _ _ _).trans pending)⟩

theorem ack_or_unmark_drops_wakeOut
    (last : ∀ q, q < s.cfg.pinCount → q ≠ p → (s.wake.getLsbD q && pinBit s .sts q) = false)
    (resume : s.cfg.resumeBoundary ≤ p) {i : Instr} (listed : i ∈ [Instr.ack p, .setwake p false]) :
    ∃ t, exec i s = .next t ∧ wakeOut t = false := by
  have ⟨wf, canonical, _, _⟩ := ready
  rcases List.mem_pair.1 listed with rfl | rfl
  · have moved := bitMoved_afterAck canonical s.ctx p
    exact ⟨_, exec_ack ready live hp, wakeOut_drops wf hp (moved.congr rfl rfl) rfl last⟩
  · refine ⟨_, exec_setwake ready live hp resume false, (wakeOut_eq_false_iff _).2 fun q hq => ?_⟩
    have marks : (concluded s.ctx false (controlAfter (.wake p false) s)).wake.getLsbD q =
        if q = p then false else s.wake.getLsbD q := controlAfter_wake_bit (lt_64_of_lt_pinCount wf hp) false s q
    rw [pinBit_setwake, marks]
    by_cases same : q = p
    · rw [if_pos same, Bool.false_and]
    · rw [if_neg same]; exact last q hq same

end

/-- R174: an edge on a marked, armed resume-well pin, whose well always has power. -/
theorem edge_raises_wakeOut {s : State} {p : Nat} {e : Edge} (canonical : MemWF s.mem)
    (resume : s.cfg.resumeBoundary ≤ p) (hp : p < s.cfg.pinCount) (marked : s.wake.getLsbD p = true)
    (armed : pinBit s (triggerKind e) p = true) : wakeOut (envStep (.edge p e) s) = true := by
  obtain ⟨moved, wake⟩ := bitMoved_edge hp canonical (.inl resume) armed
  exact wakeOut_of_bits (moved.cfg.symm ▸ hp) (wake.symm ▸ marked) moved.bit

/-- Settles O35: each cause moves one of the bits the equations of R224 and R174 look at. -/
theorem lineAndWakeOutFollowTheirCauses : Obligations.LineAndWakeOutFollowTheirCauses :=
  ⟨fun _ _ ready live hp => ⟨irqen_raises_line ready live hp, fun _ => edge_raises_line ready live hp,
    fun last _ => ack_or_irqdis_drops_line ready live hp last, mark_raises_wakeOut ready live hp,
    fun last resume _ => ack_or_unmark_drops_wakeOut ready live hp last resume⟩,
    fun _ _ _ _ canonical resume hp marked armed => edge_raises_wakeOut canonical resume hp marked armed⟩

end Sys2Proof.Proofs
end

section
/-! The sweeps of `DISALL` and `DETACH` (42_irqcontroller.md R156, 45_lifecycle.md R201) and the dispatcher
(R157, R160, R223, R229), when nobody else acts. -/

namespace Sys2Proof.Proofs
open Sys2Proof Sys2Proof.Machine

/-! ## `disable_all` -/

/-- R156: among no moves at all the sweep is the one of `ATTACH`, so it leaves every interrupt register clear. -/
theorem interruptsClear_afterWrites (c : Ctx) {s : State} (ready : Ready s) (active : s.pm = .active) :
    InterruptsClear (afterWrites c (disableAllRegs s.cfg) s) := by
  obtain ⟨wf, canonical, lockFree, quiet⟩ := ready
  have calm : Calm s := ⟨wf, canonical, active, by rw [quiet]; nofun⟩
  obtain ⟨t, u, sweeps, masks, status⟩ := doAction_disableAll_sweeps c false calm lockFree
  rw [doAction_disableAll_quiet c false wf lockFree quiet] at sweeps
  obtain rfl : afterWrites c (disableAllRegs s.cfg) s = u := congrArg Prod.snd (Host.Outcome.next.inj sweeps)
  exact interruptsClear_of_sweep masks status

theorem pageMoved_afterWrites (c : Ctx) (ws : List (Reg × Byte)) (s : State) : PageMoved s (afterWrites c ws s) := by
  rw [PageMoved, afterWrites_frame]

/-- Settles O36: the sweep, then the response. -/
theorem disallClearsEverySource : Obligations.DisallClearsEverySource := by
  intro s ready live
  have clear : InterruptsClear (okState .disall s) := interruptsClear_afterWrites s.ctx ready live.2
  have cfg : (okState .disall s).cfg = s.cfg := afterWrites_cfg _ _ s
  refine ⟨_, exec_disall_ok ready live, rfl, onlyPage_concluded (pageMoved_afterWrites _ _ _) _ _,
    fun r hr => clear r (cfg.symm ▸ hr), fun a untouched => afterWrites_disableAllRegs_readByte s.ctx s untouched,
    fun p hp => ?_, clear.lineOut_eq_false, congrArg (· ++ [_]) (afterWrites_disableAllRegs_log s.ctx s)⟩
  have hp' : p < (okState .disall s).cfg.pinCount := cfg.symm ▸ hp
  exact ⟨clear.trigType_eq_none hp', clear.pinBit_eq_false (by decide) hp'⟩

/-- Settles O40: the sweep, then the control state is retired with the response. -/
theorem detachRetiresTheController : Obligations.DetachRetiresTheController := by
  intro s ready live
  have clear : InterruptsClear (okState .detach s) := interruptsClear_afterWrites s.ctx ready live.2
  have cfg : (okState .detach s).cfg = s.cfg := afterWrites_cfg _ _ s
  refine ⟨_, exec_detach_ok ready live, rfl, fun r hr => clear r (cfg.symm ▸ hr),
    fun a untouched => afterWrites_disableAllRegs_readByte s.ctx s untouched,
    congrArg (· ++ [_]) (afterWrites_disableAllRegs_log s.ctx s), ?_⟩
  have moved := pageMoved_afterWrites s.ctx (disableAllRegs s.cfg) s
  rw [PageMoved] at moved
  rw [okState, moved]
  rfl

/-! ## The scan of one pin -/

/-- The events of the scan of one pin (R157), the status byte as the scan finds it. -/
def scanEvents (c : Ctx) (s : State) (p : Nat) (found : Byte) : List Event :=
  .read c (regOff s.cfg (regOf s.cfg .sts p)) found ::
    if pinBit s .sts p then
      [.write c (regOff s.cfg (regOf s.cfg .sts p)) (oneHot (bitOf s.cfg p)), .notify (s.cfg.virqBase + p)]
    else []

theorem afterAck_log (c : Ctx) (p : Nat) (s : State) : (afterAck c p s).log =
    s.log ++ [.write c (regOff s.cfg (regOf s.cfg .sts p)) (oneHot (bitOf s.cfg p))] := rfl

theorem afterScan_log (c : Ctx) (p : Nat) (s : State) :
    (afterScan c p s).log = s.log ++ scanEvents c s p (stored s (regOf s.cfg .sts p)) := by
  cases pending : pinBit s .sts p with
  | false => simp [afterScan, scanEvents, pending]
  | true =>
    simp only [afterScan, scanEvents, pending, if_true, notifyPin_log, afterAck_log, record_log, record_cfg, virqOf,
      List.append_assoc]
    rfl

theorem afterScan_mem (c : Ctx) (p : Nat) (s : State) :
    (afterScan c p s).mem = if pinBit s .sts p then (afterAck c p s).mem else s.mem := by
  cases pending : pinBit s .sts p with
  | false => simp [afterScan, pending]
  | true =>
    simp only [afterScan, pending, if_true, notifyPin_mem, afterAck_mem]
    rfl

/-- A scanned pin is not pending any more; one that was not found pending is left alone. -/
theorem bitMoved_afterScan (c : Ctx) (p : Nat) {s : State} (canonical : MemWF s.mem) :
    BitMoved .sts p false s (afterScan c p s) ∧ MemWF (afterScan c p s).mem := by
  have mem := afterScan_mem c p s
  cases pending : pinBit s .sts p with
  | false =>
    rw [pending, if_neg Bool.false_ne_true] at mem
    have stays : BitMoved .sts p false s s := ⟨rfl, pending, fun _ _ => rfl, fun _ _ => rfl⟩
    exact ⟨stays.congr mem (afterScan_cfg c p s), mem ▸ canonical⟩
  | true =>
    rw [pending, if_pos rfl] at mem
    exact ⟨(bitMoved_afterAck canonical c p).congr mem (afterScan_cfg c p s), mem ▸ afterAck_keeps_wf canonical⟩

/-! ## The scan of the pins below `n` -/

/-- Bit `j` of byte `i` of a well belongs to a pin below `n`. -/
def PinBelow (c : Config) (n : Nat) (w : Well) (i j : Nat) : Prop :=
  j < 8 ∧ 8 * i + j < pinsIn c w ∧ firstPin c w + 8 * i + j < n

/-- `t` is `s`, dispatcher entered, after the scan of the pins below `n`. -/
structure Scanned (c : Ctx) (n : Nat) (s t : State) : Prop where
  frame : t = { s with
    mem := t.mem, log := t.log, scan := n, handled := !((List.range n).filter fun p => pinBit s .sts p).isEmpty }
  canonical : MemWF t.mem
  cleared : ∀ w i j, i < bytesIn s.cfg w → PinBelow s.cfg n w i j → (stored t ⟨.sts, w, i⟩).getLsbD j = false
  kept : ∀ w i j, i < bytesIn s.cfg w → ¬ PinBelow s.cfg n w i j →
    (stored t ⟨.sts, w, i⟩).getLsbD j = (stored s ⟨.sts, w, i⟩).getLsbD j
  bytes : ∀ a, (∀ r ∈ regsOfKind s.cfg .sts, a ≠ regAddr s.cfg r) → readByte t.mem a = readByte s.mem a
  log : t.log = s.log ++ (List.range n).flatMap fun p =>
    scanEvents c s p ((stored s (regOf s.cfg .sts p) >>> bitOf s.cfg p) <<< bitOf s.cfg p)

theorem pinBelow_regOf (c : Config) (p n j : Nat) :
    PinBelow c n (wellOf c p) (pinInWell c p / 8) j ↔
      j < 8 ∧ 8 * (pinInWell c p / 8) + j < pinsIn c (wellOf c p) ∧ p + j < n + bitOf c p := by
  have place := pin_eq c p
  rw [PinBelow]
  refine and_congr_right fun _ => and_congr_right fun _ => ?_
  omega

namespace Scanned

variable {c : Ctx} {n : Nat} {s t : State}

theorem cfg (h : Scanned c n s t) : t.cfg = s.cfg := by rw [h.frame]

theorem start (canonical : MemWF s.mem) : Scanned c 0 s (dispatchEnter s) :=
  ⟨rfl, canonical, fun _ _ _ _ below => absurd below.2.2 (Nat.not_lt_zero _), fun _ _ _ _ _ => rfl, fun _ _ => rfl,
    by simp⟩

theorem pinBit_eq (h : Scanned c n s t) {p : Nat} (hp : p < s.cfg.pinCount) :
    pinBit t .sts p = if p < n then false else pinBit s .sts p := by
  have inBank : pinInWell s.cfg p / 8 < bytesIn s.cfg (wellOf s.cfg p) := mem_regs.1 (regOf_mem .sts hp)
  have isBelow : PinBelow s.cfg n (wellOf s.cfg p) (pinInWell s.cfg p / 8) (bitOf s.cfg p) ↔ p < n := by
    rw [pinBelow_regOf]
    exact ⟨fun below => by omega, fun below => ⟨bitOf_lt _ _, bit_in_well hp, by omega⟩⟩
  rw [pinBit, pinBit, h.cfg, regOf]
  split
  · exact h.cleared _ _ _ inBank (isBelow.2 ‹_›)
  · exact h.kept _ _ _ inBank (mt isBelow.1 ‹_›)

/-- The status byte of the next pin: the pins below it in the byte are acknowledged already. -/
theorem found (h : Scanned c n s t) (hn : n < s.cfg.pinCount) :
    stored t (regOf s.cfg .sts n) = (stored s (regOf s.cfg .sts n) >>> bitOf s.cfg n) <<< bitOf s.cfg n := by
  have inBank : pinInWell s.cfg n / 8 < bytesIn s.cfg (wellOf s.cfg n) := mem_regs.1 (regOf_mem .sts hn)
  have isPin := bit_in_well hn
  refine BitVec.eq_of_getLsbD_eq fun j hj => ?_
  have isBelow : PinBelow s.cfg n (wellOf s.cfg n) (pinInWell s.cfg n / 8) j ↔ j < bitOf s.cfg n := by
    rw [pinBelow_regOf]
    exact ⟨fun below => by omega, fun below => ⟨hj, by omega, by omega⟩⟩
  simp only [BitVec.getLsbD_shiftLeft, BitVec.getLsbD_ushiftRight, hj, decide_true, Bool.true_and]
  by_cases below : j < bitOf s.cfg n
  · rw [regOf, h.cleared _ _ _ inBank (isBelow.2 below), decide_eq_true below]
    rfl
  · rw [regOf, h.kept _ _ _ inBank (mt isBelow.1 below), decide_eq_false below, Nat.add_sub_cancel' (Nat.le_of_not_lt below)]
    rfl

/-- The next pin's bit is one more pin below. -/
theorem pinBelow_succ (wf : ConfigWF s.cfg) (hn : n < s.cfg.pinCount) {w : Well} {i j : Nat} (inBank : i < bytesIn s.cfg w) :
    PinBelow s.cfg (n + 1) w i j ↔
      PinBelow s.cfg n w i j ∨ ((⟨.sts, w, i⟩ : Reg) = regOf s.cfg .sts n ∧ j = bitOf s.cfg n) := by
  constructor
  · rintro ⟨hj, isPin, below⟩
    rcases Nat.lt_or_ge (firstPin s.cfg w + 8 * i + j) n with earlier | later
    · exact .inl ⟨hj, isPin, earlier⟩
    · obtain same : firstPin s.cfg w + 8 * i + j = n := by omega
      have reg := regOf_of_bit wf hj isPin .sts
      obtain ⟨-, -, -, bit⟩ := pin_of_bit wf.1.1 hj isPin
      rw [same] at reg bit
      exact .inr ⟨reg.symm, bit.symm⟩
  · rintro (⟨hj, isPin, below⟩ | ⟨reg, rfl⟩)
    · exact ⟨hj, isPin, by omega⟩
    · have well : w = wellOf s.cfg n := congrArg Reg.well reg
      have byte : i = pinInWell s.cfg n / 8 := congrArg Reg.idx reg
      subst well byte
      rw [pinBelow_regOf]
      exact ⟨bitOf_lt _ _, bit_in_well hn, by omega⟩

theorem next (h : Scanned c n s t) (wf : ConfigWF s.cfg) (hn : n < s.cfg.pinCount) :
    Scanned c (n + 1) s (afterScan c n t) := by
  have wf' : ConfigWF t.cfg := h.cfg.symm ▸ wf
  have pending : pinBit t .sts n = pinBit s .sts n := by rw [h.pinBit_eq hn, if_neg (Nat.lt_irrefl n)]
  obtain ⟨moved, canonical⟩ := bitMoved_afterScan c n h.canonical
  obtain ⟨cfg, bit, bits, bytes⟩ := moved
  rw [KeepsOtherBytes, h.cfg] at bytes
  rw [h.cfg] at bits
  have bit' : (stored (afterScan c n t) (regOf s.cfg .sts n)).getLsbD (bitOf s.cfg n) = false := by
    rw [pinBit, cfg, h.cfg] at bit; exact bit
  have otherReg {w : Well} {i : Nat} (inBank : i < bytesIn s.cfg w) (other : (⟨.sts, w, i⟩ : Reg) ≠ regOf s.cfg .sts n) :
      stored (afterScan c n t) ⟨.sts, w, i⟩ = stored t ⟨.sts, w, i⟩ := by
    rw [stored, stored, cfg, h.cfg]
    exact bytes _ fun same => other (regAddr_inj wf (mem_regs.2 inBank) (regOf_mem .sts hn) same)
  have stays {w : Well} {i j : Nat} (inBank : i < bytesIn s.cfg w)
      (other : ¬ ((⟨.sts, w, i⟩ : Reg) = regOf s.cfg .sts n ∧ j = bitOf s.cfg n)) :
      (stored (afterScan c n t) ⟨.sts, w, i⟩).getLsbD j = (stored t ⟨.sts, w, i⟩).getLsbD j := by
    by_cases reg : (⟨.sts, w, i⟩ : Reg) = regOf s.cfg .sts n
    · rw [reg]; exact bits j fun same => other ⟨reg, same⟩
    · rw [otherReg inBank reg]
  refine ⟨?_, canonical, fun w i j inBank below => ?_, fun w i j inBank notBelow => ?_, fun a untouched => ?_, ?_⟩
  · have handled : (t.handled || pinBit t .sts n) =
        !((List.range (n + 1)).filter fun p => pinBit s .sts p).isEmpty := by
      rw [pending, h.frame, List.range_succ, List.filter_append]
      cases found : pinBit s .sts n <;> simp [found]
    rw [afterScan_frame, handled]
    have frame := h.frame
    generalize (afterScan c n t).mem = mem, (afterScan c n t).log = log
    rw [frame]
  · by_cases new : (⟨.sts, w, i⟩ : Reg) = regOf s.cfg .sts n ∧ j = bitOf s.cfg n
    · rw [new.1, new.2]; exact bit'
    · rw [stays inBank new]
      exact h.cleared w i j inBank (((pinBelow_succ wf hn inBank).1 below).resolve_right new)
  · rw [stays inBank fun new => notBelow ((pinBelow_succ wf hn inBank).2 (.inr new))]
    exact h.kept w i j inBank fun below => notBelow ((pinBelow_succ wf hn inBank).2 (.inl below))
  · rw [bytes a (untouched _ (mem_regsOfKind.2 ⟨rfl, mem_regs.1 (regOf_mem .sts hn)⟩))]
    exact h.bytes a untouched
  · rw [afterScan_log, h.log, List.append_assoc, List.range_succ, List.flatMap_append, List.flatMap_singleton,
      scanEvents, scanEvents, h.cfg, pending, h.found hn]

end Scanned

theorem afterScans_scanned (c : Ctx) {s : State} (wf : ConfigWF s.cfg) (canonical : MemWF s.mem) {n : Nat}
    (hn : n ≤ s.cfg.pinCount) : Scanned c n s (afterScans c (List.range n) (dispatchEnter s)) := by
  induction n with
  | zero => exact .start canonical
  | succ n ih =>
    rw [afterScans, List.range_succ, List.foldl_append]
    exact (ih (by omega)).next wf hn

/-! ## `DISPATCH` -/

/-- R160 (c): the notifications are those of the pending pins, in the order of the scan. -/
theorem notified_scanEvents (c : Ctx) (s : State) (ps : List Nat) (found : Nat → Byte) :
    (ps.flatMap fun p => scanEvents c s p (found p)).filterMap notified =
      (ps.filter fun p => pinBit s .sts p).map (virqOf s.cfg) := by
  induction ps with
  | nil => rfl
  | cons p ps ih =>
    rw [List.flatMap_cons, List.filterMap_append, ih]
    cases pending : pinBit s .sts p <;> simp [scanEvents, pending, List.filterMap_cons, notified, virqOf]

/-- Settles O37: the scan of all the pins, then the response. -/
theorem dispatchServesEveryPendingPin : Obligations.DispatchServesEveryPendingPin := by
  intro s ready live isOpen notNested
  have runs := exec_dispatch_ok ready live (by rw [dispatchMayStart, isOpen, notNested]; rfl)
  obtain ⟨wf, canonical, -, -⟩ := ready
  have scanned := afterScans_scanned s.ctx wf canonical (Nat.le_refl s.cfg.pinCount)
  have trace : scanTrace s = (List.range s.cfg.pinCount).flatMap fun p =>
      scanEvents s.ctx s p ((stored s (regOf s.cfg .sts p) >>> bitOf s.cfg p) <<< bitOf s.cfg p) := rfl
  rw [okState] at runs
  generalize afterScans s.ctx (List.range s.cfg.pinCount) (dispatchEnter s) = t at runs scanned
  have handled : t.handled = !(pendingPins s).isEmpty := by rw [scanned.frame]; rfl
  have noPending : ∀ p, p < s.cfg.pinCount → pinBit t .sts p = false := fun p hp => by
    rw [scanned.pinBit_eq hp, if_pos hp]
  have log : t.log = s.log ++ scanTrace s := scanned.log.trans (by rw [trace])
  simp only [handled] at runs
  refine ⟨_, runs, rfl, congrArg (· ++ [_]) log, ?_, noPending, fun w i j inBank reserved => ?_, scanned.bytes, ?_, ?_⟩
  · rw [concluded_log, log, List.append_assoc, List.drop_left, List.filterMap_append, trace, notified_scanEvents]
    simp [notified, pendingPins]
  · exact scanned.kept w i j inBank fun below => absurd below.2.1 (Nat.not_lt.2 reserved)
  · refine (lineOut_eq_false_iff _).2 fun _ q hq => ?_
    have hq' : q < s.cfg.pinCount := scanned.cfg ▸ hq
    rw [show pinBit (concluded _ _ t) .sts q = false from noPending q hq', Bool.false_and]
  · have frame := scanned.frame
    rw [← handled, concluded]
    generalize t.mem = mem, t.log = log' at frame
    rw [frame]
    rfl

/-! ## `DISPATCH` while it may not start -/

theorem dispatchMayStart_eq_false {s : State}
    (h : s.cfg.hasLine = false ∨ s.lineMasked = true ∨ s.delivOff = true ∨ dispatchInFlight s = true) :
    dispatchMayStart s = false := by
  rcases h with h | h | h | h <;> simp [dispatchMayStart, lineOpen, h]

/-- Settles O38: the gate of R223 is `DISPATCH`'s last check at the port and its first from another context. -/
theorem dispatchHasNoStepWhileMasked : Obligations.DispatchHasNoStepWhileMasked := by
  intro s closed
  have mayNot := dispatchMayStart_eq_false closed
  refine ⟨fun live => exec_of_begin_fault ?_, fun r attached decoded => ?_, fun attached inFlight => exec_of_begin_fault ?_⟩
  · rw [beginInstr, planDispatch, mayNot, if_neg Bool.false_ne_true, entryChecks_live live]
  · rw [startCommand, decoded]
    split
    · exact if_pos ⟨rfl, attached, mayNot⟩
    · rfl
  · rw [beginInstr, planPmsuspend, whenAttached_of_attached attached, whenNoDispatch, if_pos inFlight]
    exact ite_self _

end Sys2Proof.Proofs
end

section
/-! The outcome of every command (60_exceptions.md R220) and what it may change (R20, R35 to R41), when nobody
else acts. -/

namespace Sys2Proof.Proofs
open Sys2Proof Sys2Proof.Machine

/-! ## The order of the checks -/

/-- What a command answered with the status `st` leaves. -/
def endState (i : Instr) (st : Status) (s : State) : State := if st = .ok then okState i s else afterError s.ctx st s

/-- The command ends as its verdict says. -/
def EndsAs (i : Instr) (s : State) : Verdict → Prop
  | .contract => exec i s = .fault .undefinedByContract
  | .noStep => exec i s = .fault .dispatchHasNoStep
  | .status st => exec i s = .next (endState i st s)

theorem endState_of_error {st : Status} (notOk : st ≠ .ok) (i : Instr) (s : State) :
    endState i st s = afterError s.ctx st s := if_neg notOk

section
variable {i : Instr} {s : State}

theorem endsAs_ok (runs : exec i s = .next (okState i s)) : EndsAs i s (.status .ok) := runs

theorem endsAs_error {st : Status} (isError : st ≠ .ok ∧ st ≠ .logicError)
    (runs : exec i s = .next (respond s.ctx st false s)) : EndsAs i s (.status st) := by
  rw [EndsAs, endState_of_error isError.1, afterError_of_ne_logicError isError.2]
  exact runs

/-- A check decides between two verdicts. -/
theorem EndsAs.ite {P : Prop} [Decidable P] {yes no : Verdict} (h : P → EndsAs i s yes) (g : ¬ P → EndsAs i s no) :
    EndsAs i s (if P then yes else no) := by
  split
  exacts [h ‹_›, g ‹_›]

/-- Items (2) of R220. -/
theorem attach_endsAs (ready : Ready s) : EndsAs .attach s (attachVerdict s) := by
  refine .ite (fun attached => ?_) fun detached => ?_
  · exact endsAs_error (by decide) (exec_of_begin_raise (if_pos attached))
  have starts : beginInstr .attach s.ctx s.hs s =
      if !s.hs.variantOk then raise s.ctx .notSupported s
      else if !s.hs.ioOk then raise s.ctx .resourceBusy s
      else if !s.hs.virqOk then raise s.ctx .resourceBusy s
      else .next (.started [.disableAll, .attachDone] (attachInit s)) := if_neg detached
  refine .ite (fun variant => ?_) fun variantOk => .ite (fun io => ?_) fun ioOk => .ite (fun virq => ?_) fun virqOk => ?_
  · exact endsAs_error (by decide) (exec_of_begin_raise (by rw [starts, variant]; rfl))
  · rw [Bool.not_eq_false] at variantOk
    exact endsAs_error (by decide) (exec_of_begin_raise (by rw [starts, variantOk, io]; rfl))
  · rw [Bool.not_eq_false] at variantOk ioOk
    exact endsAs_error (by decide) (exec_of_begin_raise (by rw [starts, variantOk, ioOk, virq]; rfl))
  · rw [Bool.not_eq_false] at variantOk ioOk virqOk
    exact endsAs_ok (exec_attach_ok ready (Bool.not_eq_true _ ▸ detached) variantOk ioOk virqOk)

theorem moving_of_not_resting (h : pmResting s = false) : s.pm = .suspending ∨ s.pm = .resuming := by
  cases pm : s.pm <;> simp [pmResting, pm] at h ⊢

theorem resting_of_pmResting (h : pmResting s = true) : s.pm = .active ∨ s.pm = .suspended := by
  simpa [pmResting] using h

theorem allFlights_ne_nil_of_someInFlight (h : someInFlight s = true) : allFlights s ≠ [] := by
  simpa [someInFlight] using h

theorem contractBroken_of_activeOnly (h : activeOnly i = true) (s : State) :
    contractBroken i s = decide (s.pm ≠ .active) := by
  cases i with
  | attach | pmsuspend | pmsuspendnoirq | pmresumenoirq | pmresume => exact absurd h Bool.false_ne_true
  | _ => rfl

/-- Item (4) of R220. -/
theorem exec_of_contractBroken (attached : s.attached = true) (broken : contractBroken i s = true) :
    exec i s = .fault .undefinedByContract := by
  cases active : activeOnly i with
  | true =>
    rw [contractBroken_of_activeOnly active] at broken
    exact exec_of_not_active attached active (of_decide_eq_true broken)
  | false =>
    cases i with
    | attach => exact absurd broken Bool.false_ne_true
    | pmsuspend =>
      cases resting : pmResting s with
      | false => exact exec_pm_of_moving attached (.inl rfl) (moving_of_not_resting resting)
      | true =>
        have inFlight : dispatchInFlight s = true := by simpa [contractBroken, resting] using broken
        refine exec_of_begin_fault ?_
        rw [beginInstr, planPmsuspend, whenAttached_of_attached attached,
          whenResting_of_resting (resting_of_pmResting resting), whenNoDispatch, if_pos inFlight]
    | pmresume =>
      have moving : pmResting s = false := by simpa [contractBroken] using broken
      exact exec_pm_of_moving attached (.inr (.inl rfl)) (moving_of_not_resting moving)
    | pmsuspendnoirq =>
      rcases Bool.or_eq_true_iff.1 broken with inFlight | moving
      · exact exec_noirq_of_inFlight attached (.inl rfl) (allFlights_ne_nil_of_someInFlight inFlight)
      · exact exec_pm_of_moving attached (.inr (.inr rfl)) (moving_of_not_resting (by simpa using moving))
    | pmresumenoirq =>
      rcases Bool.or_eq_true_iff.1 broken with inFlight | notSuspended
      · exact exec_noirq_of_inFlight attached (.inr rfl) (allFlights_ne_nil_of_someInFlight inFlight)
      · obtain ⟨snapshot, pm⟩ := Bool.and_eq_true_iff.1 notSuspended
        exact exec_pmresumenoirq_of_not_suspended attached snapshot (of_decide_eq_true pm)
    | _ => exact absurd active.symm Bool.false_ne_true

theorem activeOnly_of_pinOperand {p : Nat} (h : pinOperand i = some p) : activeOnly i = true := by
  cases i with
  | attach | pmsuspend | pmsuspendnoirq | pmresumenoirq | pmresume => cases h
  | _ => rfl

theorem live_of_not_broken (attached : s.attached = true) (sound : contractBroken i s = false)
    (h : activeOnly i = true) : Live s := by
  rw [contractBroken_of_activeOnly h, decide_eq_false_iff_not, not_not] at sound
  exact ⟨attached, sound⟩

/-- Items (6) and (7) of R220 and the gate of R223. -/
theorem late_endsAs (ready : Ready s) (attached : s.attached = true) (notAttach : i ≠ .attach)
    (sound : contractBroken i s = false) (inRange : ∀ p, pinOperand i = some p → p < s.cfg.pinCount) :
    EndsAs i s (lateVerdict i s) := by
  have live := live_of_not_broken attached sound
  cases i with
  | dirin p | dirout p v | get p | set p v | irqen p | irqdis p | ack p =>
    exact endsAs_ok (exec_pin_ok ready (live rfl) rfl (inRange p rfl) nofun nofun)
  | settype p t =>
    refine .ite (fun unrecognised => ?_) fun recognised => ?_
    · exact endsAs_error (by decide) ((invalidArgumentCauses (.settype p t) p s (live rfl)).2 t rfl unrecognised)
    · exact endsAs_ok (exec_pin_ok ready (live rfl) rfl (inRange p rfl) (by rintro t ⟨⟩; omega) nofun)
  | setwake p v =>
    refine .ite (fun core => ?_) fun resume => ?_
    · exact endsAs_error (by decide) (exec_setwake_core (live rfl) (inRange p rfl) core v)
    · exact endsAs_ok (exec_pin_ok ready (live rfl) rfl (inRange p rfl) nofun (by rintro v ⟨⟩; omega))
  | disall => exact endsAs_ok (exec_disall_ok ready (live rfl))
  | detach => exact endsAs_ok (exec_detach_ok ready (live rfl))
  | attach => exact absurd rfl notAttach
  | dispatch =>
    refine .ite (fun mayStart => endsAs_ok (exec_dispatch_ok ready (live rfl) mayStart)) fun mayNot => ?_
    refine exec_of_begin_fault ?_
    rw [beginInstr, planDispatch, if_neg mayNot, entryChecks_live (live rfl)]
  | pmsuspend =>
    obtain ⟨resting, noDispatch⟩ := Bool.or_eq_false_iff.1 sound
    exact endsAs_ok (exec_pmsuspend_ok attached (resting_of_pmResting (by simpa using resting)) noDispatch)
  | pmresume => exact endsAs_ok (exec_pmresume_ok attached (resting_of_pmResting (by simpa [contractBroken] using sound)))
  | pmsuspendnoirq =>
    obtain ⟨idle, moving⟩ := Bool.or_eq_false_iff.1 sound
    have resting := resting_of_pmResting (by simpa using moving)
    refine .ite (fun ⟨hasLine, notMasked⟩ => ?_) fun masked => ?_
    · exact endsAs_error (by decide) (maskFailureChangesNothing s attached idle resting hasLine notMasked)
    · exact endsAs_ok (exec_pmsuspendnoirq_ok ready attached idle resting (by simpa using masked))
  | pmresumenoirq =>
    obtain ⟨idle, suspended⟩ := Bool.or_eq_false_iff.1 sound
    refine .ite (fun snapshot => ?_) fun noSnapshot => ?_
    · exact endsAs_ok (exec_pmresumenoirq_ok ready attached idle snapshot (by simpa [snapshot] using suspended))
    · rw [EndsAs, endState_of_error (by decide), afterError_logicError]
      exact missingSnapshotIsReported s attached idle (by simpa using noSnapshot)

theorem exec_endsAs (ready : Ready s) (i : Instr) : EndsAs i s (verdict i s) := by
  refine .ite (fun isAttach => isAttach ▸ attach_endsAs ready) fun notAttach => .ite (fun detached => ?_) fun attached => ?_
  · exact endsAs_error (by decide) (faultCauses.2 i s detached notAttach)
  rw [Bool.not_eq_false] at attached
  refine .ite (exec_of_contractBroken attached) fun sound => ?_
  rw [Bool.not_eq_true] at sound
  refine .ite (fun ⟨p, isPin, beyond⟩ => ?_) fun inRange => ?_
  · have live := live_of_not_broken attached sound (activeOnly_of_pinOperand isPin)
    exact endsAs_error (by decide) ((invalidArgumentCauses i p s live).1 isPin beyond)
  · exact late_endsAs ready attached notAttach sound fun p isPin =>
      Nat.lt_of_not_le fun beyond => inRange ⟨p, isPin, beyond⟩

end

/-! ## The outcomes -/

theorem okState_answered (i : Instr) {s : State} (ready : Ready s) : Answered s (okState i s) .ok (okData i s) := by
  cases i with
  | dispatch =>
    obtain ⟨wf, canonical, -, -⟩ := ready
    have scanned := afterScans_scanned s.ctx wf canonical (Nat.le_refl s.cfg.pinCount)
    have handled : (afterScans s.ctx (List.range s.cfg.pinCount) (dispatchEnter s)).handled = okData .dispatch s := by
      rw [scanned.frame]; rfl
    rw [Answered, okState, handled]
    rfl
  | _ => rfl

theorem endState_answered (i : Instr) (st : Status) {s : State} (ready : Ready s) :
    Answered s (endState i st s) st (st == .ok && okData i s) := by
  by_cases isOk : st = .ok
  · subst isOk
    exact okState_answered i ready
  · rw [endState_of_error isOk, beq_eq_false_iff_ne.2 isOk]
    rfl

/-- Settles O51: the checks of each command, in order. -/
theorem firstConditionDecides : Obligations.FirstConditionDecides := by
  refine ⟨fun r s e illegal => runRequest_of_illegal illegal s, fun i s ready => ?_⟩
  have ends := exec_endsAs ready i
  cases outcome : verdict i s with
  | contract => rw [outcome] at ends; exact ends
  | noStep => rw [outcome] at ends; exact ends
  | status st => rw [outcome] at ends; exact ⟨_, ends, endState_answered i st ready⟩

/-! ## What a command may change -/

/-- Every change from `s` to `t` is one that R20 and R35 to R41 let the command `i` make. -/
def ChangesAsListed (i : Instr) (s t : State) : Prop :=
  t.cfg = s.cfg ∧ t.padin = s.padin ∧ t.inflight = s.inflight ∧ t.port = s.port ∧ t.lock = .free ∧
  (t.wake ≠ s.wake → i = .attach ∨ i = .detach ∨ ∃ p v, i = .setwake p v) ∧
  (t.snap ≠ s.snap → i = .pmsuspendnoirq) ∧
  (t.snapValid ≠ s.snapValid → i = .attach ∨ i = .detach ∨ i = .pmsuspendnoirq ∨ i = .pmresumenoirq) ∧
  (t.pm ≠ s.pm ∨ t.lineMasked ≠ s.lineMasked → i = .attach ∨ i = .pmsuspendnoirq ∨ i = .pmresumenoirq) ∧
  (t.delivOff ≠ s.delivOff → i = .attach ∨ i = .pmsuspend ∨ i = .pmresume) ∧
  (t.attached ≠ s.attached → i = .attach ∨ i = .detach) ∧
  (t.fatal ≠ s.fatal → i = .pmresumenoirq) ∧
  (t.scan ≠ s.scan ∨ t.handled ≠ s.handled → i = .dispatch) ∧
  (t.mem ≠ s.mem → (∀ p, i ≠ .get p) ∧ (∀ p v, i ≠ .setwake p v) ∧ i ≠ .pmsuspend ∧ i ≠ .pmsuspendnoirq ∧ i ≠ .pmresume)

section
variable {i : Instr} {s t : State}

theorem changesAsListed_of_onlyPage (h : OnlyPage s t) (lockFree : s.lock = .free)
    (writer : t.mem ≠ s.mem → (∀ p, i ≠ .get p) ∧ (∀ p v, i ≠ .setwake p v) ∧ i ≠ .pmsuspend ∧ i ≠ .pmsuspendnoirq ∧
      i ≠ .pmresume) : ChangesAsListed i s t := by
  obtain ⟨mem, log, resp, rfl⟩ : ∃ mem log resp, t = { s with mem, log, resp, running := none } := ⟨_, _, _, h⟩
  simpa [ChangesAsListed, lockFree] using writer

theorem PageMoved.exists_page (h : PageMoved s t) : ∃ mem log, t = { s with mem, log } := ⟨_, _, h⟩

theorem okState_changesAsListed (i : Instr) (ready : Ready s) : ChangesAsListed i s (okState i s) := by
  obtain ⟨wf, canonical, lockFree, -⟩ := ready
  have page {t : State} (moved : PageMoved s t) (d : Bool)
      (writer : (∀ p, i ≠ .get p) ∧ (∀ p v, i ≠ .setwake p v) ∧ i ≠ .pmsuspend ∧ i ≠ .pmsuspendnoirq ∧ i ≠ .pmresume) :
      ChangesAsListed i s (concluded s.ctx d t) :=
    changesAsListed_of_onlyPage (onlyPage_concluded moved _ _) lockFree fun _ => writer
  cases i with
  | dirin p | set p v | irqen p | irqdis p => exact page (pageMoved_afterRmw _ _ _) _ (by simp)
  | dirout p v | settype p t => exact page ((pageMoved_afterRmw _ _ _).trans (pageMoved_afterRmw _ _ _)) _ (by simp)
  | ack p => exact page (pageMoved_afterAck _ _ _) _ (by simp)
  | disall => exact page (pageMoved_afterWrites _ _ _) _ (by simp)
  | get p => exact changesAsListed_of_onlyPage rfl lockFree fun changed => absurd rfl changed
  | setwake p v => cases v <;> simp [ChangesAsListed, okState, concluded, controlAfter, wakeSet, wakeClear, lockFree]
  | dispatch =>
    have frame := (afterScans_scanned s.ctx wf canonical (Nat.le_refl s.cfg.pinCount)).frame
    rw [okState, frame]
    simp [ChangesAsListed, concluded, lockFree]
  | attach =>
    obtain ⟨mem, log, moved⟩ := (pageMoved_afterWrites s.ctx (disableAllRegs s.cfg) (attachInit s)).exists_page
    rw [okState, moved]
    simp [ChangesAsListed, concluded, attachInit]
  | detach =>
    obtain ⟨mem, log, moved⟩ := (pageMoved_afterWrites s.ctx (disableAllRegs s.cfg) s).exists_page
    rw [okState, moved]
    simp [ChangesAsListed, concluded, lockFree]
  | pmsuspend | pmresume => simp [ChangesAsListed, okState, lockFree]
  | pmsuspendnoirq =>
    rw [okState, afterCapture_frame]
    simp [ChangesAsListed, concluded, lockFree]
  | pmresumenoirq =>
    obtain ⟨mem, log, moved⟩ :=
      (pageMoved_afterWrites s.ctx (restoreRegs s) { s with pm := .resuming, coreDark := false }).exists_page
    rw [okState, moved]
    simp [ChangesAsListed, concluded, lockFree]

theorem lateVerdict_logicError (h : lateVerdict i s = .status .logicError) : i = .pmresumenoirq := by
  cases i with
  | pmresumenoirq => rfl
  | settype | setwake | pmsuspendnoirq | dispatch => rw [lateVerdict] at h; split at h <;> cases h
  | _ => cases h

/-- R216: only one command is answered `LOGIC_ERROR`. -/
theorem verdict_logicError (h : verdict i s = .status .logicError) : i = .pmresumenoirq := by
  rw [verdict] at h
  split at h
  · rw [attachVerdict] at h
    repeat' split at h
    all_goals cases h
  · repeat' split at h
    case isFalse.isFalse.isFalse => exact lateVerdict_logicError h
    all_goals cases h

theorem afterError_changesAsListed {st : Status} (lockFree : s.lock = .free)
    (logicError : st = .logicError → i = .pmresumenoirq) : ChangesAsListed i s (afterError s.ctx st s) := by
  simpa [ChangesAsListed, afterError, lockFree] using fun isLogic _ => logicError isLogic

end

/-- Settles O53: by what the command ends as. -/
theorem controlStateWriters : Obligations.ControlStateWriters := by
  intro i s t ready runs
  obtain ⟨-, -, lockFree, -⟩ := id ready
  have ends := exec_endsAs ready i
  cases outcome : verdict i s with
  | contract | noStep => rw [outcome, EndsAs, runs] at ends; cases ends
  | status st =>
    rw [outcome, EndsAs, runs] at ends
    obtain rfl := Host.Outcome.next.inj ends
    by_cases isOk : st = .ok
    · subst isOk
      exact okState_changesAsListed i ready
    · rw [endState_of_error isOk]
      exact afterError_changesAsListed lockFree fun isLogic => verdict_logicError (isLogic ▸ outcome)

end Sys2Proof.Proofs
end

section
/-! The snapshot (44_pmcontext.md R182 to R187, R193): the capture, the write-back and the round trip. -/

namespace Sys2Proof.Proofs
open Sys2Proof Sys2Proof.Machine

/-! ## The bytes of the snapshot -/

/-- The place of a saved byte in the snapshot (R36, R185). -/
def savedPlace (b : Saved × Nat) : Nat := 8 * savedSlot b.1 + b.2

theorem savedReg_inj {a b : Saved × Nat} (h : savedReg a = savedReg b) : a = b :=
  Prod.ext (savedKind_inj (congrArg Reg.kind h)) (congrArg Reg.idx h)

theorem savedSlot_lt (k : Saved) : savedSlot k < 5 := by cases k <;> decide

/-- R185: the saved bytes stand in the order of their places in the snapshot. -/
theorem savedBytes_sorted {c : Config} (wf : ConfigWF c) :
    (savedBytes c).Pairwise fun a b => savedPlace a < savedPlace b := by
  have slots : Saved.all.Pairwise fun k l => savedSlot k < savedSlot l := by decide
  refine List.pairwise_flatMap.2 ⟨fun k _ => List.pairwise_map.2 ?_, slots.imp fun {k l} before x hx y hy => ?_⟩
  · exact List.pairwise_lt_range.imp fun {i j} below => Nat.add_lt_add_left below _
  · obtain ⟨i, hi, rfl⟩ := List.mem_map.1 hx
    obtain ⟨j, -, rfl⟩ := List.mem_map.1 hy
    have iBelow := (List.mem_range.1 hi).trans_le (bytesIn_le wf .core)
    simp only [savedPlace]
    omega

/-- A saved byte splits the order of R185 into the bytes with an earlier and those with a later place. -/
theorem savedBytes_split {c : Config} (wf : ConfigWF c) {b : Saved × Nat} (hb : b ∈ savedBytes c) :
    ∃ pre post, savedBytes c = pre ++ b :: post ∧ (∀ x ∈ savedBytes c, x ∈ pre ↔ savedPlace x < savedPlace b) ∧
      ∀ x ∈ post, savedPlace b < savedPlace x := by
  obtain ⟨pre, post, split⟩ := List.append_of_mem hb
  have sorted := savedBytes_sorted wf
  rw [split, List.pairwise_append, List.pairwise_cons] at sorted
  obtain ⟨-, ⟨after, -⟩, before⟩ := sorted
  refine ⟨pre, post, split, fun x hx => ⟨fun inPre => before x inPre b List.mem_cons_self, fun earlier => ?_⟩, after⟩
  rw [split, List.mem_append, List.mem_cons] at hx
  rcases hx with inPre | rfl | inPost
  · exact inPre
  · exact absurd earlier (Nat.lt_irrefl _)
  · exact absurd earlier (Nat.lt_asymm (after x inPost))

theorem snapByte_afterCapture (c : Ctx) {s : State} (wf : ConfigWF s.cfg) {b : Saved × Nat} (hb : b ∈ savedBytes s.cfg) :
    snapByte (afterCapture c (savedBytes s.cfg) s) b = readReg s (savedReg b) := by
  have places : ((savedBytes s.cfg).map savedPlace).Nodup :=
    List.pairwise_map.2 ((savedBytes_sorted wf).imp fun {x y} (before : savedPlace x < savedPlace y) => before.ne)
  refine afterCapture_snapByte c _ s places (fun x hx => ?_) hb
  have xBelow := (mem_savedBytes.1 hx).trans_le (bytesIn_le wf .core)
  have slotBelow := savedSlot_lt x.1
  omega

/-- R185, spelled out kind by kind. -/
theorem map_savedBytes_eq_snapshotOrder (c : Config) (v : Saved → Nat → Byte) :
    ((savedBytes c).map fun b => (regOff c (savedReg b), v b.1 b.2)) = snapshotOrder c v := by
  simp [savedBytes, Saved.all, snapshotOrder, coreBytes, regOff, savedReg, savedKind, baseOf, strideOf, bytesIn, pinsIn,
    Function.comp_def]

/-! ## `PMSUSPENDNOIRQ` -/

theorem someInFlight_eq_false_iff {s : State} : someInFlight s = false ↔ s.running = none ∧ s.inflight = [] := by
  simp [someInFlight, allFlights]

/-- Settles O42: the capture, then the response. -/
theorem suspendNoirqCaptures : Obligations.SuspendNoirqCaptures := by
  intro s ready attached idle resting masked
  refine ⟨_, exec_pmsuspendnoirq_ok ready attached idle resting masked, rfl, fun b hb => ?_, ?_, ?_⟩
  · obtain ⟨wf, -⟩ := ready
    exact snapByte_afterCapture s.ctx (s := { s with pm := .suspending, lineMasked := true }) wf hb
  · rw [okState, concluded_log, afterCapture_frame, ← map_savedBytes_eq_snapshotOrder, List.map_map]
    rfl
  · obtain ⟨notRunning, -⟩ := someInFlight_eq_false_iff.1 idle
    rw [okState, afterCapture_frame, concluded, ← notRunning]
    rfl

/-! ## `PMRESUMENOIRQ` -/

theorem afterWrites_append (c : Ctx) (ws vs : List (Reg × Byte)) (s : State) :
    afterWrites c (ws ++ vs) s = afterWrites c vs (afterWrites c ws s) := List.foldl_append

theorem stored_afterWrites_of_notMem {c : Ctx} {ws : List (Reg × Byte)} {s : State} (wf : ConfigWF s.cfg)
    (inBank : ∀ w ∈ ws, w.1 ∈ regs s.cfg) {r : Reg} (hr : r ∈ regs s.cfg) (other : ∀ w ∈ ws, w.1 ≠ r) :
    stored (afterWrites c ws s) r = stored s r := by
  rw [stored, stored, afterWrites_cfg]
  exact afterWrites_readByte_ne c ws s fun w hw same => other w hw (regAddr_inj wf hr (inBank w hw) same).symm

/-- A register of a kind other than `STS` and `LVL` holds what was written to it. -/
theorem stored_afterWrites_of_plain {c : Ctx} {ws : List (Reg × Byte)} {s : State} (wf : ConfigWF s.cfg)
    (canonical : MemWF s.mem) (inBank : ∀ x ∈ ws, x.1 ∈ regs s.cfg) {w : Reg × Byte} (hw : w ∈ ws)
    (agree : ∀ x ∈ ws, x.1 = w.1 → x.2 = w.2) (notSts : w.1.kind ≠ .sts) (notLvl : w.1.kind ≠ .lvl) :
    stored (afterWrites c ws s) w.1 = w.2 := by
  induction ws generalizing s with
  | nil => cases hw
  | cons x ws ih =>
    obtain ⟨xInBank, restInBank⟩ := List.forall_mem_cons.1 inBank
    have cfg : (afterWrites c [x] s).cfg = s.cfg := afterWrites_cfg c [x] s
    have wf' : ConfigWF (afterWrites c [x] s).cfg := cfg.symm ▸ wf
    rw [← List.singleton_append, afterWrites_append]
    by_cases inRest : w ∈ ws
    · exact ih wf' (afterWrites_keeps_wf [x] canonical) (by rwa [cfg]) inRest fun y hy => agree y (List.mem_cons_of_mem _ hy)
    · obtain rfl := (List.mem_cons.1 hw).resolve_right inRest
      have different : ∀ y ∈ ws, y.1 ≠ w.1 := fun y hy same =>
        inRest (Prod.ext same (agree y (List.mem_cons_of_mem _ hy) same) ▸ hy)
      rw [stored_afterWrites_of_notMem wf' (by rwa [cfg]) (by rwa [cfg]) different]
      exact (stored_writeReg_same canonical w.1 w.2).trans (writtenByte_of_plain notSts notLvl)

section
variable {c : Ctx} {s : State}

/-- The write-back's write of one saved byte. -/
def restoreWrite (s : State) (b : Saved × Nat) : Reg × Byte := (savedReg b, snapByte s b)

theorem savedReg_ne_sts (b : Saved × Nat) : (savedReg b).kind ≠ .sts := by
  obtain ⟨k, i⟩ := b
  cases k <;> nofun

theorem savedReg_kind_eq_lvl {b : Saved × Nat} (h : (savedReg b).kind = .lvl) : b.1 = .lvl := savedKind_inj (l := .lvl) h

/-- Write-backs of saved bytes leave the saved byte in each register but those of `LVL`. -/
theorem stored_restored (wf : ConfigWF s.cfg) (canonical : MemWF s.mem) {bs : List (Saved × Nat)}
    (saved : ∀ x ∈ bs, x ∈ savedBytes s.cfg) {b : Saved × Nat} (hb : b ∈ bs) (notLvl : b.1 ≠ .lvl) :
    stored (afterWrites c (bs.map (restoreWrite s)) s) (savedReg b) = snapByte s b := by
  have inBank : ∀ w ∈ bs.map (restoreWrite s), w.1 ∈ regs s.cfg :=
    List.forall_mem_map.2 fun x hx => savedReg_mem (saved x hx)
  have agree : ∀ w ∈ bs.map (restoreWrite s), w.1 = savedReg b → w.2 = snapByte s b :=
    List.forall_mem_map.2 fun x _ same => congrArg (snapByte s) (savedReg_inj same)
  exact stored_afterWrites_of_plain (w := restoreWrite s b) wf canonical inBank (List.mem_map_of_mem hb) agree
    (savedReg_ne_sts b) fun isLvl => notLvl (savedReg_kind_eq_lvl isLvl)

/-- R70: the latches of the pins the snapshot has as inputs are out of the write-back's reach, because the direction
bytes were written back before. -/
theorem stored_restored_lvl_bit (wf : ConfigWF s.cfg) (canonical : MemWF s.mem) {i j : Nat}
    (hi : i < bytesIn s.cfg .core) (hj : j < 8) :
    (stored (afterWrites c (restoreRegs s) s) ⟨.lvl, .core, i⟩).getLsbD j =
      if (snapByte s (.dir, i)).getLsbD j = true ∧ 8 * i + j < pinsIn s.cfg .core
      then (stored s ⟨.lvl, .core, i⟩).getLsbD j else (snapByte s (.lvl, i)).getLsbD j := by
  obtain ⟨pre, post, split, before, after⟩ := savedBytes_split wf (mem_savedBytes (k := .lvl).2 hi)
  have saved : ∀ x ∈ pre ++ post, x ∈ savedBytes s.cfg := fun x hx => by
    rw [split]; simp only [List.mem_append, List.mem_cons] at hx ⊢; tauto
  obtain ⟨preSaved, postSaved⟩ := List.forall_mem_append.1 saved
  have inBank {bs : List (Saved × Nat)} (h : ∀ x ∈ bs, x ∈ savedBytes s.cfg) :
      ∀ w ∈ bs.map (restoreWrite s), w.1 ∈ regs s.cfg := List.forall_mem_map.2 fun x hx => savedReg_mem (h x hx)
  have elsewhere {bs : List (Saved × Nat)} (h : ∀ x ∈ bs, savedPlace x ≠ savedPlace (.lvl, i)) :
      ∀ w ∈ bs.map (restoreWrite s), w.1 ≠ savedReg (.lvl, i) :=
    List.forall_mem_map.2 fun x hx same => h x hx (congrArg savedPlace (savedReg_inj same))
  have lvlInBank : savedReg (.lvl, i) ∈ regs s.cfg := mem_regs.2 hi
  -- The state when the byte's own write comes.
  have canonical' : MemWF (afterWrites c (pre.map (restoreWrite s)) s).mem := afterWrites_keeps_wf _ canonical
  have cfg : (afterWrites c (pre.map (restoreWrite s)) s).cfg = s.cfg := afterWrites_cfg _ _ _
  have direction : stored (afterWrites c (pre.map (restoreWrite s)) s) ⟨.dir, .core, i⟩ = snapByte s (.dir, i) := by
    have dirSaved : (Saved.dir, i) ∈ savedBytes s.cfg := mem_savedBytes.2 hi
    have dirBefore : (Saved.dir, i) ∈ pre := (before _ dirSaved).2 (by simp only [savedPlace, savedSlot]; omega)
    exact stored_restored wf canonical preSaved dirBefore nofun
  have level : stored (afterWrites c (pre.map (restoreWrite s)) s) ⟨.lvl, .core, i⟩ = stored s ⟨.lvl, .core, i⟩ :=
    stored_afterWrites_of_notMem wf (inBank preSaved) lvlInBank
      (elsewhere fun x hx => ((before x (preSaved x hx)).1 hx).ne)
  have order : restoreRegs s = pre.map (restoreWrite s) ++ ([restoreWrite s (.lvl, i)] ++ post.map (restoreWrite s)) := by
    rw [restoreRegs, split, List.map_append, List.map_cons]
    rfl
  rw [order, afterWrites_append, afterWrites_append]
  generalize afterWrites c (pre.map (restoreWrite s)) s = u at canonical' cfg direction level
  have cfg' : (afterWrites c [restoreWrite s (.lvl, i)] u).cfg = s.cfg := (afterWrites_cfg _ _ _).trans cfg
  have later : stored (afterWrites c (post.map (restoreWrite s)) (afterWrites c [restoreWrite s (.lvl, i)] u))
      ⟨.lvl, .core, i⟩ = stored (afterWrites c [restoreWrite s (.lvl, i)] u) ⟨.lvl, .core, i⟩ :=
    stored_afterWrites_of_notMem (by rwa [cfg']) (by rw [cfg']; exact inBank postSaved) (by rwa [cfg'])
      (elsewhere fun x hx => (after x hx).ne')
  have own : stored (afterWrites c [restoreWrite s (.lvl, i)] u) ⟨.lvl, .core, i⟩ =
      writtenByte u ⟨.lvl, .core, i⟩ (snapByte s (.lvl, i)) := stored_writeReg_same canonical' _ _
  rw [later, own, writtenByte_lvl_bit _ _ _ _ _ hj, direction, level, cfg]

end

theorem afterWrites_restoreRegs_readByte (c : Ctx) (s : State) {a : Nat}
    (untouched : ∀ b ∈ savedBytes s.cfg, a ≠ regAddr s.cfg (savedReg b)) :
    readByte (afterWrites c (restoreRegs s) s).mem a = readByte s.mem a :=
  afterWrites_readByte_ne c _ s (List.forall_mem_map.2 untouched)

/-- Settles O43: the write-back, then the control state is resumed with the response. -/
theorem resumeNoirqRestores : Obligations.ResumeNoirqRestores := by
  intro s ready attached idle snapshot suspended
  have runs := exec_pmresumenoirq_ok ready attached idle snapshot suspended
  obtain ⟨wf, canonical, -, -⟩ := ready
  obtain ⟨notRunning, -⟩ := someInFlight_eq_false_iff.1 idle
  -- The state the write-back starts from; the page, the snapshot and the configuration are those of `s`.
  let resuming : State := { s with pm := .resuming, coreDark := false }
  refine ⟨_, runs, rfl, fun b hb notLvl => ?_, fun i j hi hj => ?_, fun a untouched => ?_, ?_, ?_⟩
  · exact stored_restored (s := resuming) wf canonical (fun _ hx => hx) hb notLvl
  · exact stored_restored_lvl_bit (s := resuming) wf canonical hi hj
  · exact afterWrites_restoreRegs_readByte s.ctx resuming untouched
  · rw [okState, concluded_log, afterWrites_frame, ← map_savedBytes_eq_snapshotOrder, List.map_map, restoreRegs, List.map_map]
    rfl
  · rw [okState, afterWrites_frame, concluded, ← notRunning]
    rfl

/-! ## The round trip -/

/-- What the environment does leaves alone all but the page, the pads and the history. -/
theorem envSteps_frame (es : List EnvStep) (s : State) : AccessFrame s (es.foldl (fun s e => envStep e s) s) := by
  induction es generalizing s with
  | nil => exact .refl s
  | cons e es ih => exact (AccessFrame.envStep e s).trans (ih _)

theorem envSteps_windows (es : List EnvStep) (s : State) :
    (es.foldl (fun s e => envStep e s) s).windows = s.windows := by
  induction es generalizing s with
  | nil => rfl
  | cons e es ih => rw [List.foldl_cons, ih, envStep_frame]

/-- Settles O44: the snapshot is out of the environment's reach, and a level that is not in it is a pad's. -/
theorem suspendResumeRoundTrip : Obligations.SuspendResumeRoundTrip := by
  intro s es ready live idle masked harmless
  obtain ⟨attached, active⟩ := live
  obtain ⟨u, runs, -, captured, -, frame⟩ := suspendNoirqCaptures s ready attached idle (.inl active) masked
  refine ⟨u, runs, fun pads => ?_⟩
  obtain ⟨wf, canonical, lockFree, quiet⟩ := ready
  -- The state the resume finds.
  have moved := envSteps_frame es u
  have windows := envSteps_windows es u
  generalize es.foldl (fun s e => envStep e s) u = v at pads moved windows
  obtain ⟨moved, keepsWf, -⟩ := moved
  have cfg : v.cfg = s.cfg := by rw [moved, frame]
  have snap (b : Saved × Nat) : snapByte v b = snapByte u b := by rw [moved]; rfl
  have ready' : Ready v := ⟨cfg.symm ▸ wf, keepsWf (by rw [frame]; exact canonical), by rw [moved, frame]; exact lockFree,
    by rw [windows, frame]; exact quiet⟩
  have idle' : someInFlight v = false := by rw [moved, frame]; exact idle
  obtain ⟨t, resumes, -, restored, levels, -, -, frame'⟩ :=
    resumeNoirqRestores v ready' (by rw [moved, frame]; exact attached) idle' (by rw [moved, frame]) (by rw [moved, frame])
  refine ⟨t, resumes, ?_⟩
  rw [cfg] at restored levels
  have cfg' : t.cfg = s.cfg := by rw [frame', cfg]
  have saved (b : Saved × Nat) (hb : b ∈ savedBytes s.cfg) : snapByte v b = readReg s (savedReg b) :=
    (snap b).trans (captured b hb)
  have plain (b : Saved × Nat) (hb : b ∈ savedBytes s.cfg) (notLvl : b.1 ≠ .lvl) :
      stored t (savedReg b) = stored s (savedReg b) := by
    rw [restored b hb notLvl, saved b hb, readReg_of_not_lvl fun isLvl => notLvl (savedReg_kind_eq_lvl isLvl)]
  rintro ⟨k, i⟩ hb
  by_cases isLvl : k = .lvl
  · subst isLvl
    have hi := mem_savedBytes.1 hb
    have dirByte : snapByte v (.dir, i) = stored s ⟨.dir, .core, i⟩ :=
      (saved (.dir, i) (mem_savedBytes.2 hi)).trans (readReg_of_not_lvl nofun)
    have direction : stored t ⟨.dir, .core, i⟩ = stored s ⟨.dir, .core, i⟩ := plain (.dir, i) (mem_savedBytes.2 hi) nofun
    refine BitVec.eq_of_getLsbD_eq fun j hj => ?_
    have written := levels i j hi hj
    rw [saved _ hb, dirByte] at written
    simp only [savedReg, savedKind] at written ⊢
    rw [readReg_lvl_bit t _ _ _ hj, direction, cfg', written]
    by_cases isInput : (stored s ⟨.dir, .core, i⟩).getLsbD j = true ∧ 8 * i + j < pinsIn s.cfg .core
    · obtain ⟨isIn, isPin⟩ := isInput
      obtain ⟨⟨inRange, -⟩, -⟩ := id wf
      have reg := regOf_of_bit wf hj isPin .dir
      obtain ⟨-, -, -, bit⟩ := pin_of_bit inRange hj isPin
      have core : firstPin s.cfg .core + 8 * i + j < s.cfg.resumeBoundary := by
        simp only [firstPin, pinsIn] at isPin ⊢
        omega
      have pad := pads _ core (by rw [pinBit, reg, bit]; exact isIn)
      rw [if_pos ⟨isIn, isPin⟩, readReg_lvl_bit s _ _ _ hj, if_pos ⟨isIn, isPin⟩, ← pad, frame']
    · rw [if_neg isInput, if_neg isInput]
  · rw [readReg_of_not_lvl fun kind => isLvl (savedReg_kind_eq_lvl kind), plain _ hb isLvl,
      readReg_of_not_lvl fun kind => isLvl (savedReg_kind_eq_lvl kind)]

end Sys2Proof.Proofs
end

section
/-! A command issued by another context (60_exceptions.md R233): begun and carried on with nobody else acting, it ends as
at the port. -/

namespace Sys2Proof.Proofs
open Sys2Proof Sys2Proof.Machine

/-! ## The beginning of a command -/

/-- What is around a command is the same in both states. -/
def SameAround (s u : State) : Prop :=
  u.running = s.running ∧ u.inflight = s.inflight ∧ u.ctx = s.ctx ∧ u.hs = s.hs ∧ u.windows = s.windows

/-- A beginning from `s`, which leaves alone what is around the command, and the same beginning in a step of the
context `d` with the handshake inputs `h`. -/
inductive Reissued (d : Ctx) (h : Handshake) (s : State) : Begun → Begun → Prop
  | answered {u : State} (same : SameAround s u) : Reissued d h s (.answered u) (.answered { u with ctx := d, hs := h })
  | started {todo : List Action} {u : State} (nonempty : todo ≠ []) (same : SameAround s u) :
    Reissued d h s (.started todo u) (.started todo { u with ctx := d, hs := h })

namespace Reissued

variable {d : Ctx} {h : Handshake} {s : State} {go go' : Res Begun}

theorem raise (c : Ctx) (st : Status) :
    Alike (Reissued d h s) (Machine.raise c st s) (Machine.raise c st { s with ctx := d, hs := h }) :=
  .next (.answered ⟨rfl, rfl, rfl, rfl, rfl⟩)

theorem goesOn {a : Action} {todo : List Action} {u : State} (same : SameAround s u) :
    Alike (Reissued d h s) (.next (.started (a :: todo) u))
      (.next (.started (a :: todo) { u with ctx := d, hs := h })) :=
  .next (.started (List.cons_ne_nil a todo) same)

theorem whenAttached (g : Alike (Reissued d h s) go go') (c : Ctx) :
    Alike (Reissued d h s) (Machine.whenAttached c s go) (Machine.whenAttached c { s with ctx := d, hs := h } go') :=
  .ite g (raise c _)

theorem entryChecks (g : Alike (Reissued d h s) go go') (c : Ctx) :
    Alike (Reissued d h s) (Machine.entryChecks c s go) (Machine.entryChecks c { s with ctx := d, hs := h } go') :=
  whenAttached (.ite g (.fault _)) c

theorem entryChecksPin (g : Alike (Reissued d h s) go go') (c : Ctx) (p : Nat) :
    Alike (Reissued d h s) (Machine.entryChecksPin c p s go)
      (Machine.entryChecksPin c p { s with ctx := d, hs := h } go') :=
  entryChecks (.ite g (raise c _)) c

theorem whenResting (g : Alike (Reissued d h s) go go') :
    Alike (Reissued d h s) (Machine.whenResting s go) (Machine.whenResting { s with ctx := d, hs := h } go') :=
  .ite g (.fault _)

theorem whenExclusive (g : Alike (Reissued d h s) go go') :
    Alike (Reissued d h s) (Machine.whenExclusive s go) (Machine.whenExclusive { s with ctx := d, hs := h } go') :=
  .ite (.fault _) g

theorem whenNoDispatch (g : Alike (Reissued d h s) go go') :
    Alike (Reissued d h s) (Machine.whenNoDispatch s go) (Machine.whenNoDispatch { s with ctx := d, hs := h } go') :=
  .ite (.fault _) g

end Reissued

open Reissued in
/-- The beginning of a command looks neither at the context of the step nor at its handshake inputs, but at those it is
given. -/
theorem beginInstr_reissued (i : Instr) (c : Ctx) (hs : Handshake) (d : Ctx) (h : Handshake) (s : State) :
    Alike (Reissued d h s) (beginInstr i c hs s) (beginInstr i c hs { s with ctx := d, hs := h }) := by
  cases i with
  | dirin p | dirout p v | get p | set p v | irqen p | irqdis p | ack p => exact entryChecksPin (goesOn ⟨rfl, rfl, rfl, rfl, rfl⟩) c p
  | settype p t =>
    refine entryChecksPin ?_ c p
    split
    · exact goesOn ⟨rfl, rfl, rfl, rfl, rfl⟩
    · exact raise c _
  | setwake p v => exact entryChecksPin (.ite (raise c _) (goesOn ⟨rfl, rfl, rfl, rfl, rfl⟩)) c p
  | disall | detach => exact entryChecks (goesOn ⟨rfl, rfl, rfl, rfl, rfl⟩) c
  | dispatch =>
    have nonempty : scanPieces s.cfg ++ [.answerHandled] ≠ [] := by simp
    refine entryChecks (.ite (.next (.started nonempty ?_)) (.fault _)) c
    exact ⟨rfl, rfl, rfl, rfl, rfl⟩
  | attach =>
    refine .ite (raise c _) (.ite (raise c _) (.ite (raise c _) (.ite (raise c _) (goesOn ?_))))
    exact ⟨rfl, rfl, rfl, rfl, rfl⟩
  | pmsuspend =>
    refine whenAttached (whenResting (whenNoDispatch (.next (.answered ?_)))) c
    exact ⟨rfl, rfl, rfl, rfl, rfl⟩
  | pmsuspendnoirq =>
    refine whenAttached (whenExclusive (whenResting (.ite (raise c _) (goesOn ?_)))) c
    exact ⟨rfl, rfl, rfl, rfl, rfl⟩
  | pmresumenoirq =>
    refine whenAttached (whenExclusive (.ite (.ite (goesOn ?_) (.fault _)) (.next (.answered ?_)))) c
    · exact ⟨rfl, rfl, rfl, rfl, rfl⟩
    · exact ⟨rfl, rfl, rfl, rfl, rfl⟩
  | pmresume =>
    refine whenAttached (whenResting (.next (.answered ?_))) c
    exact ⟨rfl, rfl, rfl, rfl, rfl⟩

/-- R223: on an attached Controller a `DISPATCH` that may not start has no meaning at the port, in any power state. -/
theorem beginInstr_dispatch_mayNot {s : State} (attached : s.attached = true) (mayNot : dispatchMayStart s = false) (c : Ctx)
    (hs : Handshake) : ∃ f, beginInstr .dispatch c hs s = .fault f := by
  rw [beginInstr, planDispatch, mayNot, if_neg Bool.false_ne_true, entryChecks, whenAttached_of_attached attached]
  split
  exacts [⟨_, rfl⟩, ⟨_, rfl⟩]

/-! ## The pieces, carried on -/

/-- With no move to come, the pieces end in the same way whatever is around them, and what is around them stays. -/
theorem doActions_recast (c : Ctx) (todo : List Action) (bit : Bool) {s : State} (quiet : s.windows = []) (f : Option Flight)
    (l : List Flight) (d : Ctx) (hs : Handshake) :
    doActions c todo bit (recast f l d hs [] s) =
      andThen (doActions c todo bit s) fun r => .next (r.1, recast f l d hs [] r.2) := by
  induction todo generalizing bit s with
  | nil => rfl
  | cons a todo ih =>
    rw [doActions, doActions, doAction_recast c a bit quiet]
    cases outcome : doAction c a bit s with
    | next r =>
      obtain ⟨b, t⟩ := r
      exact ih b (quiet_doAction quiet outcome)
    | fault f => rfl
    | refused r => rfl

theorem doActions_keeps {c : Ctx} {todo : List Action} {bit b : Bool} {s t : State} (quiet : s.windows = [])
    (runs : doActions c todo bit s = .next (b, t)) : SameAround s t := by
  induction todo generalizing bit s with
  | nil => cases runs; exact ⟨rfl, rfl, rfl, rfl, rfl⟩
  | cons a todo ih =>
    obtain ⟨⟨b', u⟩, first, rest⟩ := andThen_eq_next.1 runs
    obtain ⟨inflight, running, -, -, ctx, hs⟩ := doAction_keeps first
    have quiet' := quiet_doAction quiet first
    obtain ⟨running', inflight', ctx', hs', windows'⟩ := ih quiet' rest
    exact ⟨running'.trans running, inflight'.trans inflight, ctx'.trans ctx, hs'.trans hs,
      windows'.trans (quiet'.trans quiet.symm)⟩

/-- The state with one more command in flight. -/
def withFlight (f : Flight) (s : State) : State := { s with inflight := s.inflight ++ [f] }

theorem find?_withFlight {l : List Flight} {c : Ctx} (idle : ∀ g ∈ l, g.ctx ≠ c) (todo : List Action) (bit : Bool) :
    (l ++ [(⟨c, todo, bit⟩ : Flight)]).find? (fun f => f.ctx == c) = some ⟨c, todo, bit⟩ := by
  have before : l.find? (fun f => f.ctx == c) = none := List.find?_eq_none.2 fun g hg => by simpa using idle g hg
  simp [List.find?_append, before]

theorem putFlight_withFlight {l : List Flight} {f g : Flight} (same : g.ctx = f.ctx) (idle : ∀ h ∈ l, h.ctx ≠ f.ctx) :
    putFlight f (l ++ [g]) = if f.todo.isEmpty then l else l ++ [f] := by
  induction l with
  | nil => simp [putFlight, same]
  | cons h l ih =>
    obtain ⟨first, rest⟩ := List.forall_mem_cons.1 idle
    rw [List.cons_append, putFlight, if_neg first, ih rest]
    split <;> rfl

theorem withFlight_eq_recast {s : State} (quiet : s.windows = []) (f : Flight) :
    withFlight f s = recast s.running (s.inflight ++ [f]) s.ctx s.hs [] s := by
  rw [recast, ← quiet]
  rfl

theorem recast_self {s : State} (quiet : s.windows = []) : recast s.running s.inflight s.ctx s.hs [] s = s := by
  rw [recast, ← quiet]

/-- One piece of a command in flight, when its context had none before. -/
theorem advanceFlight_withFlight {c : Ctx} {a : Action} {todo : List Action} {bit b : Bool} {s t : State}
    (quiet : s.windows = []) (idle : ∀ g ∈ s.inflight, g.ctx ≠ c) (runs : doAction c a bit s = .next (b, t)) :
    advanceFlight c (withFlight ⟨c, a :: todo, bit⟩ s) =
      .next (if todo.isEmpty then t else withFlight ⟨c, todo, b⟩ t) := by
  obtain ⟨inflight, running, -, -, ctx, hs⟩ := doAction_keeps runs
  have piece := doAction_recast c a bit quiet s.running (s.inflight ++ [⟨c, a :: todo, bit⟩]) s.ctx s.hs
  rw [runs, andThen_next, ← withFlight_eq_recast quiet] at piece
  rw [advanceFlight, withFlight, find?_withFlight idle]
  simp only
  rw [← withFlight, piece, andThen_next, ← running, ← ctx, ← hs]
  simp only [recast]
  rw [putFlight_withFlight (f := ⟨c, todo, b⟩) (g := ⟨c, a :: todo, bit⟩) rfl idle, ← inflight]
  have quiet' := quiet_doAction quiet runs
  cases todo with
  | nil => exact congrArg Host.Outcome.next (recast_self quiet')
  | cons x todo => exact congrArg Host.Outcome.next (withFlight_eq_recast quiet' _).symm

/-- A command in flight, carried on to its end. -/
theorem applyMoves_advance {c : Ctx} {todo : List Action} (nonempty : todo ≠ []) {bit b : Bool} {s t : State}
    (quiet : s.windows = []) (idle : ∀ g ∈ s.inflight, g.ctx ≠ c) (runs : doActions c todo bit s = .next (b, t)) :
    applyMoves (List.replicate todo.length (.advance c)) (withFlight ⟨c, todo, bit⟩ s) = .next t := by
  induction todo generalizing bit s with
  | nil => exact absurd rfl nonempty
  | cons a todo ih =>
    obtain ⟨⟨b', u⟩, first, rest⟩ := andThen_eq_next.1 runs
    have idle' : ∀ g ∈ u.inflight, g.ctx ≠ c := (doAction_keeps first).1 ▸ idle
    rw [List.length_cons, List.replicate_succ, applyMoves, applyMove, advanceFlight_withFlight quiet idle first, andThen_next]
    cases todo with
    | nil => cases rest; rfl
    | cons x todo => exact ih nofun (quiet_doAction quiet first) idle' rest

/-! ## At the port and from another context -/

theorem loadRequest_eq (r : Request) (s : State) :
    loadRequest r s.port s = { record (.command r.ctx r.word) s with ctx := r.ctx, hs := r.hs } := rfl

theorem ctx_ne_of_not_busy {s : State} {c : Ctx} (idle : ctxBusy s c = false) : ∀ g ∈ s.inflight, g.ctx ≠ c := by
  intro g hg same
  have busy : ctxBusy s c = true := List.any_eq_true.2 ⟨g, List.mem_append_right _ hg, by simp [same]⟩
  exact absurd (idle.symm.trans busy) Bool.false_ne_true

/-- The pieces of a command at the port, in the state of another context's. -/
theorem doActions_of_runPieces {c : Ctx} {todo : List Action} {u t : State} {d : Ctx} {h : Handshake}
    (quiet : u.windows = []) (runs : runPieces c todo false { u with ctx := d, hs := h } = .next t) :
    ∃ b v, doActions c todo false u = .next (b, v) ∧ t = { v with ctx := d, hs := h, running := none } := by
  have surrounded : ({ u with ctx := d, hs := h } : State) = recast u.running u.inflight d h [] u := by
    rw [recast, ← quiet]
  have pieces := runPieces_eq_doActions c todo false (s := { u with ctx := d, hs := h }) quiet u.running
  have recasted := doActions_recast c todo false quiet u.running u.inflight d h
  rw [← surrounded] at recasted
  rw [recasted] at pieces
  have runs' := pieces.symm.trans runs
  cases outcome : doActions c todo false u with
  | next r =>
    obtain ⟨b, v⟩ := r
    obtain ⟨running, inflight, -, -, windows⟩ := doActions_keeps quiet outcome
    have same : recast u.running u.inflight d h [] v = { v with ctx := d, hs := h } := by
      rw [recast, ← running, ← inflight, ← windows.trans quiet]
    rw [outcome, andThen_next, andThen_next, same] at runs'
    exact ⟨b, v, rfl, (Host.Outcome.next.inj runs').symm⟩
  | fault f => rw [outcome] at runs'; cases runs'
  | refused r => rw [outcome] at runs'; cases runs'

/-- Settles O54: the same beginning, the same pieces; the gate of R223 stands before the one and after the other. -/
theorem otherContextsActAsAtThePort : Obligations.OtherContextsActAsAtThePort := by
  intro s t r ready notRunning isContext idle runs
  obtain ⟨-, -, -, quiet⟩ := ready
  rw [loadRequest_eq] at runs
  have may : ctxExists s.cfg r.ctx = true ∧ ctxBusy s r.ctx = false := ⟨isContext, idle⟩
  cases decoded : decode r.word with
  | error e =>
    rw [runRequest_of_illegal decoded] at runs
    refine ⟨0, ?_⟩
    rw [List.replicate_zero, applyMoves, applyMove, startCommand, if_pos may, decoded]
    obtain rfl := Host.Outcome.next.inj runs
    rfl
  | ok i =>
    rw [runRequest_of_decoded decoded, exec_eq_carryOut] at runs
    have alike := beginInstr_reissued i r.ctx r.hs r.ctx r.hs (record (.command r.ctx r.word) s)
    obtain ⟨b', begins', ended⟩ := andThen_eq_next.1 runs
    rw [begins'] at alike
    generalize begins : beginInstr i r.ctx r.hs (record (.command r.ctx r.word) s) = o at alike
    have starts : startCommand r s = andThen o fun b => .next (launch r.ctx b) := by
      rw [startCommand, if_pos may, decoded, ← begins]
      refine if_neg fun ⟨isDispatch, attached, mayNot⟩ => ?_
      subst isDispatch
      obtain ⟨f, stops⟩ := beginInstr_dispatch_mayNot attached mayNot r.ctx r.hs
        (s := { record (.command r.ctx r.word) s with ctx := r.ctx, hs := r.hs })
      cases stops.symm.trans begins'
    cases alike with
    | next reissued =>
      rw [andThen_next] at starts
      cases reissued with
      | answered same =>
        obtain ⟨-, -, ctx, hs, -⟩ := same
        obtain rfl := Host.Outcome.next.inj ended
        refine ⟨0, ?_⟩
        rw [List.replicate_zero, applyMoves, applyMove, starts, ← show _ = s.ctx from ctx, ← show _ = s.hs from hs]
        rfl
      | @started todo u nonempty same =>
        obtain ⟨running, inflight, ctx, hs, windows⟩ := same
        have quiet' : u.windows = [] := windows.trans quiet
        have idle' : ∀ g ∈ u.inflight, g.ctx ≠ r.ctx := inflight ▸ ctx_ne_of_not_busy idle
        obtain ⟨b, v, pieces, rfl⟩ := doActions_of_runPieces quiet' ended
        obtain ⟨running', -, ctx', hs', -⟩ := doActions_keeps quiet' pieces
        refine ⟨todo.length, ?_⟩
        rw [applyMoves, applyMove, starts, andThen_next]
        refine (applyMoves_advance nonempty quiet' idle' pieces).trans ?_
        have running'' : v.running = none := (running'.trans running).trans notRunning
        rw [← show _ = s.ctx from ctx'.trans ctx, ← show _ = s.hs from hs'.trans hs, ← running'']

end Sys2Proof.Proofs
end

section
/-! What falls between the accesses of a command (70_reset_and_hazards.md R260, R262, R273): the windows inside and
between the blocks of the commands that change single bits. -/

namespace Sys2Proof.Proofs
open Sys2Proof Sys2Proof.Machine

/-! ## States that accesses cannot tell apart -/

/-- The two states agree on everything an access, an edge or the beginning of a command of one pin looks at. -/
structure Agree (s t : State) : Prop where
  cfg : t.cfg = s.cfg
  mem : t.mem = s.mem
  padin : t.padin = s.padin
  pm : t.pm = s.pm
  coreDark : t.coreDark = s.coreDark
  attached : t.attached = s.attached
  inflight : t.inflight = s.inflight

namespace Agree

variable {s t : State}

theorem refl (s : State) : Agree s s := ⟨rfl, rfl, rfl, rfl, rfl, rfl, rfl⟩

theorem symm (h : Agree s t) : Agree t s := 
  ⟨h.cfg.symm, h.mem.symm, h.padin.symm, h.pm.symm, h.coreDark.symm, h.attached.symm, h.inflight.symm⟩

theorem trans {u : State} (h : Agree s t) (g : Agree t u) : Agree s u :=
  ⟨g.cfg.trans h.cfg, g.mem.trans h.mem, g.padin.trans h.padin, g.pm.trans h.pm, g.coreDark.trans h.coreDark,
    g.attached.trans h.attached, g.inflight.trans h.inflight⟩

theorem record (e : Event) (s : State) : Agree s (Machine.record e s) := ⟨rfl, rfl, rfl, rfl, rfl, rfl, rfl⟩

theorem inBlock (f : Option Flight) (w : List (List Move)) (k : Lock) (s : State) :
    Agree s { s with running := f, windows := w, lock := k } := ⟨rfl, rfl, rfl, rfl, rfl, rfl, rfl⟩

theorem withLock (k : Lock) (s : State) : Agree s { s with lock := k } := ⟨rfl, rfl, rfl, rfl, rfl, rfl, rfl⟩

theorem withWindows (w : List (List Move)) (s : State) : Agree s { s with windows := w } := ⟨rfl, rfl, rfl, rfl, rfl, rfl, rfl⟩

theorem readReg (h : Agree s t) (r : Reg) : readReg t r = Machine.readReg s r := readReg_congr h.mem h.padin h.cfg r

theorem stored (h : Agree s t) (r : Reg) : stored t r = Machine.stored s r := stored_congr h.mem h.cfg r

theorem pinBit (h : Agree s t) (k : Kind) (p : Nat) : pinBit t k p = Machine.pinBit s k p := by
  rw [Machine.pinBit, Machine.pinBit, h.stored, h.cfg]

theorem store (h : Agree s t) (r : Reg) (v : Byte) : Agree (store s r v) (Machine.store t r v) := by
  obtain ⟨cfg, mem, padin, pm, coreDark, attached, inflight⟩ := h
  refine ⟨cfg, ?_, padin, pm, coreDark, attached, inflight⟩
  simp only [Machine.store, mem, cfg]

theorem writeReg (h : Agree s t) (r : Reg) (v : Byte) : Agree (writeReg s r v) (Machine.writeReg t r v) := by
  rw [writeReg_eq_store, writeReg_eq_store, writtenByte_congr h.mem h.cfg]
  exact h.store r _

theorem powered (h : Agree s t) {p : Nat} (powered : Powered s p) : Powered t p := by
  rwa [Powered, h.cfg, h.pm, h.coreDark]

theorem edge (h : Agree s t) {p : Nat} (hp : p < s.cfg.pinCount) (powered : Powered s p) (e : Edge) :
    Agree (envStep (.edge p e) s) (envStep (.edge p e) t) := by
  rw [envStep_edge hp powered, envStep_edge (h.cfg.symm ▸ hp) (h.powered powered), h.pinBit]
  split
  · have set : Agree (withPending p s) (withPending p t) := by
      rw [withPending, withPending, h.stored, h.cfg]
      exact h.store _ _
    exact (record _ _).symm.trans (set.trans (record _ _))
  · exact (record _ _).symm.trans (h.trans (record _ _))

end Agree

/-! ## A read-modify-write and its windows -/

theorem envWindow_eq (s : State) :
    envWindow s = envMoves (s.windows.headD []) { s with windows := s.windows.tail } := by
  cases windows : s.windows with
  | nil =>
    rw [envWindow_quiet windows]
    exact congrArg (fun w => ({ s with windows := w } : State)) windows
  | cons ms rest => exact envWindow_of_cons windows

/-- The write of a read-modify-write that found the byte `b`. -/
def rmwWrite (c : Ctx) (op : BitOp) (b : Byte) (s : State) : State :=
  record (.write c (regOff s.cfg (regOf s.cfg op.kind op.pin)) (setBit b (bitOf s.cfg op.pin) op.v))
    (writeReg s (regOf s.cfg op.kind op.pin) (setBit b (bitOf s.cfg op.pin) op.v))

theorem rmwWrite_windows (c : Ctx) (op : BitOp) (b : Byte) (s : State) : (rmwWrite c op b s).windows = s.windows := by
  rw [rmwWrite, writeReg_eq_store]
  rfl

/-- The state between the read and the write of a read-modify-write, before the window of the write. -/
def rmwRead (c : Ctx) (op : BitOp) (s : State) : State :=
  record (.read c (regOff s.cfg (regOf s.cfg op.kind op.pin)) (readReg (envWindow s) (regOf s.cfg op.kind op.pin)))
    (envWindow s)

theorem envWindow_windows (s : State) : (envWindow s).windows = s.windows.tail := by
  rw [envWindow_eq, envMoves_frame]

/-- A read-modify-write of a valid pin completes, whatever the environment does before its two accesses. -/
theorem bitRmw_eq {s : State} (wf : ConfigWF s.cfg) (c : Ctx) {op : BitOp} (hp : op.pin < s.cfg.pinCount) :
    bitRmw c op s = .next (rmwWrite c op (readReg (envWindow s) (regOf s.cfg op.kind op.pin)) (envWindow (rmwRead c op s))) := by
  have inBank := regOf_mem op.kind hp
  have cfg : (rmwRead c op s).cfg = s.cfg := envWindow_cfg s
  have write := regWrite_regOff (s := rmwRead c op s) (by rwa [cfg]) (by rw [cfg]; exact inBank) c
    (setBit (readReg (envWindow s) (regOf s.cfg op.kind op.pin)) (bitOf s.cfg op.pin) op.v)
  rw [cfg] at write
  rw [bitRmw, withPin_of_lt hp, regRead_regOff wf inBank, andThen_next, rmwWrite, envWindow_cfg, cfg]
  exact write

/-- From any state that agrees with `s` and has the windows `w` to come, the read-modify-writes end in one that agrees with
`s'` and has `w'` to come. -/
def Block (c : Ctx) (ops : List BitOp) (s : State) (w : List (List Move)) (s' : State) (w' : List (List Move)) : Prop :=
  ∀ t, Agree s t → t.windows = w → ∃ u, bitRmws c ops t = .next u ∧ Agree s' u ∧ u.windows = w'

theorem Block.nil (c : Ctx) (s : State) (w : List (List Move)) : Block c [] s w s w :=
  fun t agree ahead => ⟨t, rfl, agree, ahead⟩

theorem Agree.afterRmw {c : Ctx} {op : BitOp} {v t : State} {b : Byte} (cfg : t.cfg = v.cfg)
    (found : b = Machine.readReg v (regOf v.cfg op.kind op.pin))
    (written : Agree (Machine.writeReg v (regOf v.cfg op.kind op.pin) (setBit b (bitOf v.cfg op.pin) op.v))
      (Machine.writeReg t (regOf v.cfg op.kind op.pin) (setBit b (bitOf v.cfg op.pin) op.v))) :
    Agree (Machine.afterRmw c op v) (rmwWrite c op b t) := by
  subst found
  rw [rmwWrite, cfg]
  exact (record _ _).symm.trans (((record _ v).writeReg _ _).symm.trans (written.trans (record _ _)))

/-- One read-modify-write with moves of the environment in its two windows: `r` is the state its read finds, and its write
leaves what a read-modify-write in `v`, undisturbed, leaves. -/
theorem Block.cons {c : Ctx} {op : BitOp} {ops : List BitOp} {s r v s' : State} {w w' : List (List Move)}
    (wf : ConfigWF s.cfg) (hp : op.pin < s.cfg.pinCount) (cfg : v.cfg = s.cfg)
    (before : ∀ t, Agree s t → Agree r (envMoves (w.headD []) t))
    (found : readReg r (regOf s.cfg op.kind op.pin) = readReg v (regOf s.cfg op.kind op.pin))
    (between : ∀ t b, Agree r t →
      Agree (writeReg v (regOf s.cfg op.kind op.pin) b)
        (writeReg (envMoves (w.tail.headD []) t) (regOf s.cfg op.kind op.pin) b))
    (rest : Block c ops (afterRmw c op v) w.tail.tail s' w') : Block c (op :: ops) s w s' w' := by
  intro t agree ahead
  have sameCfg := agree.cfg
  have atRead : Agree r (envWindow t) := by
    rw [envWindow_eq, ahead]
    exact before _ (agree.trans (.withWindows _ t))
  have atWrite (b : Byte) : Agree (writeReg v (regOf s.cfg op.kind op.pin) b)
      (writeReg (envWindow (rmwRead c op t)) (regOf s.cfg op.kind op.pin) b) := by
    have second : (rmwRead c op t).windows = w.tail := (envWindow_windows t).trans (congrArg List.tail ahead)
    rw [envWindow_eq, second]
    exact between _ b ((atRead.trans (.record _ _)).trans (.withWindows _ _))
  have cfg' : (envWindow (rmwRead c op t)).cfg = v.cfg := by
    rw [envWindow_cfg, cfg, ← sameCfg]
    exact envWindow_cfg t
  have run := bitRmw_eq (by rwa [sameCfg]) c (s := t) (op := op) (by rwa [sameCfg])
  rw [sameCfg] at run
  have after : Agree (afterRmw c op v)
      (rmwWrite c op (readReg (envWindow t) (regOf s.cfg op.kind op.pin)) (envWindow (rmwRead c op t))) := by
    refine .afterRmw cfg' ?_ ?_
    · rw [atRead.readReg, found, cfg]
    · rw [cfg]; exact atWrite _
  have ahead' : (rmwWrite c op (readReg (envWindow t) (regOf s.cfg op.kind op.pin))
      (envWindow (rmwRead c op t))).windows = w.tail.tail := by
    rw [rmwWrite_windows, envWindow_windows, rmwRead, record_windows, envWindow_windows, ahead]
  rw [bitRmws, run, andThen_next]
  exact rest _ after ahead'

/-! ## What the environment can do to a read-modify-write -/

/-- R70: of two writes of one register the later decides, but for `STS`. -/
theorem writtenByte_writeReg {s : State} (wf : ConfigWF s.cfg) (canonical : MemWF s.mem) {r : Reg} (hr : r ∈ regs s.cfg)
    (notStatus : r.kind ≠ .sts) (x b : Byte) : writtenByte (writeReg s r x) r b = writtenByte s r b := by
  by_cases isLevel : r.kind = .lvl
  · obtain ⟨k, w, i⟩ := r
    obtain rfl : k = .lvl := isLevel
    refine BitVec.eq_of_getLsbD_eq fun j hj => ?_
    have direction : stored (writeReg s ⟨.lvl, w, i⟩ x) ⟨.dir, w, i⟩ = stored s ⟨.dir, w, i⟩ := by
      rw [writeReg_eq_store]
      exact stored_store_ne wf hr (q := ⟨.dir, w, i⟩) (mem_regs.2 ((mem_regs (r := ⟨.lvl, w, i⟩)).1 hr)) _ nofun
    rw [writtenByte_lvl_bit _ _ _ _ _ hj, writtenByte_lvl_bit _ _ _ _ _ hj, direction, stored_writeReg_same canonical,
      writeReg_cfg, writtenByte_lvl_bit _ _ _ _ _ hj]
    split <;> rfl
  · rw [writtenByte_of_plain notStatus isLevel, writtenByte_of_plain notStatus isLevel]

theorem writeByte_writeByte {m : List Host.Cell} (canonical : MemWF m) (a : Nat) (x b : Byte) :
    writeByte (writeByte m a x) a b = writeByte m a b := by
  refine ((canonical.writeByte a x).writeByte a b).eq_of_readByte (canonical.writeByte a b) fun q => ?_
  by_cases same : q = a
  · rw [same, readByte_writeByte_same (canonical.writeByte a x), readByte_writeByte_same canonical]
  · rw [readByte_writeByte_ne _ _ same, readByte_writeByte_ne _ _ same, readByte_writeByte_ne _ _ same]

theorem writeReg_writeReg_mem {s : State} (wf : ConfigWF s.cfg) (canonical : MemWF s.mem) {r : Reg} (hr : r ∈ regs s.cfg)
    (notStatus : r.kind ≠ .sts) (x b : Byte) : (writeReg (writeReg s r x) r b).mem = (writeReg s r b).mem := by
  rw [writeReg_eq_store (writeReg s r x), writtenByte_writeReg wf canonical hr notStatus, writeReg_eq_store s r x,
    writeReg_eq_store s r b]
  exact writeByte_writeByte canonical _ _ _

/-- An edge reaches the status bytes alone. -/
theorem stored_edge {s : State} (wf : ConfigWF s.cfg) {p : Nat} (inRange : p < s.cfg.pinCount) (powered : Powered s p)
    (e : Edge) {r : Reg} (hr : r ∈ regs s.cfg) (notStatus : r.kind ≠ .sts) :
    stored (envStep (.edge p e) s) r = stored s r := by
  rw [envStep_edge inRange powered]
  split
  · exact stored_store_ne wf (regOf_mem .sts inRange) hr _ fun same => notStatus (congrArg Reg.kind same)
  · rfl

section
variable {c : Ctx} {op : BitOp} {ops : List BitOp} {s s' : State} {w w' : List (List Move)} (wf : ConfigWF s.cfg)
  (hp : op.pin < s.cfg.pinCount)
include wf hp

/-- Nothing happens in the two windows. -/
theorem Block.calm (first : w.headD [] = []) (second : w.tail.headD [] = [])
    (rest : Block c ops (afterRmw c op s) w.tail.tail s' w') : Block c (op :: ops) s w s' w' :=
  .cons wf hp rfl (by rw [first]; exact fun _ => id) rfl (by rw [second]; exact fun _ b agree => agree.writeReg _ b) rest

/-- R262: a write of the register from outside between the read and the write is lost. -/
theorem Block.lost (canonical : MemWF s.mem) (notStatus : op.kind ≠ .sts) {x : Byte}
    (rest : Block c ops (afterRmw c op s) w s' w') :
    Block c (op :: ops) s ([] :: [.env (.regWrite (regOff s.cfg (regOf s.cfg op.kind op.pin)) x)] :: w) s' w' := by
  refine .cons wf hp rfl (fun _ => id) rfl (fun t b agree => ?_) rest
  have inBank := regOf_mem op.kind hp
  have write := envStep_regWrite_used (s := t) (by rw [agree.cfg]; exact wf) (r := regOf s.cfg op.kind op.pin)
    (by rw [agree.cfg]; exact inBank) x
  rw [agree.cfg] at write
  have outside : Agree (writeReg s (regOf s.cfg op.kind op.pin) x)
      (envStep (.regWrite (regOff s.cfg (regOf s.cfg op.kind op.pin)) x) t) := by
    rw [write]
    exact (agree.writeReg _ x).trans (.record _ _)
  refine Agree.trans ?_ (outside.writeReg _ b)
  refine ⟨?_, writeReg_writeReg_mem wf canonical inBank notStatus x b, ?_, ?_, ?_, ?_, ?_⟩ <;>
    simp only [writeReg_eq_store] <;> rfl

/-- An edge before the read: the read-modify-write finds what it left. -/
theorem Block.edgeBefore {p : Nat} (inRange : p < s.cfg.pinCount) (powered : Powered s p) (e : Edge)
    (rest : Block c ops (afterRmw c op (envStep (.edge p e) s)) [] s' w') :
    Block c (op :: ops) s [[.env (.edge p e)]] s' w' :=
  .cons wf hp (by rw [envStep_frame]) (fun _ agree => agree.edge inRange powered e) rfl
    (fun _ b agree => agree.writeReg _ b) rest

/-- An edge between the read and the write: it reaches the status byte alone, which another kind's read does not look
at. -/
theorem Block.edgeBetween {p : Nat} (inRange : p < s.cfg.pinCount) (powered : Powered s p) (e : Edge)
    (notStatus : op.kind ≠ .sts) (notLevel : op.kind ≠ .lvl)
    (rest : Block c ops (afterRmw c op (envStep (.edge p e) s)) [] s' w') :
    Block c (op :: ops) s [[], [.env (.edge p e)]] s' w' := by
  refine .cons wf hp (by rw [envStep_frame]) (fun _ => id) ?_
    (fun _ b agree => (agree.edge inRange powered e).writeReg _ b) rest
  rw [readReg_of_not_lvl notLevel, readReg_of_not_lvl notLevel]
  exact (stored_edge wf inRange powered e (regOf_mem op.kind hp) notStatus).symm

end

/-! ## A command of read-modify-writes -/

theorem window_of_first_empty {s : State} (first : s.windows.headD [] = []) :
    window s = .next { s with windows := s.windows.tail } := by
  cases windows : s.windows with
  | nil =>
    rw [window_quiet windows]
    exact congrArg (fun w => Host.Outcome.next ({ s with windows := w } : State)) windows
  | cons ms rest =>
    obtain rfl : ms = [] := by simpa [windows] using first
    rw [window_of_cons windows]
    rfl

theorem runPieces_block {c : Ctx} {ops : List BitOp} {s t s' : State} {w w' : List (List Move)} (block : Block c ops s w s' w')
    (agree : Agree s t) (first : t.windows.headD [] = []) (ahead : t.windows.tail = w) (lockFree : t.lock = .free)
    (todo : List Action) (bit : Bool) :
    ∃ u, runPieces c (.rmw ops :: todo) bit t = runPieces c todo bit u ∧ Agree s' u ∧ u.windows = w' ∧ u.lock = .free := by
  have enters := window_of_first_empty (s := { t with running := some ⟨c, .rmw ops :: todo, bit⟩ }) first
  obtain ⟨u, runs, agree', ahead'⟩ := block
    { t with running := some ⟨c, .rmw ops :: todo, bit⟩, windows := t.windows.tail, lock := .held c }
    (agree.trans (.inBlock _ _ _ t)) ahead
  refine ⟨{ u with lock := .free }, ?_, agree'.trans (.withLock _ u), ahead', rfl⟩
  rw [runPieces, enters, andThen_next, doAction, atomicDo_free (by exact lockFree)]
  simp only [runs, andThen_next]

theorem runPieces_answer {u : State} (quiet : u.windows = []) (c : Ctx) (bit : Bool) :
    runPieces c [.answer] bit u = .next (concluded c false u) := runPieces_answer_quiet c bit u.running quiet

/-- A command of one block. -/
theorem exec_of_block {i : Instr} {s s' : State} {ops : List BitOp} {w : List (List Move)}
    (begins : beginInstr i s.ctx s.hs s = .next (.started [.rmw ops, .answer] s)) (lockFree : s.lock = .free)
    (windows : s.windows = [] :: w) (block : Block s.ctx ops s w s' []) :
    ∃ u, exec i s = .next (concluded s.ctx false u) ∧ Agree s' u := by
  obtain ⟨u, runs, agree, quiet, -⟩ := runPieces_block block (.refl s) (by rw [windows]; rfl) (by rw [windows]; rfl) lockFree
    [.answer] false
  exact ⟨u, by rw [exec_eq_carryOut, begins, carryOut_started, runs, runPieces_answer quiet], agree⟩

/-- A command of two blocks. -/
theorem exec_of_blocks {i : Instr} {s v s' : State} {ops ops' : List BitOp} {w w' : List (List Move)}
    (begins : beginInstr i s.ctx s.hs s = .next (.started [.rmw ops, .rmw ops', .answer] s)) (lockFree : s.lock = .free)
    (windows : s.windows = [] :: w) (first : Block s.ctx ops s w v w') (free : w'.headD [] = [])
    (second : Block s.ctx ops' v w'.tail s' []) : ∃ u, exec i s = .next (concluded s.ctx false u) ∧ Agree s' u := by
  obtain ⟨t, runs, agree, ahead, lockFree'⟩ := runPieces_block first (.refl s) (by rw [windows]; rfl) (by rw [windows]; rfl)
    lockFree [.rmw ops', .answer] false
  obtain ⟨u, runs', agree', quiet, -⟩ := runPieces_block second agree (by rw [ahead]; exact free) (by rw [ahead]) lockFree'
    [.answer] false
  exact ⟨u, by rw [exec_eq_carryOut, begins, carryOut_started, runs, runs', runPieces_answer quiet], agree'⟩

/-! ## The lost external update -/

theorem stored_of_bits {s t : State} {r : Reg} {j : Nat} (hj : j < 8) {v : Bool} (bits : KeepsOtherBits s t r j)
    (bit : (stored t r).getLsbD j = v) : stored t r = setBit (stored s r) j v := by
  refine BitVec.eq_of_getLsbD_eq fun i _ => ?_
  rw [setBit_bit _ _ _ hj]
  split
  · next same => rw [same, bit]
  · next other => exact bits i other

theorem setBit_self (b : Byte) {j : Nat} (hj : j < 8) : setBit b j (b.getLsbD j) = b := by
  refine BitVec.eq_of_getLsbD_eq fun i _ => ?_
  rw [setBit_bit _ _ _ hj]
  split
  · next same => rw [same]
  · rfl

theorem begins_settype {s : State} (live : Live s) {p t : Nat} (hp : p < s.cfg.pinCount) (ht : t < 4) :
    beginInstr (.settype p t) s.ctx s.hs s =
      .next (.started [.rmw [⟨p, .rte, t.testBit 0⟩, ⟨p, .fte, t.testBit 1⟩], .answer] s) := by
  obtain ⟨isRising, isFalling⟩ := testBit_of_type (t := t)
  rw [beginInstr, planSettype, trigBits, if_pos ht, ← isRising, ← isFalling]
  exact begins_of_live live hp _ _

section
variable {s : State} {p : Nat} {x : Byte} (wf : ConfigWF s.cfg) (canonical : MemWF s.mem) (lockFree : s.lock = .free)
  (live : Live s) (hp : p < s.cfg.pinCount)
include wf canonical lockFree live hp

omit live in
/-- A command of one read-modify-write, with an external write in it. -/
theorem exec_rmw_lost {i : Instr} {k : Kind} {v : Bool}
    (begins : beginInstr i s.ctx s.hs s = .next (.started [.rmw [⟨p, k, v⟩], .answer] s)) (notStatus : k ≠ .sts)
    (windows : s.windows = [[], [], [.env (.regWrite (regOff s.cfg (regOf s.cfg k p)) x)]]) :
    ∃ u, exec i s = .next (concluded s.ctx false u) ∧ Agree (afterRmw s.ctx ⟨p, k, v⟩ s) u :=
  exec_of_block begins lockFree windows (.lost (op := ⟨p, k, v⟩) wf hp canonical notStatus (.nil _ _ _))

theorem exec_dirout_lost {v : Bool}
    (windows : s.windows = [[], [], [.env (.regWrite (regOff s.cfg (regOf s.cfg .dir p)) x)]] ∨
      s.windows = [[], [], [], [], [], [.env (.regWrite (regOff s.cfg (regOf s.cfg .lvl p)) x)]]) :
    ∃ u, exec (.dirout p v) s = .next (concluded s.ctx false u) ∧
      Agree (afterRmw s.ctx ⟨p, .lvl, v⟩ (afterRmw s.ctx ⟨p, .dir, false⟩ s)) u := by
  have cfg : (afterRmw s.ctx ⟨p, .dir, false⟩ s).cfg = s.cfg := afterRmw_cfg _ _ s
  have wf' : ConfigWF (afterRmw s.ctx ⟨p, .dir, false⟩ s).cfg := cfg.symm ▸ wf
  have hp' : p < (afterRmw s.ctx ⟨p, .dir, false⟩ s).cfg.pinCount := cfg.symm ▸ hp
  have canonical' : MemWF (afterRmw s.ctx ⟨p, .dir, false⟩ s).mem := afterRmw_keeps_wf canonical
  rcases windows with first | second
  · exact exec_of_blocks (begins_of_live live hp _ _) lockFree first
      (.lost (op := ⟨p, .dir, false⟩) wf hp canonical nofun (.nil _ _ _)) rfl
      (.calm (op := ⟨p, .lvl, v⟩) wf' hp' rfl rfl (.nil _ _ _))
  · have lost := Block.lost (c := s.ctx) (op := ⟨p, .lvl, v⟩) (x := x) wf' hp' canonical' nofun (.nil _ _ [])
    rw [cfg] at lost
    exact exec_of_blocks (begins_of_live live hp _ _) lockFree second
      (.calm (op := ⟨p, .dir, false⟩) wf hp rfl rfl (.nil _ _ _)) rfl lost

theorem exec_settype_lost {t : Nat} (ht : t < 4)
    (windows : s.windows = [[], [], [.env (.regWrite (regOff s.cfg (regOf s.cfg .rte p)) x)]] ∨
      s.windows = [[], [], [], [], [.env (.regWrite (regOff s.cfg (regOf s.cfg .fte p)) x)]]) :
    ∃ u, exec (.settype p t) s = .next (concluded s.ctx false u) ∧
      Agree (afterRmw s.ctx ⟨p, .fte, t.testBit 1⟩ (afterRmw s.ctx ⟨p, .rte, t.testBit 0⟩ s)) u := by
  have cfg : (afterRmw s.ctx ⟨p, .rte, t.testBit 0⟩ s).cfg = s.cfg := afterRmw_cfg _ _ s
  have wf' : ConfigWF (afterRmw s.ctx ⟨p, .rte, t.testBit 0⟩ s).cfg := cfg.symm ▸ wf
  have hp' : p < (afterRmw s.ctx ⟨p, .rte, t.testBit 0⟩ s).cfg.pinCount := cfg.symm ▸ hp
  have canonical' : MemWF (afterRmw s.ctx ⟨p, .rte, t.testBit 0⟩ s).mem := afterRmw_keeps_wf canonical
  rcases windows with first | second
  · exact exec_of_block (begins_settype live hp ht) lockFree first
      (.lost (op := ⟨p, .rte, t.testBit 0⟩) wf hp canonical nofun
        (.calm (op := ⟨p, .fte, t.testBit 1⟩) wf' hp' rfl rfl (.nil _ _ _)))
  · have lost := Block.lost (c := s.ctx) (op := ⟨p, .fte, t.testBit 1⟩) (x := x) wf' hp' canonical' nofun (.nil _ _ [])
    rw [cfg] at lost
    exact exec_of_block (begins_settype live hp ht) lockFree second
      (.calm (op := ⟨p, .rte, t.testBit 0⟩) wf hp rfl rfl lost)

end

/-- Settles O58: what a read-modify-write leaves does not depend on what is written to the register between its two
accesses. -/
theorem externalWriteInsideRmwIsLost : Obligations.ExternalWriteInsideRmwIsLost := by
  intro s p x wf canonical lockFree live hp reg replaced write
  refine ⟨fun i k v listed windows => ?_, fun v windows => ?_, fun v windows => ?_, fun n hn windows => ?_⟩
  · obtain ⟨begins, notStatus, notLevel⟩ :
        beginInstr i s.ctx s.hs s = .next (.started [.rmw [⟨p, k, v⟩], .answer] s) ∧ k ≠ .sts ∧ k ≠ .lvl := by
      simp only [List.mem_cons, Prod.mk.injEq, List.not_mem_nil, or_false] at listed
      rcases listed with ⟨rfl, rfl, rfl⟩ | ⟨rfl, rfl, rfl⟩ | ⟨rfl, rfl, rfl⟩ <;>
        exact ⟨begins_of_live live hp _ _, nofun, nofun⟩
    obtain ⟨u, runs, agree⟩ := exec_rmw_lost wf canonical lockFree hp begins notStatus windows
    have moved := bitMoved_afterRmw canonical s.ctx (op := ⟨p, k, v⟩) notStatus notLevel
    exact ⟨_, runs, (agree.stored _).trans (afterRmw_stored_plain canonical notStatus notLevel),
      (moved.congr agree.mem agree.cfg).bytes⟩
  · obtain ⟨u, runs, agree⟩ := exec_rmw_lost wf canonical lockFree hp (begins_of_live live hp _ _)
      (i := .set p v) nofun windows
    have moved := (bitMoved_afterRmw_lvl canonical s.ctx hp v).congr agree.mem agree.cfg
    refine ⟨_, runs, moved.bytes, ?_⟩
    have bit := moved.bit
    rw [pinBit, moved.cfg] at bit
    refine (stored_of_bits (bitOf_lt _ _) moved.bits bit).trans ?_
    split
    · exact setBit_self _ (bitOf_lt _ _)
    · rfl
  · obtain ⟨u, runs, agree⟩ := exec_dirout_lost wf canonical lockFree live hp windows
    have moved := dirout_moves s.ctx wf canonical hp v
    have level := moved.second
    rw [pinBit, moved.cfg] at level
    refine ⟨_, runs, ?_, ?_⟩
    · exact (agree.stored _).trans (moved.firstByte.trans (afterRmw_stored_plain (op := ⟨p, .dir, false⟩) canonical nofun nofun))
    · exact (agree.stored _).trans (stored_of_bits (bitOf_lt _ _) moved.secondBits level)
  · obtain ⟨u, runs, agree⟩ := exec_settype_lost wf canonical lockFree live hp hn windows
    have moved := settype_moves s.ctx wf canonical hp (n.testBit 0) (n.testBit 1)
    have falling := moved.second
    rw [pinBit, moved.cfg] at falling
    refine ⟨_, runs, ?_, ?_⟩
    · exact (agree.stored _).trans
        (moved.firstByte.trans (afterRmw_stored_plain (op := ⟨p, .rte, n.testBit 0⟩) canonical nofun nofun))
    · exact (agree.stored _).trans (stored_of_bits (bitOf_lt _ _) moved.secondBits falling)

end Sys2Proof.Proofs
end

section
/-! Two more observations between the accesses of a command (70_reset_and_hazards.md R260, R273): the prior level
between the blocks of `DIROUT`, and the mixed trigger type between the writes of `SETTYPE`. -/

namespace Sys2Proof.Proofs
open Sys2Proof Sys2Proof.Machine

/-! ## An edge inside `SETTYPE` -/

/-- R222: a pin that is not pending is pending after an edge exactly when the edge's trigger is enabled. -/
theorem pinBit_sts_edge {s : State} (canonical : MemWF s.mem) {p : Nat} (hp : p < s.cfg.pinCount) (powered : Powered s p)
    (notPending : pinBit s .sts p = false) (e : Edge) :
    pinBit (envStep (.edge p e) s) .sts p = pinBit s (triggerKind e) p := by
  cases armed : pinBit s (triggerKind e) p with
  | true => exact (bitMoved_edge hp canonical powered armed).1.bit
  | false =>
    rw [envStep_edge hp powered, armed]
    exact notPending

/-- Settles O59: the edge finds the page of the first read-modify-write, and the second leaves the pending bit alone. -/
theorem edgeInsideSettypeSeesMixedType : Obligations.EdgeInsideSettypeSeesMixedType := by
  intro s p t e wf canonical lockFree live hp ht notPending windows
  have first := bitMoved_afterRmw canonical s.ctx (op := ⟨p, .rte, t.testBit 0⟩) nofun nofun
  have canonical₁ : MemWF (afterRmw s.ctx ⟨p, .rte, t.testBit 0⟩ s).mem := afterRmw_keeps_wf canonical
  have wf₁ : ConfigWF (afterRmw s.ctx ⟨p, .rte, t.testBit 0⟩ s).cfg := first.cfg.symm ▸ wf
  have hp₁ : p < (afterRmw s.ctx ⟨p, .rte, t.testBit 0⟩ s).cfg.pinCount := first.cfg.symm ▸ hp
  have powered₁ : Powered (afterRmw s.ctx ⟨p, .rte, t.testBit 0⟩ s) p := by
    rw [afterRmw_frame]
    exact powered_of_live live p
  obtain ⟨u, runs, agree⟩ : ∃ u, exec (.settype p t) s = .next (concluded s.ctx false u) ∧
      Agree (afterRmw s.ctx ⟨p, .fte, t.testBit 1⟩ (envStep (.edge p e) (afterRmw s.ctx ⟨p, .rte, t.testBit 0⟩ s))) u := by
    rcases windows with before | between
    · exact exec_of_block (begins_settype live hp ht) lockFree before
        (.calm (op := ⟨p, .rte, t.testBit 0⟩) wf hp rfl rfl
          (.edgeBefore (op := ⟨p, .fte, t.testBit 1⟩) wf₁ hp₁ hp₁ powered₁ e (.nil _ _ _)))
    · exact exec_of_block (begins_settype live hp ht) lockFree between
        (.calm (op := ⟨p, .rte, t.testBit 0⟩) wf hp rfl rfl
          (.edgeBetween (op := ⟨p, .fte, t.testBit 1⟩) wf₁ hp₁ hp₁ powered₁ e nofun nofun (.nil _ _ _)))
  refine ⟨_, runs, rfl, ?_⟩
  have notPending₁ := (first.otherKind (l := .sts) wf hp hp nofun).trans notPending
  have judged := pinBit_sts_edge canonical₁ hp₁ powered₁ notPending₁ e
  have falling := first.otherKind (l := .fte) wf hp hp nofun
  have rising := first.bit
  generalize afterRmw s.ctx ⟨p, .rte, t.testBit 0⟩ s = v at *
  have cfg : (envStep (.edge p e) v).cfg = v.cfg := by rw [envStep_frame]
  have second := bitMoved_afterRmw (s := envStep (.edge p e) v) (envStep_keeps_wf canonical₁) s.ctx
    (op := ⟨p, .fte, t.testBit 1⟩) nofun nofun
  have stays := second.otherKind (l := .sts) (cfg.symm ▸ wf₁) (cfg.symm ▸ hp₁) (cfg.symm ▸ hp₁) nofun
  have ends : pinBit (concluded s.ctx false u) .sts p = pinBit v (triggerKind e) p :=
    (agree.pinBit .sts p).trans (stays.trans judged)
  rw [ends]
  cases e with
  | rising => exact rising
  | falling => exact falling

/-! ## A `GET` between the blocks of `DIROUT` -/

/-- A `GET` that another idle context issues and completes in a window. -/
theorem applyMoves_get {s : State} {r : Request} {p : Nat} (wf : ConfigWF s.cfg) (lockFree : s.lock = .free)
    (quiet : s.windows = []) (live : Live s) (hp : p < s.cfg.pinCount) (decoded : decode r.word = .ok (.get p))
    (isContext : ctxExists s.cfg r.ctx = true) (idle : ctxBusy s r.ctx = false) :
    ∃ u, applyMoves [.start r, .advance r.ctx, .advance r.ctx] s = .next u ∧ Agree s u ∧ u.windows = [] ∧ u.lock = .free ∧
      .response r.ctx (respByte .ok (level s p)) ∈ u.log := by
  have pieces := doActions_test (c := r.ctx) (bit := false) (s := record (.command r.ctx r.word) s) wf lockFree quiet hp
    [.answerLevel]
  have begins : beginInstr (.get p) r.ctx r.hs (record (.command r.ctx r.word) s) =
      .next (.started [.test p, .answerLevel] (record (.command r.ctx r.word) s)) := 
    begins_of_live (s := record (.command r.ctx r.word) s) live hp _ _
  have starts : startCommand r s =
      .next (withFlight ⟨r.ctx, [.test p, .answerLevel], false⟩ (record (.command r.ctx r.word) s)) := by
    rw [startCommand, if_pos ⟨isContext, idle⟩, decoded]
    simp only [startInstr, begins]
    rfl
  have advances := applyMoves_advance (List.cons_ne_nil _ _) (s := record (.command r.ctx r.word) s) quiet
    (ctx_ne_of_not_busy idle) pieces
  refine ⟨respond r.ctx .ok (level s p) (record (.read r.ctx (regOff s.cfg (regOf s.cfg .lvl p))
    (readReg s (regOf s.cfg .lvl p))) (record (.command r.ctx r.word) s)), ?_, ⟨rfl, rfl, rfl, rfl, rfl, rfl, rfl⟩, quiet,
    lockFree, by simp⟩
  rw [applyMoves, applyMove, starts, andThen_next]
  exact advances

/-- The same between the pieces of a command `f` of another context. -/
theorem window_get {t : State} {r : Request} {p : Nat} {f : Flight} (wf : ConfigWF t.cfg) (lockFree : t.lock = .free)
    (noFlights : t.inflight = []) (live : Live t) (hp : p < t.cfg.pinCount) (decoded : decode r.word = .ok (.get p))
    (isContext : ctxExists t.cfg r.ctx = true) (other : f.ctx ≠ r.ctx)
    (ahead : t.windows = [[.start r, .advance r.ctx, .advance r.ctx]]) :
    ∃ u, window { t with running := some f } = .next u ∧ Agree t u ∧ u.windows = [] ∧ u.lock = .free ∧
      .response r.ctx (respByte .ok (level t p)) ∈ u.log := by
  have idle : ctxBusy { t with running := some f, windows := [] } r.ctx = false := by
    simp [ctxBusy, allFlights, noFlights, other]
  obtain ⟨u, gets, agree, quiet, lockFree', answered⟩ :=
    applyMoves_get (s := { t with running := some f, windows := [] }) wf lockFree rfl live hp decoded isContext idle
  exact ⟨u, (window_of_cons (s := { t with running := some f }) ahead).trans gets, (Agree.inBlock _ _ _ t).trans agree,
    quiet, lockFree', answered⟩

/-- Settles O27: the first block makes the pin an output, so the level the `GET` finds is the latch the second block has
not written yet. -/
theorem diroutTransientIsObservable : Obligations.DiroutTransientIsObservable := by
  intro s p v r wf canonical lockFree noFlights live hp decoded isContext other windows
  have first := bitMoved_afterRmw canonical s.ctx (op := ⟨p, .dir, false⟩) nofun nofun
  -- The first block, undisturbed.
  obtain ⟨t, runs, agree, ahead, lockFree'⟩ := runPieces_block
    (.calm (c := s.ctx) (op := ⟨p, .dir, false⟩) (w := [[], [], [.start r, .advance r.ctx, .advance r.ctx]]) wf hp rfl rfl
      (.nil _ _ _)) (.refl s) (by rw [windows]; rfl) (by rw [windows]; rfl) lockFree [.rmw [⟨p, .lvl, v⟩], .answer] false
  have cfg : t.cfg = s.cfg := agree.cfg.trans first.cfg
  have output : pinBit t .dir p = false := (agree.pinBit .dir p).trans first.bit
  have priorLatch : latch t p = latch s p := (agree.pinBit .lvl p).trans (first.otherKind (l := .lvl) wf hp hp nofun)
  have live' : Live t := by
    rw [Live, agree.attached, agree.pm, afterRmw_frame]
    exact live
  have noFlights' : t.inflight = [] := by rw [agree.inflight, afterRmw_frame]; exact noFlights
  -- The window between the blocks.
  obtain ⟨u, gets, agree', quiet, lockFree'', answered⟩ := window_get (p := p)
    (f := ⟨s.ctx, [.rmw [⟨p, .lvl, v⟩], .answer], false⟩) (cfg.symm ▸ wf) lockFree' noFlights' live' (cfg.symm ▸ hp) decoded
    (cfg.symm ▸ isContext) other.symm ahead
  rw [level_of_output output, priorLatch] at answered
  -- The second block, undisturbed.
  have cfg' : u.cfg = s.cfg := agree'.cfg.trans cfg
  have second := doAction_rmw_quiet s.ctx [⟨p, .lvl, v⟩] false (s := u) (cfg'.symm ▸ wf) lockFree'' quiet
    (by simpa [cfg'] using hp)
  have canonical' : MemWF u.mem := by rw [agree'.mem, agree.mem]; exact afterRmw_keeps_wf canonical
  have moved := bitMoved_afterRmw_lvl canonical' s.ctx (p := p) (cfg'.symm ▸ hp) v
  rw [agree'.pinBit, output, if_neg Bool.false_ne_true] at moved
  refine ⟨concluded s.ctx false (afterRmw s.ctx ⟨p, .lvl, v⟩ u), ?_, moved.bit, ?_, ?_⟩
  · have begins : beginInstr (.dirout p v) s.ctx s.hs s =
        .next (.started [.rmw [⟨p, .dir, false⟩], .rmw [⟨p, .lvl, v⟩], .answer] s) := begins_of_live live hp _ _
    rw [exec_eq_carryOut, begins, carryOut_started, runs, runPieces, gets, andThen_next, second, andThen_next]
    exact runPieces_answer (by simpa using quiet) _ _
  · rw [afterRmw_frame]
    exact agree'.inflight.trans noFlights'
  · rw [concluded_log, afterRmw_log]
    simp [answered]

end Sys2Proof.Proofs
end
